-- ==== Sys2Proof/Word.lean ====
section
/-! DEFINITION. The word types of OFDM-TX: bytes, 32-bit bus words, and C64 samples as pairs of binary64 bit patterns. -/

namespace Sys2Proof

/-- One byte of IN_MEM, BIT_MEM or SMP_MEM (20_memory.md R81 to R83). -/
abbrev Byte := BitVec 8

/-- A 32-bit bus word: a CSR value or a command word (R32, R110). -/
abbrev Word := BitVec 32

/-- The bit pattern of an IEEE 754 binary64 value (00_scope.md R16). -/
abbrev F64 := BitVec 64

/-- A complex sample: the pair (I, Q) of binary64 values (00_scope.md R16, 20_memory.md R83). -/
structure C64 where
  re : F64
  im : F64
  deriving DecidableEq, Repr, Inhabited

/-- The sample (+0.0, +0.0). -/
def C64.zero : C64 := ⟨0#64, 0#64⟩

end Sys2Proof
end

