-- ==== Sys2Proof/Config.lean ====
section
/-! DEFINITION. What an implementation fixes (00_scope.md R8 to R12), and the free values: opaque constants with no body. -/

namespace Sys2Proof

/-- The implementation parameters of 00_scope.md R8 to R10 and R12. They are plain data: a state carries its block's
parameters, no step changes them, and a claim about every state is a claim about every block (log 1). -/
structure Params where
  /-- MAX_PSDU (R8). -/
  maxPsdu       : Nat
  /-- IN_MEM_BYTES (R9). -/
  inMemBytes    : Nat
  /-- BIT_MEM_BYTES (R9). -/
  bitMemBytes   : Nat
  /-- SMP_MEM_SAMPLES (R9). -/
  smpMemSamples : Nat
  /-- HAS_DETECTOR (R10). -/
  hasDetector   : Bool
  /-- BASE (R12), the host address of the aperture. -/
  base          : Nat
  deriving DecidableEq, Repr

/-- The defaults of R8, R9 and R10. BASE is OPEN in R12; DESIGN CHOICE 0 here (log 2). -/
def Params.default : Params :=
  { maxPsdu := 4095, inMemBytes := 8192, bitMemBytes := 16384, smpMemSamples := 131072,
    hasDetector := true, base := 0 }

/-- IFFT64N, the hardware's normalised 64-point inverse transform (R11, 45_symbol_assembler.md R266). A function, hence
deterministic (R266 item 1); its accuracy is assumed only where a claim says so (`Safety.IfftAccurate`, log 9). -/
opaque Config.ifft64n : Vector C64 64 → Vector C64 64

/-- SHORT_METRIC before its ideal-input property is imposed (48_frame_detector.md R343): given r[0 .. n+47] and n. -/
opaque Config.shortMetricFree : List C64 → Nat → Option Rat

/-- LONG_METRIC (R346): given only the window r[n .. n+63] and x_L. -/
opaque Config.longMetric : List C64 → Vector C64 64 → Option Rat

/-- The byte a host read of an unspecified location returns, and the contents a reset leaves in a running command's
output range (70_reset_and_hazards.md R391, R392, R405). The argument is the draw counter. -/
opaque Config.freeByte : Nat → Byte

/-- How many host operations come before the completion of an accepted command (R408). The argument is the draw counter. -/
opaque Config.completionDelay : Nat → Nat

/-- Sign and payload of the quiet NaN a binary64 operation on two given operands produces (log 12). -/
opaque Config.nanBits : F64 → F64 → Bool × BitVec 51

end Sys2Proof
end

