-- ==== Sys2Proof/Syntax.lean ====
section
/-! DEFINITION. The command set: one constructor per row of spec/opcode_table.json (30_encoding.md R112), in its order. -/

namespace Sys2Proof

/-- The fifteen commands of R112. A command word carries no operand (R111), so no constructor has an argument. -/
inductive Instr where
  /-- NOP, OP 0x00 (R328). -/
  | nop
  /-- ENCODE_FRAME, OP 0x01 (R326). -/
  | encodeFrame
  /-- GEN_PREAMBLE, OP 0x02 (R305). -/
  | genPreamble
  /-- GEN_SIGNAL, OP 0x03 (R306). -/
  | genSignal
  /-- FRAME_SIZING, OP 0x04 (R147). -/
  | frameSizing
  /-- SCRAMBLE, OP 0x10 (R168). -/
  | scramble
  /-- BUILD_DATA_FIELD, OP 0x11 (R169). -/
  | buildDataField
  /-- CONV_ENCODE, OP 0x12 (R198). -/
  | convEncode
  /-- PUNCTURE, OP 0x13 (R199). -/
  | puncture
  /-- INTERLEAVE, OP 0x14 (R226). -/
  | interleave
  /-- DEINTERLEAVE, OP 0x15 (R227). -/
  | deinterleave
  /-- MAP_SYMBOL, OP 0x16 (R248). -/
  | mapSymbol
  /-- MODULATE_SYMBOL, OP 0x17 (R272). -/
  | modulateSymbol
  /-- DETECT_SHORT, OP 0x20 (R350). -/
  | detectShort
  /-- DETECT_LONG, OP 0x21 (R351). -/
  | detectLong
  deriving DecidableEq, Repr

end Sys2Proof
end

