-- ==== Sys2Proof/WellFormed.lean ====
section
/-! DEFINITION. The static checks: which commands a block has (30_encoding.md R113), and the constraints on the
implementation parameters (00_scope.md R8, R9). -/

namespace Sys2Proof

/-- The detector commands are defined only when HAS_DETECTOR is true (R113). -/
def Instr.needsDetector : Instr → Bool
  | .nop | .encodeFrame | .genPreamble | .genSignal | .frameSizing | .scramble | .buildDataField
  | .convEncode | .puncture | .interleave | .deinterleave | .mapSymbol | .modulateSymbol => false
  | .detectShort | .detectLong => true

/-- A command is well-formed for a block when the block defines it (R112, R113). -/
def Instr.wellFormed (hasDetector : Bool) (i : Instr) : Bool := !i.needsDetector || hasDetector

/-- NSAMP_MIN of R9: the frame length at the lowest rate for the longest PSDU. -/
def Params.nsampMin (p : Params) : Nat := (5 + (22 + 8 * p.maxPsdu + 23) / 24) * 80 + 1

/-- MAX_PSDU is in range (R8). -/
def Params.psduOk (p : Params) : Bool := decide (1 ≤ p.maxPsdu) && decide (p.maxPsdu ≤ 4095)

/-- IN_MEM_BYTES is in range (R9). -/
def Params.inMemOk (p : Params) : Bool := decide (p.maxPsdu ≤ p.inMemBytes) && decide (p.inMemBytes ≤ 2 ^ 20)

/-- BIT_MEM_BYTES is in range (R9). -/
def Params.bitMemOk (p : Params) : Bool := decide (2 * p.inMemBytes ≤ p.bitMemBytes) && decide (p.bitMemBytes ≤ 2 ^ 20)

/-- SMP_MEM_SAMPLES is in range (R9). -/
def Params.smpMemOk (p : Params) : Bool := decide (p.nsampMin ≤ p.smpMemSamples) && decide (p.smpMemSamples ≤ 2 ^ 18)

/-- The constraints of R8 and R9 on the parameters of one block. -/
def Params.wellFormed (p : Params) : Bool := p.psduOk && p.inMemOk && p.bitMemOk && p.smpMemOk

end Sys2Proof
end

