-- ==== Sys2Proof/Decode.lean ====
section
/-! DEFINITION. The decoder of command words, total and rejecting by name (30_encoding.md R116), and the encoder (R112). -/

namespace Sys2Proof

/-- Why a command word is illegal: the three cases of 60_exceptions.md R364. -/
inductive DecodeError where
  /-- Bits 31:8 are not all 0 (30_encoding.md R114). -/
  | reservedBits
  /-- OP is none of the fifteen values of R112 (R115). -/
  | unassignedOpcode
  /-- OP is 0x20 or 0x21 and the block has no detector (R113, R115). -/
  | noDetector
  deriving DecidableEq, Repr

/-- The command an OP value selects, before HAS_DETECTOR is asked (R112). -/
def decodeOp (op : BitVec 8) : Option Instr :=
  match op with
  | 0x00#8 => some .nop
  | 0x01#8 => some .encodeFrame
  | 0x02#8 => some .genPreamble
  | 0x03#8 => some .genSignal
  | 0x04#8 => some .frameSizing
  | 0x10#8 => some .scramble
  | 0x11#8 => some .buildDataField
  | 0x12#8 => some .convEncode
  | 0x13#8 => some .puncture
  | 0x14#8 => some .interleave
  | 0x15#8 => some .deinterleave
  | 0x16#8 => some .mapSymbol
  | 0x17#8 => some .modulateSymbol
  | 0x20#8 => some .detectShort
  | 0x21#8 => some .detectLong
  | _ => none

/-- The decode function of R116, for a block with or without the detector. -/
def decode (hasDetector : Bool) (w : Word) : Except DecodeError Instr :=
  if w.extractLsb' 8 24 ≠ 0#24 then .error .reservedBits
  else match decodeOp (w.extractLsb' 0 8) with
    | none => .error .unassignedOpcode
    | some i => if i.wellFormed hasDetector then .ok i else .error .noDetector

/-- OP of each command (R112). -/
def opcode : Instr → BitVec 8
  | .nop => 0x00#8
  | .encodeFrame => 0x01#8
  | .genPreamble => 0x02#8
  | .genSignal => 0x03#8
  | .frameSizing => 0x04#8
  | .scramble => 0x10#8
  | .buildDataField => 0x11#8
  | .convEncode => 0x12#8
  | .puncture => 0x13#8
  | .interleave => 0x14#8
  | .deinterleave => 0x15#8
  | .mapSymbol => 0x16#8
  | .modulateSymbol => 0x17#8
  | .detectShort => 0x20#8
  | .detectLong => 0x21#8

/-- "The whole command word of each is zext_32(OP)" (R112). -/
def encode (i : Instr) : Word := (opcode i).setWidth 32

/-- The command word whose table bits are the low `nbits` bits of `w`; the rest are 0 (R110: one 32-bit word). -/
def tableWord (nbits w : Nat) : Word := BitVec.ofNat 32 (w % 2 ^ nbits)

/-- What the decoder of a block with the default parameters (R10: HAS_DETECTOR true) reads from a table word. -/
def decodeTableWord (nbits w : Nat) : Option Instr :=
  (decode Params.default.hasDetector (tableWord nbits w)).toOption

end Sys2Proof
end

