-- ==== Sys2Proof/Machine/State.lean ====
section
/-! DEFINITION. The state of OFDM-TX as plain data, its reset value, and the reasons a step can stop. -/

namespace Sys2Proof.Machine

/-- The engine's phase (10_state.md R31). STATUS.BUSY reads 1 exactly when it is `busy`. -/
inductive Phase where
  | idle
  | busy
  deriving DecidableEq, Repr

/-- The error codes of 60_exceptions.md R360. The reserved codes 5 to 15 are never produced and have no constructor. -/
inductive ErrorCode where
  /-- NONE, 0. -/
  | none
  /-- ILLEGAL_COMMAND, 1 (R364). -/
  | illegalCommand
  /-- INVALID_DATA_RATE, 2 (R361). -/
  | invalidDataRate
  /-- PSDU_TOO_LARGE, 3 (R362). -/
  | psduTooLarge
  /-- BUFFER_SIZE_MISMATCH, 4 (R363). -/
  | bufferSizeMismatch
  deriving DecidableEq, Repr

/-- The STATUS bits of 10_state.md R34 that are stored; BUSY is the phase. -/
structure Status where
  done       : Bool
  err        : Bool
  found      : Bool
  cmdDropped : Bool
  errCode    : ErrorCode
  deriving DecidableEq, Repr

/-- The nine configuration CSRs (10_state.md R35 to R39, R46, R48), each field at its own width. Reserved bits have no
storage: they read 0 and ignore writes (R49). The snapshot is a copy of exactly these (R31, 60_exceptions.md R370). -/
structure ConfigRegs where
  /-- TXCFG.RATE (R35). -/
  rate         : BitVec 4
  /-- TXCFG.BW (R35). -/
  bw           : BitVec 2
  /-- TXCFG.PSDU_MSB_FIRST (R35). -/
  psduMsbFirst : Bool
  /-- SEED.SEED (R36). -/
  seed         : BitVec 7
  /-- PSDU_LEN.LEN (R37). -/
  psduLen      : BitVec 16
  /-- STAGE_LEN.NBITS (R38). -/
  stageLen     : BitVec 24
  /-- SYM_INDEX.INDEX (R39). -/
  symIndex     : BitVec 16
  /-- DET_LEN.N (R46). -/
  detLen       : BitVec 24
  /-- DET_MAXSCAN.MAX (R46). -/
  detMaxScan   : BitVec 24
  /-- DET_THR_SHORT, a binary32 pattern (R48). -/
  detThrShort  : BitVec 32
  /-- DET_THR_LONG, a binary32 pattern (R48). -/
  detThrLong   : BitVec 32
  deriving DecidableEq, Repr

/-- The result CSRs (10_state.md R40 to R45). -/
structure ResultRegs where
  /-- N_SYM (R40). -/
  nSym     : BitVec 16
  /-- N_PAD (R41). -/
  nPad     : BitVec 16
  /-- N_DATA (R42). -/
  nData    : BitVec 24
  /-- OUT_LEN (R43). -/
  outLen   : BitVec 32
  /-- TXTIME (R44). -/
  txTime   : BitVec 24
  /-- DET_INDEX (R45). -/
  detIndex : BitVec 32
  deriving DecidableEq, Repr

/-- One data memory: its written bytes, by index, in the canonical form `Memory.wf` (Machine/Ops.lean). An index that is
not listed is unwritten since power-on and has no value (70_reset_and_hazards.md R391, log 4). -/
abbrev Memory := List Host.Cell

/-- The three data memories (10_state.md R51). -/
inductive MemSpace where
  | inMem
  | bitMem
  | smpMem
  deriving DecidableEq, Repr

/-- The host's access widths (20_memory.md R84, R85): 8, 16 or 32 bits. A wider access does not exist on the interface. -/
inductive Width where
  | w8
  | w16
  | w32
  deriving DecidableEq, Repr

/-- What the host, or the platform's reset input, does next (30_encoding.md R117, R118; 70_reset_and_hazards.md R393).
Addresses are host byte addresses; the low bytes of `data` are the ones a narrow write stores. -/
inductive HostOp where
  | write (addr : Nat) (width : Width) (data : Word)
  | read (addr : Nat) (width : Width)
  /-- One turn of the host's loop on STATUS (R118): read STATUS, and stay in the queue while BUSY reads 1. -/
  | poll
  /-- The platform's reset input (R393). -/
  | reset
  deriving DecidableEq, Repr

/-- Why a step stops. The errors of 60_exceptions.md are no faults: they complete the command (R365). -/
inductive Fault where
  /-- Raised by a command that reads an unwritten location of its input range (70_reset_and_hazards.md R391: "is a fault").
  Safe: the model stops where the hardware goes on with unspecified values. -/
  | unwrittenInput (space : MemSpace) (index : Nat)
  /-- Raised by a host write, while BUSY, to the running command's input or output range (R404: "The model treats it as a
  fault"). Safe: the model stops where the hardware goes on with unspecified outputs. -/
  | busyWriteHazard (space : MemSpace) (index : Nat)
  deriving DecidableEq, Repr

/-- Why a step has no meaning. -/
inductive Refusal where
  /-- Raised by an arm of `exec` whose instruction has no meaning yet; no arm is such at present. Safe: the model stops. -/
  | notModelled (mnemonic : String)
  deriving DecidableEq, Repr

/-- The machine. `delay`, `draws`, `pending` and `responses` are the model's own fields (INVENTORY.md, State). -/
structure State where
  /-- The block's implementation parameters (00_scope.md R8 to R12). -/
  params    : Params
  /-- R31. -/
  phase     : Phase
  /-- The command word latched at acceptance (R31). -/
  cmd       : Word
  /-- The configuration CSRs as captured at acceptance (R31). -/
  snap      : ConfigRegs
  /-- STATUS (R34). -/
  status    : Status
  /-- The configuration CSRs (R35 to R39, R46, R48). -/
  regs      : ConfigRegs
  /-- The result CSRs (R40 to R45). -/
  results   : ResultRegs
  /-- IN_MEM (20_memory.md R81). -/
  inMem     : Memory
  /-- BIT_MEM (20_memory.md R82). -/
  bitMem    : Memory
  /-- SMP_MEM (20_memory.md R83), byte k of the window. -/
  smpMem    : Memory
  /-- Host operations still to come before the running command completes (R408, log 6). -/
  delay     : Nat
  /-- How many free values have been drawn (log 5). -/
  draws     : Nat
  /-- The host operations still to be issued, in order (20_memory.md R93, log 7). -/
  pending   : List HostOp
  /-- The values returned to the host, newest first (log 7). -/
  responses : List Word
  deriving DecidableEq, Repr

/-- STATUS after reset: 0 (R34, 70_reset_and_hazards.md R390). -/
def Status.reset : Status :=
  { done := false, err := false, found := false, cmdDropped := false, errCode := .none }

/-- The configuration CSRs after reset (R35 to R39, R46, R48, R390); the thresholds read 0 without a detector (R48). -/
def ConfigRegs.reset (hasDetector : Bool) : ConfigRegs :=
  { rate := 0, bw := 0, psduMsbFirst := false, seed := 0x5D#7, psduLen := 0, stageLen := 0, symIndex := 0,
    detLen := 0, detMaxScan := 0,
    detThrShort := if hasDetector then 0x3F99999A#32 else 0,
    detThrLong := if hasDetector then 0x40000000#32 else 0 }

/-- The snapshot after reset. The spec leaves it unspecified (R390); DESIGN CHOICE all 0 (log 3). -/
def ConfigRegs.zero : ConfigRegs :=
  { rate := 0, bw := 0, psduMsbFirst := false, seed := 0, psduLen := 0, stageLen := 0, symIndex := 0,
    detLen := 0, detMaxScan := 0, detThrShort := 0, detThrLong := 0 }

/-- The result CSRs after reset (R40 to R45); DET_INDEX reads 0 without a detector (R45). -/
def ResultRegs.reset (hasDetector : Bool) : ResultRegs :=
  { nSym := 0, nPad := 0, nData := 0, outLen := 0, txTime := 0,
    detIndex := if hasDetector then 0xFFFFFFFF#32 else 0 }

/-- A block with parameters `p` after power-on reset (R390, R391): nothing is written in any memory, and the host has
nothing to issue. -/
def State.powerOn (p : Params) : State :=
  { params := p, phase := .idle, cmd := 0, snap := ConfigRegs.zero, status := Status.reset,
    regs := ConfigRegs.reset p.hasDetector, results := ResultRegs.reset p.hasDetector,
    inMem := [], bitMem := [], smpMem := [],
    delay := 0, draws := 0, pending := [], responses := [] }

/-- The machine right after reset, with the default parameters of 00_scope.md R8 to R10. -/
def State.reset : State := State.powerOn Params.default

end Sys2Proof.Machine
end

