-- ==== Sys2Proof/Machine/Flags.lean ====
section
/-! DEFINITION. STATUS: the word the host reads and every event that sets or clears its bits (10_state.md R34, R50). -/

namespace Sys2Proof.Machine

/-- The numeric code of an error (60_exceptions.md R360). -/
def ErrorCode.code : ErrorCode → BitVec 4
  | .none => 0
  | .illegalCommand => 1
  | .invalidDataRate => 2
  | .psduTooLarge => 3
  | .bufferSizeMismatch => 4

/-- The STATUS word (R34): bit 0 BUSY, 1 DONE, 2 ERR, 3 FOUND, 4 CMD_DROPPED, 11:8 ERRCODE, the rest 0. -/
def Status.word (st : Status) (busy : Bool) : Word :=
  0#20 ++ st.errCode.code ++ 0#3 ++ BitVec.ofBool st.cmdDropped ++ BitVec.ofBool st.found ++
    BitVec.ofBool st.err ++ BitVec.ofBool st.done ++ BitVec.ofBool busy

/-- STATUS.BUSY reads 1 exactly when the phase is BUSY (R31). -/
def Phase.isBusy : Phase → Bool
  | .idle => false
  | .busy => true

/-- Acceptance clears DONE, ERR, FOUND and ERRCODE; CMD_DROPPED is not changed (60_exceptions.md R370). -/
def Status.accepted (st : Status) : Status :=
  { st with done := false, err := false, found := false, errCode := .none }

/-- A CMD write while BUSY sets CMD_DROPPED (R371). -/
def Status.dropped (st : Status) : Status := { st with cmdDropped := true }

/-- Successful completion (R372): FOUND says whether a detect command found its pattern. -/
def Status.succeeded (st : Status) (found : Bool) : Status :=
  { st with done := true, err := false, found := found, errCode := .none }

/-- Error completion (R365). -/
def Status.failed (st : Status) (c : ErrorCode) : Status :=
  { st with done := true, err := true, found := false, errCode := c }

/-- A host write to STATUS changes only CMD_DROPPED, cleared when bit 4 of the written word is 1 (R34). -/
def Status.hostWrite (st : Status) (w : Word) : Status :=
  if w.getLsbD 4 then { st with cmdDropped := false } else st

end Sys2Proof.Machine
end

