-- ==== Sys2Proof/Machine/Bits.lean ====
section
/-! DEFINITION. Bits, bytes and their orders: the MSB-first stream addressing (00_scope.md R14) and the little-endian bus order (20_memory.md R86). -/

namespace Sys2Proof.Machine

/-- `ceil(a / b)` (R15). -/
def ceilDiv (a b : Nat) : Nat := (a + b - 1) / b

/-- Stream bit t of a byte, the first in transmission order being the most significant: bit `7 - t` (R14). -/
def byteBit (b : Byte) (t : Nat) : Bool := b.getLsbD (7 - t % 8)

/-- The byte whose stream bits are the eight given ones, first bit first (R14, BitSet). -/
def byteOfBits (b0 b1 b2 b3 b4 b5 b6 b7 : Bool) : Byte :=
  BitVec.ofBool b0 ++ BitVec.ofBool b1 ++ BitVec.ofBool b2 ++ BitVec.ofBool b3 ++
  BitVec.ofBool b4 ++ BitVec.ofBool b5 ++ BitVec.ofBool b6 ++ BitVec.ofBool b7

/-- The bytes a bit stream occupies from bit address 0; the unused low-order bits of the last byte are 0 and an empty
stream occupies no byte (20_memory.md R90). -/
def packBits : List Bool → List Byte
  | b0 :: b1 :: b2 :: b3 :: b4 :: b5 :: b6 :: b7 :: rest => byteOfBits b0 b1 b2 b3 b4 b5 b6 b7 :: packBits rest
  | [] => []
  | part =>
    let b := fun t => part.getD t false
    [byteOfBits (b 0) (b 1) (b 2) (b 3) (b 4) (b 5) (b 6) (b 7)]

/-- `Group` of 00_scope.md R14 on a bit sequence: the value of bits `i .. i+n-1`, the first of them the most significant. -/
def groupMsb (v : List Bool) (i n : Nat) : Nat :=
  ((v.drop i).take n).foldl (fun acc b => 2 * acc + b.toNat) 0

/-- The low `n` bytes of a value, least significant first (20_memory.md R86). -/
def leBytes (n v : Nat) : List Byte := (List.range n).map fun k => BitVec.ofNat 8 (v / 256 ^ k)

/-- The value of bytes given least significant first (20_memory.md R86). -/
def leValue : List Byte → Nat
  | [] => 0
  | b :: bs => b.toNat + 256 * leValue bs

/-- Sample bytes: I then Q, each a little-endian binary64 (20_memory.md R83). -/
def sampleBytes (c : C64) : List Byte := leBytes 8 c.re.toNat ++ leBytes 8 c.im.toNat

/-- The sample sixteen bytes hold (20_memory.md R83). -/
def sampleOfBytes (bs : List Byte) : C64 :=
  ⟨BitVec.ofNat 64 (leValue (bs.take 8)), BitVec.ofNat 64 (leValue ((bs.drop 8).take 8))⟩

/-- `parity(x)`: the XOR of all bits (R15). -/
def parity7 (x : BitVec 7) : Bool :=
  x.getLsbD 0 ^^ x.getLsbD 1 ^^ x.getLsbD 2 ^^ x.getLsbD 3 ^^ x.getLsbD 4 ^^ x.getLsbD 5 ^^ x.getLsbD 6

/-- The consecutive blocks of `n` elements, `k` of them (43_interleaver.md R220). -/
def blocks {α : Type} (n : Nat) : Nat → List α → List (List α)
  | 0, _ => []
  | k + 1, l => l.take n :: blocks n k (l.drop n)

end Sys2Proof.Machine
end

