-- ==== Sys2Proof/Machine/Rates.lean ====
section
/-! DEFINITION. RateTable and FrameSizing: 40_rate_sizing.md R140 to R146. -/

namespace Sys2Proof.Machine

/-- The four modulations of the rate table (R141). -/
inductive Modulation where
  | bpsk
  | qpsk
  | qam16
  | qam64
  deriving DecidableEq, Repr

/-- The three coding rates of the rate table (R141). -/
inductive CodingRate where
  | half
  | twoThirds
  | threeQuarters
  deriving DecidableEq, Repr

/-- A RateProfile (R140). `rateCode` has R1 in bit 0, ..., R4 in bit 3 (R141). -/
structure RateProfile where
  modulation : Modulation
  codingRate : CodingRate
  nBpsc      : Nat
  nCbps      : Nat
  nDbps      : Nat
  rateCode   : BitVec 4
  deriving DecidableEq, Repr

/-- The row RATE of the rate table of R141, for RATE 0 to 7. -/
def rateRow : Nat → Option RateProfile
  | 0 => some ⟨.bpsk,  .half,          1, 48,  24,  0xB#4⟩
  | 1 => some ⟨.bpsk,  .threeQuarters, 1, 48,  36,  0xF#4⟩
  | 2 => some ⟨.qpsk,  .half,          2, 96,  48,  0xA#4⟩
  | 3 => some ⟨.qpsk,  .threeQuarters, 2, 96,  72,  0xE#4⟩
  | 4 => some ⟨.qam16, .half,          4, 192, 96,  0x9#4⟩
  | 5 => some ⟨.qam16, .threeQuarters, 4, 192, 144, 0xD#4⟩
  | 6 => some ⟨.qam64, .twoThirds,     6, 288, 192, 0x8#4⟩
  | 7 => some ⟨.qam64, .threeQuarters, 6, 288, 216, 0xC#4⟩
  | _ => none

/-- `profile(bw, rate)` of R142; `none` is Invalid. -/
def profile (bw : BitVec 2) (rate : BitVec 4) : Option RateProfile :=
  if bw.toNat ≤ 1 then rateRow rate.toNat else none

/-- The profile whose modulation and sizes the SIGNAL field uses: the lowest rate (46_preamble_signal.md R302). -/
def signalProfile : RateProfile := ⟨.bpsk, .half, 1, 48, 24, 0xB#4⟩

/-- The sizing values of R144. -/
structure Sizing where
  nSym  : Nat
  nData : Nat
  nPad  : Nat
  deriving DecidableEq, Repr

/-- SERVICE, PSDU and TAIL bits (R144). -/
def nBits (len : Nat) : Nat := 16 + 8 * len + 6

/-- `sizing(P, L)` of R144. -/
def sizing (p : RateProfile) (len : Nat) : Sizing :=
  let nSym := ceilDiv (nBits len) p.nDbps
  { nSym := nSym, nData := nSym * p.nDbps, nPad := nSym * p.nDbps - nBits len }

/-- T_SYM of R145, in microseconds. -/
def tSym (bw : BitVec 2) : Nat := if bw = 0 then 4 else 8

/-- TXTIME of R145, in microseconds. -/
def txTime (nSym : Nat) (bw : BitVec 2) : Nat := (5 + nSym) * tSym bw

/-- The bytes the data field occupies (R146). -/
def dataFieldBytes (z : Sizing) : Nat := ceilDiv z.nData 8

/-- The coded bits after puncturing (R146). -/
def codedBits (p : RateProfile) (z : Sizing) : Nat := z.nSym * p.nCbps

/-- The bytes the coded bits occupy (R146). -/
def codedBytes (p : RateProfile) (z : Sizing) : Nat := codedBits p z / 8

/-- FRAME_LEN (47_frame.md R321). -/
def frameLen (nSym : Nat) : Nat := (5 + nSym) * 80 + 1

end Sys2Proof.Machine
end

