-- ==== Sys2Proof/Machine/Ops.lean ====
section
/-! DEFINITION. The named operations over memories and registers, acceptance, and the two completions of a command
(60_exceptions.md R365, R370, R372): `State.failWith` is the shared error completion. -/

namespace Sys2Proof.Machine

/-! ### One memory -/

/-- The canonical form of a memory: addresses strictly rising. An unlisted address has no value, so no entry can equal
what an unlisted address reads as. -/
abbrev Memory.wf (m : Memory) : Prop := m.Pairwise (fun x y => x.1 < y.1)

/-- The byte at an index; `none` when it is unwritten (70_reset_and_hazards.md R391). -/
def Memory.read : Memory → Nat → Option Byte
  | [], _ => none
  | (k, b) :: m, a => if k = a then some b else Memory.read m a

/-- The entries of consecutive bytes from index `a`. -/
def cellsFrom : Nat → List Byte → Memory
  | _, [] => []
  | a, b :: bs => (a, b) :: cellsFrom (a + 1) bs

/-- Stores consecutive bytes from index `a`; every other byte keeps its value (20_memory.md R90). -/
def Memory.writeBlock (m : Memory) (a : Nat) (bs : List Byte) : Memory :=
  m.filter (fun c => decide (c.1 < a)) ++ cellsFrom a bs ++ m.filter (fun c => decide (a + bs.length ≤ c.1))

/-- Stores one byte. -/
def Memory.write (m : Memory) (a : Nat) (b : Byte) : Memory := m.writeBlock a [b]

/-- `BitGet(M, i)` of 00_scope.md R14; `none` when the byte is unwritten. -/
def Memory.bit? (m : Memory) (i : Nat) : Option Bool := (m.read (i / 8)).map (fun b => byteBit b (i % 8))

/-- The bytes `[a, a + n)`, if all are written. -/
def Memory.bytes? (m : Memory) : Nat → Nat → Option (List Byte)
  | _, 0 => some []
  | a, n + 1 =>
    match m.read a, Memory.bytes? m (a + 1) n with
    | some b, some bs => some (b :: bs)
    | _, _ => none

/-- `SmpRead(i)` (00_scope.md R17, 20_memory.md R83), if its sixteen bytes are written. -/
def Memory.sample? (m : Memory) (i : Nat) : Option C64 := (m.bytes? (16 * i) 16).map sampleOfBytes

/-! ### The memories of a state -/

/-- The memory of a space. -/
def State.mem (s : State) : MemSpace → Memory
  | .inMem => s.inMem
  | .bitMem => s.bitMem
  | .smpMem => s.smpMem

/-- The state with one memory replaced. -/
def State.setMem (s : State) (sp : MemSpace) (m : Memory) : State :=
  match sp with
  | .inMem => { s with inMem := m }
  | .bitMem => { s with bitMem := m }
  | .smpMem => { s with smpMem := m }

/-- Implemented bytes of a memory (20_memory.md R80). -/
def memBytes (p : Params) : MemSpace → Nat
  | .inMem => p.inMemBytes
  | .bitMem => p.bitMemBytes
  | .smpMem => 16 * p.smpMemSamples

/-! ### What ends a command early -/

/-- What ends a command before its first write: an error of 60_exceptions.md R360, which completes the command (R365), or a
fault of the model. -/
inductive Stop where
  | error (c : ErrorCode)
  | fault (f : Fault)
  deriving DecidableEq, Repr

/-- `raise Error(code)` unless the check holds. -/
def require (ok : Bool) (c : ErrorCode) : Except Stop Unit :=
  if ok then .ok () else .error (.error c)

/-- An engine read of one byte. Reading an unwritten location is a fault (R391). -/
def State.engineByte (s : State) (sp : MemSpace) (k : Nat) : Except Stop Byte :=
  match (s.mem sp).read k with
  | some b => .ok b
  | none => .error (.fault (.unwrittenInput sp k))

/-- An engine read of the bytes `[a, a + n)` of a memory. -/
def State.engineBytes (s : State) (sp : MemSpace) : Nat → Nat → Except Stop (List Byte)
  | _, 0 => .ok []
  | a, n + 1 =>
    match s.engineByte sp a with
    | .error e => .error e
    | .ok b =>
      match State.engineBytes s sp (a + 1) n with
      | .error e => .error e
      | .ok bs => .ok (b :: bs)

/-- `Bits(IN, i, n)` of 00_scope.md R14, read by the engine. -/
def State.engineBits (s : State) : Nat → Nat → Except Stop (List Bool)
  | _, 0 => .ok []
  | i, n + 1 =>
    match s.engineByte .inMem (i / 8) with
    | .error e => .error e
    | .ok b =>
      match State.engineBits s (i + 1) n with
      | .error e => .error e
      | .ok bs => .ok (byteBit b (i % 8) :: bs)

/-- An engine read of the samples `[i, i + n)` of SMP_MEM. -/
def State.engineSamples (s : State) : Nat → Nat → Except Stop (List C64)
  | _, 0 => .ok []
  | i, n + 1 =>
    match s.engineBytes .smpMem (16 * i) 16 with
    | .error e => .error e
    | .ok bs =>
      match State.engineSamples s (i + 1) n with
      | .error e => .error e
      | .ok cs => .ok (sampleOfBytes bs :: cs)

/-! ### What a command writes -/

/-- The sizing CSRs a command writes (40_rate_sizing.md R147). -/
structure SizingResult where
  sizing : Sizing
  txTime : Nat
  deriving DecidableEq, Repr

/-- The outputs of one successful command (20_memory.md R89, R90): what stands at `none` is left as it is. -/
structure Effects where
  /-- The bits written to BIT_MEM from bit address 0. -/
  bits      : Option (List Bool)
  /-- The samples written to SMP_MEM from sample 0. -/
  samples   : Option (List C64)
  /-- N_SYM, N_PAD, N_DATA and TXTIME. -/
  sizing    : Option SizingResult
  /-- OUT_LEN. -/
  outLen    : Option Nat
  /-- The result of a detect command: the index found, or NotFound. -/
  detection : Option (Option Nat)
  deriving DecidableEq, Repr

/-- A command with no output (47_frame.md R328). -/
def Effects.nothing : Effects :=
  { bits := none, samples := none, sizing := none, outLen := none, detection := none }

/-- A command that writes bits: OUT_LEN counts them (10_state.md R43). -/
def Effects.ofBits (w : List Bool) : Effects := { Effects.nothing with bits := some w, outLen := some w.length }

/-- A command that writes samples: OUT_LEN counts them (10_state.md R43). -/
def Effects.ofSamples (w : List C64) : Effects := { Effects.nothing with samples := some w, outLen := some w.length }

/-- STATUS.FOUND at completion: 1 only for a detect command that found its pattern (60_exceptions.md R372). -/
def Effects.found (e : Effects) : Bool :=
  match e.detection with
  | some (some _) => true
  | _ => false

/-- DET_INDEX of a scan result; the sentinel for NotFound is 0xFFFFFFFF (10_state.md R45). -/
def detIndexOf : Option Nat → BitVec 32
  | some n => BitVec.ofNat 32 n
  | none => 0xFFFFFFFF#32

/-- The result CSRs after a successful command. -/
def ResultRegs.apply (r : ResultRegs) (e : Effects) : ResultRegs :=
  { nSym := match e.sizing with
      | some z => BitVec.ofNat 16 z.sizing.nSym
      | none => r.nSym
    nPad := match e.sizing with
      | some z => BitVec.ofNat 16 z.sizing.nPad
      | none => r.nPad
    nData := match e.sizing with
      | some z => BitVec.ofNat 24 z.sizing.nData
      | none => r.nData
    txTime := match e.sizing with
      | some z => BitVec.ofNat 24 z.txTime
      | none => r.txTime
    outLen := match e.outLen with
      | some n => BitVec.ofNat 32 n
      | none => r.outLen
    detIndex := match e.detection with
      | some d => detIndexOf d
      | none => r.detIndex }

/-- BIT_MEM after a command that outputs bits (20_memory.md R90). -/
def bitMemAfter (m : Memory) : Option (List Bool) → Memory
  | some w => m.writeBlock 0 (packBits w)
  | none => m

/-- SMP_MEM after a command that outputs samples (20_memory.md R83, R90). -/
def smpMemAfter (m : Memory) : Option (List C64) → Memory
  | some w => m.writeBlock 0 (w.flatMap sampleBytes)
  | none => m

/-! ### Acceptance and completion -/

/-- Acceptance of a command word (60_exceptions.md R370); the completion comes `delay` host operations later (R408). -/
def State.accept (s : State) (w : Word) (delay : Nat) : State :=
  { s with cmd := w, snap := s.regs, status := s.status.accepted, phase := .busy, delay := delay }

/-- Successful completion (60_exceptions.md R372): the memory writes, the result CSRs, STATUS, and phase IDLE. -/
def State.succeedWith (s : State) (e : Effects) : State :=
  { s with bitMem := bitMemAfter s.bitMem e.bits, smpMem := smpMemAfter s.smpMem e.samples,
           results := s.results.apply e, status := s.status.succeeded e.found, phase := .idle }

/-- Error completion (60_exceptions.md R365): STATUS and the phase; no memory and no result CSR is written. -/
def State.failWith (s : State) (c : ErrorCode) : State :=
  { s with status := s.status.failed c, phase := .idle }

/-- The completion transition, given what the command's rule computed (60_exceptions.md R372). -/
def State.finish (s : State) : Except Stop Effects → Host.Outcome State Fault Refusal
  | .ok e => .next (s.succeedWith e)
  | .error (.error c) => .next (s.failWith c)
  | .error (.fault f) => .fault f

end Sys2Proof.Machine
end

