-- ==== Sys2Proof/Machine/Operands.lean ====
section
/-! DEFINITION. The operands of every command (30_encoding.md R111) with the checks its rule makes on them, in the priority order of 60_exceptions.md R366, and the memory ranges it accesses (20_memory.md R89). -/

namespace Sys2Proof.Machine

/-! ### Single operands -/

/-- The selected profile, or INVALID_DATA_RATE (40_rate_sizing.md R142, 60_exceptions.md R361). -/
def State.argProfile (s : State) : Except Stop RateProfile :=
  match profile s.snap.bw s.snap.rate with
  | some p => .ok p
  | none => .error (.error .invalidDataRate)

/-- PSDU_LEN, or PSDU_TOO_LARGE (60_exceptions.md R362). -/
def State.argPsduLen (s : State) : Except Stop Nat :=
  if s.params.maxPsdu < s.snap.psduLen.toNat then .error (.error .psduTooLarge) else .ok s.snap.psduLen.toNat

/-- STAGE_LEN, zero-extended (R111). -/
def State.stageBits (s : State) : Nat := s.snap.stageLen.toNat

/-- The number of samples a scan reads: DET_LEN clamped to the memory (48_frame_detector.md R342). -/
def State.scanLen (s : State) : Nat := min s.snap.detLen.toNat s.params.smpMemSamples

/-! ### The operands of each command, checked -/

/-- Operands of ENCODE_FRAME (47_frame.md R326). -/
def State.argsEncodeFrame (s : State) : Except Stop (RateProfile × Nat) := do
  let p ← s.argProfile
  let len ← s.argPsduLen
  require (decide (frameLen (sizing p len).nSym ≤ s.params.smpMemSamples)) .bufferSizeMismatch
  return (p, len)

/-- Operands of GEN_SIGNAL (46_preamble_signal.md R306) and FRAME_SIZING (40_rate_sizing.md R147). -/
def State.argsSizing (s : State) : Except Stop (RateProfile × Nat) := do
  let p ← s.argProfile
  let len ← s.argPsduLen
  return (p, len)

/-- Operands of BUILD_DATA_FIELD (41_scrambler.md R169). -/
def State.argsBuildDataField (s : State) : Except Stop (RateProfile × Nat) := do
  let p ← s.argProfile
  let len ← s.argPsduLen
  require (decide (dataFieldBytes (sizing p len) ≤ s.params.bitMemBytes)) .bufferSizeMismatch
  return (p, len)

/-- Operand of SCRAMBLE (41_scrambler.md R168): N. -/
def State.argsScramble (s : State) : Except Stop Nat := do
  require (decide (s.stageBits ≤ 8 * s.params.inMemBytes) && decide (s.stageBits ≤ 8 * s.params.bitMemBytes))
    .bufferSizeMismatch
  return s.stageBits

/-- Operand of CONV_ENCODE (42_encoder_puncturer.md R198): N. -/
def State.argsConvEncode (s : State) : Except Stop Nat := do
  require (decide (s.stageBits ≤ 8 * s.params.inMemBytes) && decide (2 * s.stageBits ≤ 8 * s.params.bitMemBytes))
    .bufferSizeMismatch
  return s.stageBits

/-- The period whole numbers of which PUNCTURE accepts (42_encoder_puncturer.md R194, R199); any N at rate 1/2. -/
def CodingRate.period : CodingRate → Nat
  | .half => 1
  | .twoThirds => 4
  | .threeQuarters => 6

/-- Operands of PUNCTURE (42_encoder_puncturer.md R199): the profile and N. -/
def State.argsPuncture (s : State) : Except Stop (RateProfile × Nat) := do
  let p ← s.argProfile
  require (decide (s.stageBits ≤ 8 * s.params.inMemBytes)) .bufferSizeMismatch
  require (decide (s.stageBits % p.codingRate.period = 0)) .bufferSizeMismatch
  return (p, s.stageBits)

/-- Operands of INTERLEAVE and DEINTERLEAVE (43_interleaver.md R226, R227): the profile and N. -/
def State.argsInterleave (s : State) : Except Stop (RateProfile × Nat) := do
  let p ← s.argProfile
  require (decide (s.stageBits ≤ 8 * s.params.inMemBytes) && decide (s.stageBits % p.nCbps = 0)) .bufferSizeMismatch
  return (p, s.stageBits)

/-- Operand of MAP_SYMBOL (44_mapper.md R248) and MODULATE_SYMBOL (45_symbol_assembler.md R272). -/
def State.argsSymbol (s : State) : Except Stop RateProfile := do
  let p ← s.argProfile
  require (decide (s.stageBits = p.nCbps)) .bufferSizeMismatch
  return p

/-! ### Access ranges -/

/-- The number of bits PUNCTURE keeps of `n` (42_encoder_puncturer.md R196). -/
def puncturedLen (r : CodingRate) (n : Nat) : Nat :=
  match r with
  | .half => n
  | .twoThirds => 3 * (n / 4) + n % 4
  | .threeQuarters => 4 * (n / 6) + min (n % 6) 3

/-- The bytes `[0, bytes)` of a memory. -/
structure Extent where
  space : MemSpace
  bytes : Nat
  deriving DecidableEq, Repr

/-- Whether a byte lies in an extent. -/
def Extent.holds (e : Extent) (sp : MemSpace) (k : Nat) : Bool := decide (e.space = sp) && decide (k < e.bytes)

/-- The bytes of IN_MEM that hold the first `n` stream bits. -/
def Extent.inBits (n : Nat) : Extent := ⟨.inMem, ceilDiv n 8⟩

/-- The bytes of BIT_MEM that hold the first `n` stream bits. -/
def Extent.outBits (n : Nat) : Extent := ⟨.bitMem, ceilDiv n 8⟩

/-- The bytes of the first `n` samples. -/
def Extent.samples (n : Nat) : Extent := ⟨.smpMem, 16 * n⟩

/-- The input range of a command (20_memory.md R89), from its snapshot; `none` where it reads no memory. It is what R89 lists,
whether or not the command will end with an error (log 15). -/
def State.inputRange (s : State) (i : Instr) : Option Extent :=
  match i with
  | .nop | .frameSizing | .genPreamble | .genSignal => none
  | .encodeFrame | .buildDataField => some ⟨.inMem, s.snap.psduLen.toNat⟩
  | .scramble | .convEncode | .puncture | .interleave | .deinterleave => some (.inBits s.stageBits)
  | .mapSymbol | .modulateSymbol => (profile s.snap.bw s.snap.rate).map fun p => .inBits p.nCbps
  | .detectShort | .detectLong => some (.samples s.scanLen)

/-- The extent that checked operands give; none where the checks raise an error: "A command that ends with an error writes no
memory" (20_memory.md R89). -/
def extentOf {α : Type} (r : Except Stop α) (f : α → Extent) : Option Extent :=
  match r with
  | .ok a => some (f a)
  | .error _ => none

/-- The output range of a command (20_memory.md R89), from its snapshot; `none` where it writes no memory. -/
def State.outputRange (s : State) (i : Instr) : Option Extent :=
  match i with
  | .nop | .frameSizing | .detectShort | .detectLong => none
  | .encodeFrame => extentOf s.argsEncodeFrame fun (p, len) => .samples (frameLen (sizing p len).nSym)
  | .genPreamble => some (.samples 322)
  | .genSignal => extentOf s.argsSizing fun _ => .samples 81
  | .scramble => extentOf s.argsScramble fun n => .outBits n
  | .buildDataField => extentOf s.argsBuildDataField fun (p, len) => .outBits (sizing p len).nData
  | .convEncode => extentOf s.argsConvEncode fun n => .outBits (2 * n)
  | .puncture => extentOf s.argsPuncture fun (p, n) => .outBits (puncturedLen p.codingRate n)
  | .interleave | .deinterleave => extentOf s.argsInterleave fun (_, n) => .outBits n
  | .mapSymbol => extentOf s.argsSymbol fun _ => .samples 48
  | .modulateSymbol => extentOf s.argsSymbol fun _ => .samples 81

/-- The command in progress, if the block is BUSY and the word it latched is legal (60_exceptions.md R370, R372). -/
def State.running (s : State) : Option Instr :=
  match s.phase with
  | .idle => none
  | .busy => (decode s.params.hasDetector s.cmd).toOption

/-- Whether a byte is in an optional extent. -/
def inExtent (e : Option Extent) (sp : MemSpace) (k : Nat) : Bool :=
  match e with
  | some x => x.holds sp k
  | none => false

/-- The byte is in the running command's output range (R405). -/
def State.inRunningOutput (s : State) (sp : MemSpace) (k : Nat) : Bool :=
  match s.running with
  | some i => inExtent (s.outputRange i) sp k
  | none => false

/-- The byte is in the running command's input or output range (R404). -/
def State.inRunningRange (s : State) (sp : MemSpace) (k : Nat) : Bool :=
  match s.running with
  | some i => inExtent (s.inputRange i) sp k || inExtent (s.outputRange i) sp k
  | none => false

end Sys2Proof.Machine
end

