-- ==== Sys2Proof/Machine/Encoder.lean ====
section
/-! DEFINITION. The convolutional encoder and the puncturer (42_encoder_puncturer.md R190 to R197), CONV_ENCODE (R198) and PUNCTURE (R199). -/

namespace Sys2Proof.Machine

/-- The encoder register after one input bit: it shifts right and the bit enters at bit 6 (R191). -/
def encNext (r : BitVec 7) (b : Bool) : BitVec 7 := (r >>> 1) ||| ((BitVec.ofBool b).setWidth 7 <<< 6)

/-- The two output bits for a register value: the parities under g0 = 0x5B and g1 = 0x79 (R190, R191). -/
def encOut (r : BitVec 7) : List Bool := [parity7 (r &&& 0x5B#7), parity7 (r &&& 0x79#7)]

/-- Encoding from a register value (R193). -/
def convEncodeFrom (r : BitVec 7) : List Bool → List Bool
  | [] => []
  | b :: v => encOut (encNext r b) ++ convEncodeFrom (encNext r b) v

/-- `conv_encode` of R193: the register starts at 0 (R192). -/
def convEncode (v : List Bool) : List Bool := convEncodeFrom 0 v

/-- The positions within a period that are dropped (R194). -/
def CodingRate.drops : CodingRate → Nat → Bool
  | .half, _ => false
  | .twoThirds, i => i == 3
  | .threeQuarters, i => i == 3 || i == 4

/-- Puncturing from stream index `i` on (R195): the phase is the index modulo the period. -/
def punctureFrom (r : CodingRate) : Nat → List Bool → List Bool
  | _, [] => []
  | i, b :: c => if r.drops (i % r.period) then punctureFrom r (i + 1) c else b :: punctureFrom r (i + 1) c

/-- `puncture(c, R)` of R195: the phase starts at 0 and is never restarted. -/
def puncture (r : CodingRate) (c : List Bool) : List Bool := punctureFrom r 0 c

/-- The outputs of CONV_ENCODE (R198). -/
def runConvEncode (s : State) : Except Stop Effects := do
  let n ← s.argsConvEncode
  let v ← s.engineBits 0 n
  return Effects.ofBits (convEncode v)

/-- CONV_ENCODE (R198). -/
def execConvEncode (s : State) : Host.Outcome State Fault Refusal := s.finish (runConvEncode s)

/-- The outputs of PUNCTURE (R199). -/
def runPuncture (s : State) : Except Stop Effects := do
  let (p, n) ← s.argsPuncture
  let v ← s.engineBits 0 n
  return Effects.ofBits (puncture p.codingRate v)

/-- PUNCTURE (R199). -/
def execPuncture (s : State) : Host.Outcome State Fault Refusal := s.finish (runPuncture s)

end Sys2Proof.Machine
end

