-- ==== Sys2Proof/Machine/Interleaver.lean ====
section
/-! DEFINITION. The bit interleaver (43_interleaver.md R220 to R225), INTERLEAVE (R226) and DEINTERLEAVE (R227). -/

namespace Sys2Proof.Machine

/-- The first permutation of R221. -/
def permFirst (nCbps k : Nat) : Nat := (nCbps / 16) * (k % 16) + k / 16

/-- `s = max(n_bpsc/2, 1)` of R221. -/
def permStep (nBpsc : Nat) : Nat := max (nBpsc / 2) 1

/-- The second permutation of R221. -/
def permSecond (nCbps nBpsc i : Nat) : Nat :=
  let s := permStep nBpsc
  s * (i / s) + (i + nCbps - 16 * i / nCbps) % s

/-- `perm(n_cbps, n_bpsc)(k)` of R221. -/
def perm (nCbps nBpsc k : Nat) : Nat := permSecond nCbps nBpsc (permFirst nCbps k)

/-- One block interleaved (R222): "The bit at input position k moves to output position j". -/
def interleaveBlock (nCbps nBpsc : Nat) (c : List Bool) : List Bool :=
  (List.range nCbps).foldl (fun out k => out.set (perm nCbps nBpsc k) (c.getD k false)) (List.replicate nCbps false)

/-- One block deinterleaved (R224). -/
def deinterleaveBlock (nCbps nBpsc : Nat) (y : List Bool) : List Bool :=
  (List.range nCbps).map fun k => y.getD (perm nCbps nBpsc k) false

/-- `interleave` of R222: each block of `n_cbps` bits on its own (R220). -/
def interleave (nCbps nBpsc : Nat) (c : List Bool) : List Bool :=
  (blocks nCbps (c.length / nCbps) c).flatMap (interleaveBlock nCbps nBpsc)

/-- `deinterleave` of R224. -/
def deinterleave (nCbps nBpsc : Nat) (y : List Bool) : List Bool :=
  (blocks nCbps (y.length / nCbps) y).flatMap (deinterleaveBlock nCbps nBpsc)

/-- The outputs of INTERLEAVE (R226). -/
def runInterleave (s : State) : Except Stop Effects := do
  let (p, n) ← s.argsInterleave
  let v ← s.engineBits 0 n
  return Effects.ofBits (interleave p.nCbps p.nBpsc v)

/-- INTERLEAVE (R226). -/
def execInterleave (s : State) : Host.Outcome State Fault Refusal := s.finish (runInterleave s)

/-- The outputs of DEINTERLEAVE (R227). -/
def runDeinterleave (s : State) : Except Stop Effects := do
  let (p, n) ← s.argsInterleave
  let v ← s.engineBits 0 n
  return Effects.ofBits (deinterleave p.nCbps p.nBpsc v)

/-- DEINTERLEAVE (R227). -/
def execDeinterleave (s : State) : Host.Outcome State Fault Refusal := s.finish (runDeinterleave s)

end Sys2Proof.Machine
end

