-- ==== Sys2Proof/Machine/Float64.lean ====
section
/-! DEFINITION. The binary64 operations the rules name (00_scope.md R16): addition, multiplication by 0.5, the exact conversion from binary32, and comparison with a threshold. -/

namespace Sys2Proof.Machine

/-- The biased exponent field. -/
def f64Exp (x : F64) : Nat := (x.extractLsb' 52 11).toNat

/-- The fraction field. -/
def f64Frac (x : F64) : Nat := (x.extractLsb' 0 52).toNat

/-- The sign bit. -/
def f64Neg (x : F64) : Bool := x.getLsbD 63

/-- The value is a NaN. -/
def f64IsNaN (x : F64) : Bool := decide (f64Exp x = 2047) && decide (f64Frac x ≠ 0)

/-- The value is an infinity. -/
def f64IsInf (x : F64) : Bool := decide (f64Exp x = 2047) && decide (f64Frac x = 0)

/-- The value is finite. -/
def f64IsFinite (x : F64) : Bool := decide (f64Exp x ≠ 2047)

/-- The magnitude of a finite value, in units of 2^-1074. -/
def f64Mag (x : F64) : Nat :=
  if f64Exp x = 0 then f64Frac x else (2 ^ 52 + f64Frac x) * 2 ^ (f64Exp x - 1)

/-- A finite value, in units of 2^-1074. -/
def f64Scaled (x : F64) : Int := if f64Neg x then -(f64Mag x : Int) else (f64Mag x : Int)

/-- The value of a finite binary64 as a rational. -/
def f64ToRat (x : F64) : Rat := (f64Scaled x : Rat) / 2 ^ 1074

/-- `m / 2^sh` rounded to the nearest integer, ties to even; `sh` at least 1. -/
def roundHalfEven (m sh : Nat) : Nat :=
  let q := m / 2 ^ sh
  let r := m % 2 ^ sh
  if 2 ^ (sh - 1) < r ∨ (r = 2 ^ (sh - 1) ∧ q % 2 = 1) then q + 1 else q

/-- The binary64 nearest to `m` units of 2^-1075, ties to even, with a given sign; overflow gives an infinity. A significand
that rounds up to 2^53 carries into the exponent field, and a subnormal result has exponent field 0. -/
def f64Round (neg : Bool) (m : Nat) : F64 :=
  let sh := max 1 (m.log2 + 1 - 53)
  let pattern := min ((sh - 1) * 2 ^ 52 + roundHalfEven m sh) (2047 * 2 ^ 52)
  BitVec.ofNat 64 (pattern + if neg then 2 ^ 63 else 0)

/-- A quiet NaN whose sign and payload the spec does not give (log 12). -/
def f64NaN (a b : F64) : F64 :=
  let n := Config.nanBits a b
  BitVec.ofBool n.1 ++ 0x7FF#11 ++ 1#1 ++ n.2

/-- The infinity of a given sign. -/
def f64Inf (neg : Bool) : F64 := if neg then 0xFFF0000000000000#64 else 0x7FF0000000000000#64

/-- The zero of a given sign. -/
def f64Zero (neg : Bool) : F64 := if neg then 0x8000000000000000#64 else 0#64

/-- binary64 addition, round to nearest even (R16). -/
def f64Add (a b : F64) : F64 :=
  if f64IsNaN a || f64IsNaN b then f64NaN a b
  else if f64IsInf a then (if f64IsInf b && (f64Neg a != f64Neg b) then f64NaN a b else a)
  else if f64IsInf b then b
  else
    let v := f64Scaled a + f64Scaled b
    if v = 0 then f64Zero (f64Neg a && f64Neg b)
    else f64Round (decide (v < 0)) (2 * v.natAbs)

/-- binary64 multiplication by 0.5, round to nearest even (45_symbol_assembler.md R268). -/
def f64Half (a : F64) : F64 :=
  if f64IsNaN a then f64NaN 0x3FE0000000000000#64 a
  else if f64IsInf a then a
  else f64Round (f64Neg a) (f64Mag a)

/-- Component-wise addition (R16, 47_frame.md R322). -/
def C64.add (a b : C64) : C64 := ⟨f64Add a.re b.re, f64Add a.im b.im⟩

/-- Component-wise multiplication by 0.5 (45_symbol_assembler.md R268). -/
def C64.half (a : C64) : C64 := ⟨f64Half a.re, f64Half a.im⟩

/-- The exact conversion of a binary32 pattern to binary64 (10_state.md R48). -/
def f32ToF64 (x : BitVec 32) : F64 :=
  let neg := x.getLsbD 31
  let e := (x.extractLsb' 23 8).toNat
  let f := (x.extractLsb' 0 23).toNat
  if e = 255 then
    if f = 0 then f64Inf neg else BitVec.ofBool neg ++ 0x7FF#11 ++ 1#1 ++ x.extractLsb' 0 22 ++ 0#29
  else
    -- a finite binary32 is a multiple of 2^-149, that is of 2^926 units of 2^-1075
    let m := if e = 0 then f else (2 ^ 23 + f) * 2 ^ (e - 1)
    f64Round neg (m * 2 ^ 926)

/-- `metric > threshold`, strictly, for a metric that is defined; false for a NaN threshold (48_frame_detector.md R344, R347). -/
def exceeds (metric : Rat) (thr : F64) : Bool :=
  if f64IsNaN thr then false
  else if f64IsInf thr then f64Neg thr
  else decide (f64ToRat thr < metric)

end Sys2Proof.Machine
end

