-- ==== Sys2Proof/Machine/Arith.lean ====
section
/-! DEFINITION. The sample arithmetic the rules use, and the hardware's instance of it. The same rules over the exact complex numbers are what 45_symbol_assembler.md R266 compares the hardware with (Safety.lean). -/

namespace Sys2Proof.Machine

/-- What the sample rules compute with. The rules of files 44 to 47 are written once over it: with C64 it is the hardware, with
the complex numbers it is "exact arithmetic over C" (R266). -/
structure Arith (α : Type) where
  /-- The value 0. -/
  zero  : α
  /-- The constellation value `(i + q j) * K_MOD` of a modulation (44_mapper.md R242 to R245). -/
  point : Modulation → Int → Int → α
  /-- The short-training value `sqrt(13/6) * (i + q j)` (46_preamble_signal.md R291). -/
  short : Int → Int → α
  /-- Sum (47_frame.md R322). -/
  add   : α → α → α
  /-- Multiplication by 0.5 (45_symbol_assembler.md R268). -/
  half  : α → α
  /-- The normalised 64-point inverse transform (R265, R266). -/
  ifft  : Vector α 64 → Vector α 64

/-- The magnitude `|level| * K_MOD` as the binary64 nearest to it: the table of 44_mapper.md R246. A level the modulation does
not have gives +0.0. -/
def pointMag : Modulation → Nat → F64
  | .bpsk,  1 => 0x3FF0000000000000#64
  | .qpsk,  1 => 0x3FE6A09E667F3BCD#64
  | .qam16, 1 => 0x3FD43D136248490F#64
  | .qam16, 3 => 0x3FEE5B9D136C6D96#64
  | .qam64, 1 => 0x3FC3C03650E00E03#64
  | .qam64, 3 => 0x3FDDA05179501504#64
  | .qam64, 5 => 0x3FE8B043E5181184#64
  | .qam64, 7 => 0x3FF1482F86C40C43#64
  | _, _ => 0#64

/-- `m` with the sign bit set for a negative level: "the same value with the sign bit set" (R246). -/
def signed (level : Int) (m : F64) : F64 := if level < 0 then m ||| 0x8000000000000000#64 else m

/-- `fl(sqrt(13/6))` (46_preamble_signal.md R291). -/
def sqrt13over6 : F64 := 0x3FF78D26149296AF#64

/-- One component of the short-training pattern: +-fl(sqrt(13/6)), or +0.0 (R291). -/
def shortComponent (v : Int) : F64 := if v = 0 then 0#64 else signed v sqrt13over6

/-- The hardware's arithmetic: binary64 tables and operations, and IFFT64N. -/
def hw : Arith C64 :=
  { zero := C64.zero
    point := fun m i q => ⟨signed i (pointMag m i.natAbs), signed q (pointMag m q.natAbs)⟩
    short := fun i q => ⟨shortComponent i, shortComponent q⟩
    add := C64.add
    half := C64.half
    ifft := Config.ifft64n }

end Sys2Proof.Machine
end

