-- ==== Sys2Proof/Machine/Mapper.lean ====
section
/-! DEFINITION. The constellation mapper (44_mapper.md R240 to R247) and MAP_SYMBOL (R248). -/

namespace Sys2Proof.Machine

/-- The level of a half-chunk's value (R242 to R245). A value no half of the modulation has gives 0. -/
def level : Modulation → Nat → Int
  | .bpsk, 0 => -1
  | .bpsk, 1 => 1
  | .qpsk, 0 => -1
  | .qpsk, 1 => 1
  | .qam16, 0 => -3
  | .qam16, 1 => -1
  | .qam16, 2 => 3
  | .qam16, 3 => 1
  | .qam64, 0 => -7
  | .qam64, 1 => -5
  | .qam64, 2 => -1
  | .qam64, 3 => -3
  | .qam64, 4 => 7
  | .qam64, 5 => 5
  | .qam64, 6 => 1
  | .qam64, 7 => 3
  | _, _ => 0

/-- The size of a half: `max(n_bpsc/2, 1)` (R241). -/
def halfSize (nBpsc : Nat) : Nat := max (nBpsc / 2) 1

/-- The level of the I half of chunk m (R241). -/
def levelI (p : RateProfile) (block : List Bool) (m : Nat) : Int :=
  level p.modulation (groupMsb block (m * p.nBpsc) (halfSize p.nBpsc))

/-- The level of the Q half of chunk m; BPSK's Q is fixed at 0 (R241, R242). -/
def levelQ (p : RateProfile) (block : List Bool) (m : Nat) : Int :=
  match p.modulation with
  | .bpsk => 0
  | _ => level p.modulation (groupMsb block (m * p.nBpsc + halfSize p.nBpsc) (halfSize p.nBpsc))

/-- `map_block` of R247: the 48 data values of one block. -/
def mapBlock {α : Type} (A : Arith α) (p : RateProfile) (block : List Bool) : List α :=
  (List.range 48).map fun m => A.point p.modulation (levelI p block m) (levelQ p block m)

/-- The outputs of MAP_SYMBOL (R248). -/
def runMapSymbol (s : State) : Except Stop Effects := do
  let p ← s.argsSymbol
  let block ← s.engineBits 0 p.nCbps
  return Effects.ofSamples (mapBlock hw p block)

/-- MAP_SYMBOL (R248). -/
def execMapSymbol (s : State) : Host.Outcome State Fault Refusal := s.finish (runMapSymbol s)

end Sys2Proof.Machine
end

