-- ==== Sys2Proof/Machine/Symbol.lean ====
section
/-! DEFINITION. The OFDM symbol assembler (45_symbol_assembler.md R260 to R269) and MODULATE_SYMBOL (R272). -/

namespace Sys2Proof.Machine

/-- DSLOT of R261: the slot of each of the 48 data values. -/
def dataSlots : List Nat :=
  [0, 1, 2, 3, 4] ++
  [6, 7, 8, 9, 10, 11, 12, 13, 14, 15, 16, 17, 18] ++
  [20, 21, 22, 23, 24, 25] ++
  [27, 28, 29, 30, 31, 32] ++
  [34, 35, 36, 37, 38, 39, 40, 41, 42, 43, 44, 45, 46] ++
  [48, 49, 50, 51, 52]

/-- POL of R262, the pilot polarity sequence. -/
def polTable : List Int :=
  [ 1,  1,  1,  1, -1, -1, -1,  1, -1, -1, -1, -1,  1,  1, -1,  1] ++
  [-1, -1,  1,  1, -1,  1,  1, -1,  1,  1,  1,  1,  1,  1, -1,  1] ++
  [ 1,  1, -1,  1,  1, -1, -1,  1,  1,  1, -1,  1, -1, -1, -1,  1] ++
  [-1,  1, -1, -1,  1, -1, -1,  1,  1,  1,  1,  1, -1, -1,  1,  1] ++
  [-1, -1,  1, -1,  1, -1,  1,  1, -1, -1, -1,  1,  1, -1, -1, -1] ++
  [-1,  1, -1, -1,  1, -1,  1,  1,  1,  1, -1,  1, -1,  1, -1,  1] ++
  [-1, -1, -1, -1, -1,  1, -1,  1,  1, -1,  1, -1,  1,  1,  1, -1] ++
  [-1,  1, -1, -1, -1,  1,  1,  1, -1, -1, -1, -1, -1, -1, -1]

/-- The pilot polarity of a symbol index: POL[idx mod 127] (R263). -/
def polarity (idx : Nat) : Int := polTable.getD (idx % 127) 1

/-- The data values in their slots of an all-zero 53-tone array (R260, R261, R263). -/
def placeData {α : Type} (A : Arith α) (d : List α) : List α :=
  (dataSlots.zip d).foldl (fun a x => a.set x.1 x.2) (List.replicate 53 A.zero)

/-- `assemble53` of R263: data, the four pilots, and the null at DC. A pilot +-1 is a BPSK point. -/
def assemble53 {α : Type} (A : Arith α) (d : List α) (idx : Nat) : List α :=
  let p := polarity idx
  (((((placeData A d).set 5 (A.point .bpsk p 0)).set 19 (A.point .bpsk p 0)).set 33 (A.point .bpsk p 0)).set 47
    (A.point .bpsk (-p) 0)).set 26 A.zero

/-- `spectrum64` of R264: the 53 tones on the 64 bins. -/
def spectrum64 {α : Type} (A : Arith α) (a : List α) : Vector α 64 :=
  Vector.ofFn fun b : Fin 64 =>
    if b.val = 0 then A.zero
    else if b.val ≤ 26 then a.getD (b.val + 26) A.zero
    else if b.val ≤ 37 then A.zero
    else a.getD (b.val - 38) A.zero

/-- Sample `(n - cp) mod 64` of a 64-sample period, for a prefix of `cp` samples (R267). -/
def periodAt {α : Type} (x : Vector α 64) (cp n : Nat) : α :=
  x.get ⟨(n + (64 - cp % 64)) % 64, Nat.mod_lt _ (by decide)⟩

/-- `extend` of R267: the periodic extension with prefix length `cp` and total length `len`. -/
def extend {α : Type} (x : Vector α 64) (cp len : Nat) : List α := (List.range len).map (periodAt x cp)

/-- `window` of R268: the first and the last sample multiplied by 0.5. -/
def window {α : Type} (A : Arith α) (w : List α) : List α := (w.modify 0 A.half).modify (w.length - 1) A.half

/-- `ofdm_symbol` of R269: the 81 samples of a data or SIGNAL symbol. -/
def ofdmSymbol {α : Type} (A : Arith α) (d : List α) (idx : Nat) : List α :=
  window A (extend (A.ifft (spectrum64 A (assemble53 A d idx))) 16 81)

/-- The outputs of MODULATE_SYMBOL (R272). -/
def runModulateSymbol (s : State) : Except Stop Effects := do
  let p ← s.argsSymbol
  let block ← s.engineBits 0 p.nCbps
  return Effects.ofSamples (ofdmSymbol hw (mapBlock hw p block) s.snap.symIndex.toNat)

/-- MODULATE_SYMBOL (R272). -/
def execModulateSymbol (s : State) : Host.Outcome State Fault Refusal := s.finish (runModulateSymbol s)

end Sys2Proof.Machine
end

