-- ==== Sys2Proof/Machine/Preamble.lean ====
section
/-! DEFINITION. The training preamble and the SIGNAL field (46_preamble_signal.md R290 to R304), GEN_PREAMBLE (R305) and GEN_SIGNAL (R306). -/

namespace Sys2Proof.Machine

/-- The sign of `1 + j` in each slot of S0 (R291): 1 stands for 1+j, -1 for -1-j. The rule's listing has one 0 too many after
slot 26; the slots here are those its own sentence names: 2, 6, ..., 22 and 30, 34, ..., 50, every fourth tone (log 22). -/
def shortPattern : List Int :=
  [0, 0, 1, 0, 0, 0, -1, 0, 0, 0, 1, 0, 0] ++
  [0, -1, 0, 0, 0, -1, 0, 0, 0, 1, 0, 0, 0] ++
  [0] ++
  [0, 0, 0, -1, 0, 0, 0, -1, 0, 0, 0, 1, 0] ++
  [0, 0, 1, 0, 0, 0, 1, 0, 0, 0, 1, 0, 0]

/-- The long-training pattern L (R293). -/
def longPattern : List Int :=
  [1, 1, -1, -1, 1, 1, -1, 1, -1, 1, 1, 1, 1] ++
  [1, 1, -1, -1, 1, 1, -1, 1, -1, 1, 1, 1, 1] ++
  [0] ++
  [1, -1, -1, 1, 1, -1, 1, -1, 1, -1, -1, -1, -1] ++
  [-1, 1, 1, -1, -1, 1, -1, 1, -1, 1, 1, 1, 1]

/-- The 64-sample short-training period x_S (R292). -/
def shortPeriod {α : Type} (A : Arith α) : Vector α 64 :=
  A.ifft (spectrum64 A (shortPattern.map fun v => A.short v v))

/-- The 64-sample long-training period x_L (R294). -/
def longPeriod {α : Type} (A : Arith α) : Vector α 64 :=
  A.ifft (spectrum64 A (longPattern.map fun v => A.point .bpsk v 0))

/-- SHORT of R292: 161 samples. -/
def shortTraining {α : Type} (A : Arith α) : List α := window A (extend (shortPeriod A) 0 161)

/-- LONG of R294: 161 samples. -/
def longTraining {α : Type} (A : Arith α) : List α := window A (extend (longPeriod A) 32 161)

/-- The low `n` bits of a value, LSB first (R301). -/
def bitsLsbFirst (n v : Nat) : List Bool := (List.range n).map fun t => v.testBit t

/-- F[0..16] of R301: rate code, reserved 0, LENGTH. -/
def signalHead (p : RateProfile) (len : Nat) : List Bool :=
  bitsLsbFirst 4 p.rateCode.toNat ++ [false] ++ bitsLsbFirst 12 len

/-- `signal_bits` of R301: the head, its even parity, and six tail zeros. -/
def signalBits (p : RateProfile) (len : Nat) : List Bool :=
  signalHead p len ++ [(signalHead p len).foldl (fun a b => a ^^ b) false] ++ List.replicate 6 false

/-- `signal_coded` of R302. -/
def signalCoded (p : RateProfile) (len : Nat) : List Bool := interleave 48 1 (convEncode (signalBits p len))

/-- `signal_symbol` of R302: BPSK, symbol index 0. -/
def signalSymbol {α : Type} (A : Arith α) (p : RateProfile) (len : Nat) : List α :=
  ofdmSymbol A (mapBlock A signalProfile (signalCoded p len)) 0

/-- The outputs of GEN_PREAMBLE (R305): SHORT then LONG, back to back. -/
def runGenPreamble : Except Stop Effects := .ok (Effects.ofSamples (shortTraining hw ++ longTraining hw))

/-- GEN_PREAMBLE (R305). -/
def execGenPreamble (s : State) : Host.Outcome State Fault Refusal := s.finish runGenPreamble

/-- The outputs of GEN_SIGNAL (R306). -/
def runGenSignal (s : State) : Except Stop Effects := do
  let (p, len) ← s.argsSizing
  return Effects.ofSamples (signalSymbol hw p len)

/-- GEN_SIGNAL (R306). -/
def execGenSignal (s : State) : Host.Outcome State Fault Refusal := s.finish (runGenSignal s)

end Sys2Proof.Machine
end

