-- ==== Sys2Proof/Machine/Detector.lean ====
section
/-! DEFINITION. The frame detector (48_frame_detector.md R340 to R349), DETECT_SHORT (R350) and DETECT_LONG (R351). -/

namespace Sys2Proof.Machine

/-- The reset value of DET_THR_SHORT as a rational (10_state.md R48). -/
def resetThreshold : Rat := f64ToRat (f32ToF64 0x3F99999A#32)

/-- SHORT_METRIC(r, n) of R343, with its three properties. It sees only r[0 .. n+47] (property 1) and is a function
(property 2). On the ideal input of property 3 its value is made to exceed the reset threshold, whatever the free metric
says; elsewhere it is the free metric (log 10). -/
def shortMetric (r : List C64) (n : Nat) : Option Rat :=
  let seen := r.take (n + 48)
  let free := Config.shortMetricFree seen n
  if n = 0 ∧ seen = (shortTraining hw).take 48 then
    match free with
    | some m => some (if resetThreshold < m then m else resetThreshold + 1)
    | none => some (resetThreshold + 1)
  else free

/-- LONG_METRIC(r, n) of R346: it sees only r[n .. n+63] and x_L (property 1). -/
def longMetric (r : List C64) (n : Nat) : Option Rat := Config.longMetric ((r.drop n).take 64) (longPeriod hw)

/-- A position qualifies when its metric is defined and strictly exceeds the threshold (R344, R347). -/
def qualifies (metric : Option Rat) (thr : F64) : Bool :=
  match metric with
  | some m => exceeds m thr
  | none => false

/-- The first qualifying position of `k` candidates from position `n` on. -/
def scanFrom (q : Nat → Bool) : Nat → Nat → Option Nat
  | 0, _ => none
  | k + 1, n => if q n then some n else scanFrom q k (n + 1)

/-- How many positions a scan tests: those whose window fits, at most MAX of them unless MAX is 0 (R345, R348, R349). -/
def candidates (windowLen n maxScan : Nat) : Nat :=
  let fit := n + 1 - windowLen
  if maxScan = 0 then fit else min fit maxScan

/-- `short_scan` of R345. -/
def shortScan (r : List C64) (maxScan : Nat) (thr : F64) : Option Nat :=
  scanFrom (fun n => qualifies (shortMetric r n) thr) (candidates 48 r.length maxScan) 0

/-- `long_scan` of R348. -/
def longScan (r : List C64) (maxScan : Nat) (thr : F64) : Option Nat :=
  scanFrom (fun n => qualifies (longMetric r n) thr) (candidates 64 r.length maxScan) 0

/-- The scanned buffer of R342. A buffer shorter than one window is not read, since no position is tested (R349, log 14). -/
def State.scanBuffer (s : State) (windowLen : Nat) : Except Stop (List C64) :=
  if s.scanLen < windowLen then .ok [] else s.engineSamples 0 s.scanLen

/-- The outputs of a scan: DET_INDEX and FOUND (R350). -/
def Effects.ofScan (res : Option Nat) : Effects := { Effects.nothing with detection := some res }

/-- The outputs of DETECT_SHORT (R350). -/
def runDetectShort (s : State) : Except Stop Effects := do
  let r ← s.scanBuffer 48
  return Effects.ofScan (shortScan r s.snap.detMaxScan.toNat (f32ToF64 s.snap.detThrShort))

/-- DETECT_SHORT (R350). -/
def execDetectShort (s : State) : Host.Outcome State Fault Refusal := s.finish (runDetectShort s)

/-- The outputs of DETECT_LONG (R351). -/
def runDetectLong (s : State) : Except Stop Effects := do
  let r ← s.scanBuffer 64
  return Effects.ofScan (longScan r s.snap.detMaxScan.toNat (f32ToF64 s.snap.detThrLong))

/-- DETECT_LONG (R351). -/
def execDetectLong (s : State) : Host.Outcome State Fault Refusal := s.finish (runDetectLong s)

end Sys2Proof.Machine
end

