-- ==== Sys2Proof/Machine/Sizing.lean ====
section
/-! DEFINITION. FRAME_SIZING (40_rate_sizing.md R147). -/

namespace Sys2Proof.Machine

/-- The sizing CSRs of a profile and a PSDU length, for the snapshot's bandwidth class (R144, R145). -/
def State.sizingResult (s : State) (p : RateProfile) (len : Nat) : SizingResult :=
  { sizing := sizing p len, txTime := txTime (sizing p len).nSym s.snap.bw }

/-- The outputs of FRAME_SIZING: the sizing CSRs alone; OUT_LEN is unchanged (R147). -/
def runFrameSizing (s : State) : Except Stop Effects := do
  let (p, len) ← s.argsSizing
  return { Effects.nothing with sizing := some (s.sizingResult p len) }

/-- FRAME_SIZING (R147). -/
def execFrameSizing (s : State) : Host.Outcome State Fault Refusal := s.finish (runFrameSizing s)

end Sys2Proof.Machine
end

