-- ==== Sys2Proof/Machine/Scrambler.lean ====
section
/-! DEFINITION. The scrambler and the data field (41_scrambler.md R160 to R167), SCRAMBLE (R168) and BUILD_DATA_FIELD (R169). -/

namespace Sys2Proof.Machine

/-- The feedback bit of a scrambler state: bit 3 XOR bit 6 (R160). -/
def scrFeedback (s : BitVec 7) : Bool := s.getLsbD 3 ^^ s.getLsbD 6

/-- The next scrambler state: the register shifts left and the feedback enters at bit 0 (R160). -/
def scrNext (s : BitVec 7) : BitVec 7 := (s <<< 1) ||| (BitVec.ofBool (scrFeedback s)).setWidth 7

/-- `scramble(v, seed)` of R161: each bit XORed with the feedback, the state carried from bit to bit. -/
def scramble (s : BitVec 7) : List Bool → List Bool
  | [] => []
  | b :: v => (b ^^ scrFeedback s) :: scramble (scrNext s) v

/-- The eight bits of one octet in data-field order (R163): LSB first, or MSB first under PSDU_MSB_FIRST. -/
def octetBits (msbFirst : Bool) (b : Byte) : List Bool :=
  (List.range 8).map fun t => if msbFirst then b.getLsbD (7 - t) else b.getLsbD t

/-- `psdu_bits` of R163. -/
def psduBits (msbFirst : Bool) (psdu : List Byte) : List Bool := psdu.flatMap (octetBits msbFirst)

/-- `n` zero bits (00_scope.md R13). -/
def zeros (n : Nat) : List Bool := List.replicate n false

/-- The unscrambled data field D of R164: SERVICE, PSDU, TAIL and PAD. -/
def rawDataField (msbFirst : Bool) (psdu : List Byte) (nPad : Nat) : List Bool :=
  zeros 16 ++ psduBits msbFirst psdu ++ zeros 6 ++ zeros nPad

/-- `tail_reset` of R166: the six bits from offset `n_data - n_pad - 6` become 0. -/
def tailReset (v : List Bool) (nData nPad : Nat) : List Bool :=
  (List.range 6).foldl (fun t k => t.set (nData - nPad - 6 + k) false) v

/-- `data_field` of R167: the scrambled data field with its tail reset. -/
def dataField (p : RateProfile) (seed : BitVec 7) (msbFirst : Bool) (psdu : List Byte) : List Bool :=
  let z := sizing p psdu.length
  tailReset (scramble seed (rawDataField msbFirst psdu z.nPad)) z.nData z.nPad

/-- The outputs of SCRAMBLE (R168). -/
def runScramble (s : State) : Except Stop Effects := do
  let n ← s.argsScramble
  let v ← s.engineBits 0 n
  return Effects.ofBits (scramble s.snap.seed v)

/-- SCRAMBLE (R168). -/
def execScramble (s : State) : Host.Outcome State Fault Refusal := s.finish (runScramble s)

/-- The outputs of BUILD_DATA_FIELD (R169). -/
def runBuildDataField (s : State) : Except Stop Effects := do
  let (p, len) ← s.argsBuildDataField
  let psdu ← s.engineBytes .inMem 0 len
  return { Effects.ofBits (dataField p s.snap.seed s.snap.psduMsbFirst psdu) with
           sizing := some (s.sizingResult p len) }

/-- BUILD_DATA_FIELD (R169). -/
def execBuildDataField (s : State) : Host.Outcome State Fault Refusal := s.finish (runBuildDataField s)

end Sys2Proof.Machine
end

