-- ==== Sys2Proof/Machine/Frame.lean ====
section
/-! DEFINITION. Frame assembly (47_frame.md R320 to R325), ENCODE_FRAME (R326) and NOP (R328). -/

namespace Sys2Proof.Machine

/-- The overlap-sum of a waveform into the output at an offset (R322). -/
def addAt {α : Type} (A : Arith α) (out : List α) (off : Nat) (w : List α) : List α :=
  out.take off ++ List.zipWith A.add (out.drop off) w ++ out.drop (off + w.length)

/-- The data symbols m, m+1, ..., each summed in at offset `(5 + m) * 80` (R320, R322). -/
def addSymbols {α : Type} (A : Arith α) (out : List α) (m : Nat) : List (List α) → List α
  | [] => out
  | y :: ys => addSymbols A (addAt A out ((5 + m) * 80) y) (m + 1) ys

/-- `assemble_frame` of R322. -/
def assembleFrame {α : Type} (A : Arith α) (sig : List α) (ys : List (List α)) : List α :=
  let out := List.replicate (frameLen ys.length) A.zero
  let out := addAt A out 0 (shortTraining A)
  let out := addAt A out 160 (longTraining A)
  let out := addAt A out 320 sig
  addSymbols A out 0 ys

/-- The interleaved coded bits of the data field: I of R325. -/
def encodeBits (p : RateProfile) (seed : BitVec 7) (msbFirst : Bool) (psdu : List Byte) : List Bool :=
  interleave p.nCbps p.nBpsc (puncture p.codingRate (convEncode (dataField p seed msbFirst psdu)))

/-- The data symbols Y[m] of R325: block m modulated with symbol index m + 1 (R324). -/
def dataSymbols {α : Type} (A : Arith α) (p : RateProfile) : Nat → List (List Bool) → List (List α)
  | _, [] => []
  | m, b :: bs => ofdmSymbol A (mapBlock A p b) (m + 1) :: dataSymbols A p (m + 1) bs

/-- `encode` of R325. -/
def encodeFrame {α : Type} (A : Arith α) (p : RateProfile) (seed : BitVec 7) (msbFirst : Bool) (psdu : List Byte) :
    List α :=
  let nSym := (sizing p psdu.length).nSym
  assembleFrame A (signalSymbol A p psdu.length)
    (dataSymbols A p 0 (blocks p.nCbps nSym (encodeBits p seed msbFirst psdu)))

/-- The outputs of ENCODE_FRAME (R326). -/
def runEncodeFrame (s : State) : Except Stop Effects := do
  let (p, len) ← s.argsEncodeFrame
  let psdu ← s.engineBytes .inMem 0 len
  return { Effects.nothing with
           samples := some (encodeFrame hw p s.snap.seed s.snap.psduMsbFirst psdu)
           sizing := some (s.sizingResult p len)
           outLen := some (frameLen (sizing p len).nSym) }

/-- ENCODE_FRAME (R326). -/
def execEncodeFrame (s : State) : Host.Outcome State Fault Refusal := s.finish (runEncodeFrame s)

/-- NOP (R328): it completes without error and writes nothing else. -/
def execNop (s : State) : Host.Outcome State Fault Refusal := s.finish (.ok Effects.nothing)

end Sys2Proof.Machine
end

