-- ==== Sys2Proof/Machine/Dispatch.lean ====
section
/-! DEFINITION. The completion transition of each command: one arm per constructor of Instr. -/

namespace Sys2Proof.Machine

def exec (i : Instr) (s : State) : Host.Outcome State Fault Refusal :=
  match i with
  | .nop => Sys2Proof.Machine.execNop s
  | .encodeFrame => Sys2Proof.Machine.execEncodeFrame s
  | .genPreamble => Sys2Proof.Machine.execGenPreamble s
  | .genSignal => Sys2Proof.Machine.execGenSignal s
  | .frameSizing => Sys2Proof.Machine.execFrameSizing s
  | .scramble => Sys2Proof.Machine.execScramble s
  | .buildDataField => Sys2Proof.Machine.execBuildDataField s
  | .convEncode => Sys2Proof.Machine.execConvEncode s
  | .puncture => Sys2Proof.Machine.execPuncture s
  | .interleave => Sys2Proof.Machine.execInterleave s
  | .deinterleave => Sys2Proof.Machine.execDeinterleave s
  | .mapSymbol => Sys2Proof.Machine.execMapSymbol s
  | .modulateSymbol => Sys2Proof.Machine.execModulateSymbol s
  | .detectShort => Sys2Proof.Machine.execDetectShort s
  | .detectLong => Sys2Proof.Machine.execDetectLong s

end Sys2Proof.Machine
end

