-- ==== Sys2Proof/Machine/Csr.lean ====
section
/-! DEFINITION. The CSR map: what each register reads as and what a 32-bit host write to it does (10_state.md R32 to R49). -/

namespace Sys2Proof.Machine

/-- The CSRs of 10_state.md R32. -/
inductive Csr where
  | cmd
  | status
  | txcfg
  | seed
  | psduLen
  | stageLen
  | symIndex
  | detLen
  | detMaxScan
  | detThrShort
  | detThrLong
  | nSym
  | nPad
  | nData
  | outLen
  | txTime
  | detIndex
  | caps
  deriving DecidableEq, Repr

/-- The CSR at an offset; `none` at the reserved offsets (R32, R49). -/
def csrAt (off : Nat) : Option Csr :=
  match off with
  | 0x00 => some .cmd
  | 0x04 => some .status
  | 0x08 => some .txcfg
  | 0x0C => some .seed
  | 0x10 => some .psduLen
  | 0x14 => some .stageLen
  | 0x18 => some .symIndex
  | 0x1C => some .detLen
  | 0x20 => some .detMaxScan
  | 0x24 => some .detThrShort
  | 0x28 => some .detThrLong
  | 0x30 => some .nSym
  | 0x34 => some .nPad
  | 0x38 => some .nData
  | 0x3C => some .outLen
  | 0x40 => some .txTime
  | 0x44 => some .detIndex
  | 0x48 => some .caps
  | _ => none

/-- CAPS (R47): MAX_PSDU in bits 11:0, HAS_DETECTOR in bit 16. -/
def capsWord (p : Params) : Word := 0#15 ++ BitVec.ofBool p.hasDetector ++ 0#4 ++ BitVec.ofNat 12 p.maxPsdu

/-- TXCFG (R35): RATE in 3:0, BW in 5:4, PSDU_MSB_FIRST in bit 8. -/
def ConfigRegs.txcfgWord (r : ConfigRegs) : Word := 0#23 ++ BitVec.ofBool r.psduMsbFirst ++ 0#2 ++ r.bw ++ r.rate

/-- A detector CSR: it reads 0 without a detector (R45, R46, R48). -/
def detectorWord (p : Params) (w : Word) : Word := if p.hasDetector then w else 0

/-- The 32-bit value of a CSR; reserved bits read 0 (R33 to R49). -/
def State.csrValue (s : State) : Csr → Word
  | .cmd => 0
  | .status => s.status.word s.phase.isBusy
  | .txcfg => s.regs.txcfgWord
  | .seed => s.regs.seed.setWidth 32
  | .psduLen => s.regs.psduLen.setWidth 32
  | .stageLen => s.regs.stageLen.setWidth 32
  | .symIndex => s.regs.symIndex.setWidth 32
  | .detLen => detectorWord s.params (s.regs.detLen.setWidth 32)
  | .detMaxScan => detectorWord s.params (s.regs.detMaxScan.setWidth 32)
  | .detThrShort => detectorWord s.params s.regs.detThrShort
  | .detThrLong => detectorWord s.params s.regs.detThrLong
  | .nSym => s.results.nSym.setWidth 32
  | .nPad => s.results.nPad.setWidth 32
  | .nData => s.results.nData.setWidth 32
  | .outLen => s.results.outLen
  | .txTime => s.results.txTime.setWidth 32
  | .detIndex => detectorWord s.params s.results.detIndex
  | .caps => capsWord s.params

/-- The value at a CSR offset; reserved offsets read 0 (R49). -/
def State.csrRead (s : State) (off : Nat) : Word :=
  match csrAt off with
  | some c => s.csrValue c
  | none => 0

/-- The configuration CSRs after a host write of `w` to TXCFG (R35). -/
def ConfigRegs.writeTxcfg (r : ConfigRegs) (w : Word) : ConfigRegs :=
  { r with rate := w.extractLsb' 0 4, bw := w.extractLsb' 4 2, psduMsbFirst := w.getLsbD 8 }

/-- The configuration CSRs after a host write to a detector CSR: ignored without a detector (R46, R48). -/
def ConfigRegs.ifDetector (r : ConfigRegs) (hasDetector : Bool) (r' : ConfigRegs) : ConfigRegs :=
  if hasDetector then r' else r

/-- A 32-bit host write to a CSR. CMD is accepted while IDLE and dropped while BUSY (60_exceptions.md R370, R371); how many
host operations come before the completion is drawn (R408). RO registers ignore writes. -/
def State.csrWrite (s : State) (c : Csr) (w : Word) : State :=
  match c with
  | .cmd =>
    match s.phase with
    | .idle => { s.accept w (Config.completionDelay s.draws) with draws := s.draws + 1 }
    | .busy => { s with status := s.status.dropped }
  | .status => { s with status := s.status.hostWrite w }
  | .txcfg => { s with regs := s.regs.writeTxcfg w }
  | .seed => { s with regs := { s.regs with seed := w.extractLsb' 0 7 } }
  | .psduLen => { s with regs := { s.regs with psduLen := w.extractLsb' 0 16 } }
  | .stageLen => { s with regs := { s.regs with stageLen := w.extractLsb' 0 24 } }
  | .symIndex => { s with regs := { s.regs with symIndex := w.extractLsb' 0 16 } }
  | .detLen => { s with regs := s.regs.ifDetector s.params.hasDetector { s.regs with detLen := w.extractLsb' 0 24 } }
  | .detMaxScan =>
    { s with regs := s.regs.ifDetector s.params.hasDetector { s.regs with detMaxScan := w.extractLsb' 0 24 } }
  | .detThrShort => { s with regs := s.regs.ifDetector s.params.hasDetector { s.regs with detThrShort := w } }
  | .detThrLong => { s with regs := s.regs.ifDetector s.params.hasDetector { s.regs with detThrLong := w } }
  | .nSym | .nPad | .nData | .outLen | .txTime | .detIndex | .caps => s

/-- A 32-bit host write at a CSR offset; reserved offsets ignore it (R49). -/
def State.csrWriteAt (s : State) (off : Nat) (w : Word) : State :=
  match csrAt off with
  | some c => s.csrWrite c w
  | none => s

end Sys2Proof.Machine
end

