-- ==== Sys2Proof/Machine/HostBus.lean ====
section
/-! DEFINITION. The host's accesses to the aperture (20_memory.md R80 to R95), the hazards of accesses while BUSY (70_reset_and_hazards.md R401 to R405), and the reset input (R390 to R393). -/

namespace Sys2Proof.Machine

/-- Bytes of an access. -/
def Width.bytes : Width → Nat
  | .w8 => 1
  | .w16 => 2
  | .w32 => 4

/-- What a byte offset of the aperture addresses (R80). -/
inductive Location where
  | csr (off : Nat)
  | mem (space : MemSpace) (index : Nat)
  /-- Reads 0, ignores writes (R88). -/
  | unimplemented
  deriving DecidableEq, Repr

/-- A byte of a memory window, if the memory implements it (R80, R88). -/
def inWindow (p : Params) (sp : MemSpace) (k : Nat) : Location :=
  if k < memBytes p sp then .mem sp k else .unimplemented

/-- The address map of R80, byte by byte. -/
def locate (p : Params) (off : Nat) : Location :=
  if off < 0x100 then .csr off
  else if off < 0x100000 then .unimplemented
  else if off < 0x200000 then inWindow p .inMem (off - 0x100000)
  else if off < 0x300000 then inWindow p .bitMem (off - 0x200000)
  else if off < 0x400000 then .unimplemented
  else if off < 0x800000 then inWindow p .smpMem (off - 0x400000)
  else .unimplemented

/-- The offset of the aligned unit an access of `n` bytes at `off` accesses (R85). -/
def alignDown (off n : Nat) : Nat := off - off % n

/-- The offset of a host address in the block's aperture (R12, R80); an address below BASE is not in it (log 19). -/
def offsetOf (p : Params) (addr : Nat) : Option Nat := if addr < p.base then none else some (addr - p.base)

/-- Byte `j` of a CSR value (R84, R86). -/
def wordByte (w : Word) (j : Nat) : Byte := w.extractLsb' (8 * j) 8

/-- The value of a memory byte the host reads: free while it is in the running command's output range (R405) or unwritten
(R391), its contents otherwise. `free` is the byte drawn for this read. -/
def State.hostMemByte (s : State) (sp : MemSpace) (k : Nat) (free : Byte) : Byte :=
  if s.inRunningOutput sp k then free
  else match (s.mem sp).read k with
    | some b => b
    | none => free

/-- One byte of a host read at a byte offset. -/
def State.hostByte (s : State) (off : Nat) (free : Byte) : Byte :=
  match locate s.params off with
  | .csr o => wordByte (s.csrRead (alignDown o 4)) (o % 4)
  | .mem sp k => s.hostMemByte sp k free
  | .unimplemented => 0

/-- The value of a host read of `n` bytes at an address (R84 to R88), zero-extended; byte j draws the free byte
`draws + j`. -/
def State.readValue (s : State) (addr : Nat) (w : Width) : Word :=
  match offsetOf s.params addr with
  | none => 0
  | some off =>
    let o := alignDown off w.bytes
    BitVec.ofNat 32 (leValue ((List.range w.bytes).map fun j => s.hostByte (o + j) (Config.freeByte (s.draws + j))))

/-- A host read: the value is returned, and nothing of the block changes (R92). The draw counter is the model's own. -/
def State.hostRead (s : State) (addr : Nat) (w : Width) : State :=
  { s with responses := s.readValue addr w :: s.responses, draws := s.draws + w.bytes }

/-- The memory bytes a host write of `n` bytes at an aligned offset stores, with their values (R85, R86, R88). -/
def storedBytes (p : Params) (off n : Nat) (data : Word) : List (MemSpace × Nat × Byte) :=
  (List.range n).filterMap fun j =>
    match locate p (off + j) with
    | .mem sp k => some (sp, k, wordByte data j)
    | _ => none

/-- Storing bytes one by one. -/
def State.storeBytes (s : State) : List (MemSpace × Nat × Byte) → State
  | [] => s
  | (sp, k, b) :: rest => State.storeBytes (s.setMem sp ((s.mem sp).write k b)) rest

/-- A host write to memory bytes: a hazard if one of them is in the running command's ranges (R404: a fault). -/
def State.writeMem (s : State) (bytes : List (MemSpace × Nat × Byte)) : Host.Outcome State Fault Refusal :=
  match bytes.find? (fun x => s.inRunningRange x.1 x.2.1) with
  | some x => .fault (.busyWriteHazard x.1 x.2.1)
  | none => .next (s.storeBytes bytes)

/-- A host write (R84 to R88): in the CSR window only a 32-bit write has an effect (R84). -/
def State.hostWrite (s : State) (addr : Nat) (w : Width) (data : Word) : Host.Outcome State Fault Refusal :=
  match offsetOf s.params addr with
  | none => .next s
  | some off =>
    let o := alignDown off w.bytes
    if o < 0x100 then
      match w with
      | .w32 => .next (s.csrWriteAt o data)
      | _ => .next s
    else s.writeMem (storedBytes s.params o w.bytes data)

/-- `n` free bytes from a draw counter. -/
def freeBytes (draws n : Nat) : List Byte := (List.range n).map fun j => Config.freeByte (draws + j)

/-- What a reset leaves of the memories: the output range of a command it abandons holds free bytes, each drawn on its own;
every other byte keeps its value (70_reset_and_hazards.md R391, R392). -/
def State.abandonOutput (s : State) : State :=
  match s.running with
  | none => s
  | some i =>
    match s.outputRange i with
    | none => s
    | some e =>
      { s.setMem e.space ((s.mem e.space).writeBlock 0 (freeBytes s.draws e.bytes)) with draws := s.draws + e.bytes }

/-- The reset input (R390, R392, R393): the running command is abandoned, and every CSR and the engine take their reset
values. -/
def State.applyReset (s : State) : State :=
  { s.abandonOutput with
    phase := .idle, cmd := 0, snap := ConfigRegs.zero, status := Status.reset,
    regs := ConfigRegs.reset s.params.hasDetector, results := ResultRegs.reset s.params.hasDetector, delay := 0 }

/-- One turn of the host's polling loop (30_encoding.md R118): a 32-bit read of STATUS; while BUSY reads 1 the poll stays at
the head of the queue `again`. -/
def State.hostPoll (s : State) (again : List HostOp) : State :=
  let v := s.csrValue .status
  { s with responses := v :: s.responses, pending := if v.getLsbD 0 then again else s.pending }

/-- The host's (or the reset input's) next operation, taken off the queue (20_memory.md R93). -/
def State.hostStep (s : State) (op : HostOp) (rest : List HostOp) : Host.Outcome State Fault Refusal :=
  let s' := { s with pending := rest, delay := s.delay - 1 }
  match op with
  | .write addr w data => s'.hostWrite addr w data
  | .read addr w => .next (s'.hostRead addr w)
  | .poll => .next (s'.hostPoll s.pending)
  | .reset => .next s'.applyReset

end Sys2Proof.Machine
end

