-- ==== Sys2Proof/Machine/Engine.lean ====
section
/-! DEFINITION. The engine's completion transition (60_exceptions.md R372), and which agent moves next (70_reset_and_hazards.md R408). -/

namespace Sys2Proof.Machine

/-- The completion transition: decode the latched word; an illegal one ends with ILLEGAL_COMMAND, a legal one runs (R372). -/
def State.completeCommand (s : State) : Host.Outcome State Fault Refusal :=
  match decode s.params.hasDetector s.cmd with
  | .error _ => .next (s.failWith .illegalCommand)
  | .ok i => exec i s

/-- The agent that takes the next step. -/
inductive Mover where
  | engine
  | host (op : HostOp) (rest : List HostOp)
  | nobody
  deriving DecidableEq, Repr

/-- Who moves next. While BUSY the engine completes once the drawn number of host operations has gone by, and at once when the
host has nothing to issue, so completion is never postponed forever (R408). While IDLE only the host moves (R380). -/
def State.mover (s : State) : Mover :=
  match s.phase, s.pending with
  | .busy, [] => .engine
  | .busy, op :: rest => if s.delay = 0 then .engine else .host op rest
  | .idle, op :: rest => .host op rest
  | .idle, [] => .nobody

/-- The next transition of the block and its host. With nothing to do, the state stays as it is (R380, log 8). -/
def State.advance (s : State) : Host.Outcome State Fault Refusal :=
  match s.mover with
  | .engine => s.completeCommand
  | .host op rest => s.hostStep op rest
  | .nobody => .next s

/-- The state in which a command word has just been accepted and the engine moves next (R370, R408). -/
def State.present (s : State) (w : Word) : State := s.accept w 0

end Sys2Proof.Machine
end

