-- ==== Sys2Proof/Machine/Step.lean ====
section
/-! DEFINITION. The step of the machine, and how the host of this project places a command where the next step runs it. -/

namespace Sys2Proof.Machine

/-- One step: a host operation or the completion of the running command. -/
def step (s : State) : Host.Outcome State Fault Refusal := s.advance

/-- The state whose next step runs the command word made of the low `nbits` bits of `w`: the word stands latched in cmd, accepted
with the CSRs of `s` (R370), and the engine moves next (log 7). -/
def State.withFetchWord (s : State) (nbits w : Nat) : State := s.present (tableWord nbits w)

end Sys2Proof.Machine
end

