-- ==== Sys2Proof/Safety.lean ====
section
/-! DEFINITION. The vocabulary of claims: what a memory holds, what a completed command leaves unchanged, the invariant of the machine, and the accuracy property of 45_symbol_assembler.md R266. -/

namespace Sys2Proof.Safety

open Sys2Proof.Machine

/-! ### What a memory holds -/

/-- The memory holds these bytes from index 0. -/
def HoldsBytes (m : Memory) (bs : List Byte) : Prop := ∀ k, k < bs.length → m.read k = bs[k]?

/-- The memory holds these stream bits from bit address 0 (00_scope.md R14). -/
def HoldsBits (m : Memory) (v : List Bool) : Prop := ∀ i, i < v.length → m.bit? i = v[i]?

/-- The memory holds these samples from sample 0 (20_memory.md R83). -/
def HoldsSamples (m : Memory) (w : List C64) : Prop := ∀ i, i < w.length → m.sample? i = w[i]?

/-! ### What a completed command changes -/

/-- A command completed without error (60_exceptions.md R372), and everything but STATUS, the result CSRs, BIT_MEM and SMP_MEM
is as it was. -/
structure Completed (s t : State) (found : Bool) : Prop where
  phase      : t.phase = .idle
  done       : t.status.done = true
  err        : t.status.err = false
  found      : t.status.found = found
  errCode    : t.status.errCode = .none
  cmdDropped : t.status.cmdDropped = s.status.cmdDropped
  params     : t.params = s.params
  cmd        : t.cmd = s.cmd
  snap       : t.snap = s.snap
  regs       : t.regs = s.regs
  inMem      : t.inMem = s.inMem
  delay      : t.delay = s.delay
  draws      : t.draws = s.draws
  pending    : t.pending = s.pending
  responses  : t.responses = s.responses

/-- A command completed with an error (60_exceptions.md R365): only STATUS and the phase change. -/
structure Failed (s t : State) (c : ErrorCode) : Prop where
  phase      : t.phase = .idle
  done       : t.status.done = true
  err        : t.status.err = true
  found      : t.status.found = false
  errCode    : t.status.errCode = c
  cmdDropped : t.status.cmdDropped = s.status.cmdDropped
  rest       : { t with phase := s.phase, status := s.status } = s

/-- The command wrote exactly these bits to BIT_MEM, with the unused bits of the last byte 0 (20_memory.md R90). -/
structure BitsWritten (s t : State) (w : List Bool) : Prop where
  bits   : HoldsBits t.bitMem w
  unused : ∀ i, w.length ≤ i → i < 8 * ceilDiv w.length 8 → t.bitMem.bit? i = some false
  rest   : ∀ k, ceilDiv w.length 8 ≤ k → t.bitMem.read k = s.bitMem.read k
  smpMem : t.smpMem = s.smpMem

/-- The command wrote exactly these samples to SMP_MEM (20_memory.md R90). -/
structure SamplesWritten (s t : State) (w : List C64) : Prop where
  samples : HoldsSamples t.smpMem w
  rest    : ∀ k, 16 * w.length ≤ k → t.smpMem.read k = s.smpMem.read k
  bitMem  : t.bitMem = s.bitMem

/-- The command wrote no memory. -/
structure NoMemoryWritten (s t : State) : Prop where
  bitMem : t.bitMem = s.bitMem
  smpMem : t.smpMem = s.smpMem

/-- The result CSRs are unchanged but for OUT_LEN. -/
def OnlyOutLen (s t : State) (n : Nat) : Prop := t.results = { s.results with outLen := t.results.outLen } ∧ t.results.outLen.toNat = n

/-- N_SYM, N_PAD, N_DATA and TXTIME hold the values of a sizing, as numbers (40_rate_sizing.md R144, R145). -/
structure SizingWritten (t : State) (z : Sizing) (tx : Nat) : Prop where
  nSym   : t.results.nSym.toNat = z.nSym
  nPad   : t.results.nPad.toNat = z.nPad
  nData  : t.results.nData.toNat = z.nData
  txTime : t.results.txTime.toNat = tx

/-! ### The host's turn -/

/-- The host has this operation to issue next and it is the host that moves: the block is IDLE, or the drawn number of host
operations has not gone by yet (70_reset_and_hazards.md R408). -/
def HostTurn (s : State) (op : HostOp) (rest : List HostOp) : Prop :=
  s.pending = op :: rest ∧ (s.phase = .idle ∨ s.delay ≠ 0)

/-- A command is in progress and the engine moves next (R372, R408). -/
def EngineTurn (s : State) : Prop := s.phase = .busy ∧ (s.pending = [] ∨ s.delay = 0)

/-- The state in which the host's operation has been taken off the queue and nothing else has changed. -/
def Issued (s : State) (rest : List HostOp) : State := { s with pending := rest, delay := s.delay - 1 }

/-- The offset of a memory window in the aperture (20_memory.md R80). -/
def windowOffset : MemSpace → Nat
  | .inMem => 0x100000
  | .bitMem => 0x200000
  | .smpMem => 0x400000

/-- The offset at which a memory window ends (20_memory.md R80). -/
def windowEnd : MemSpace → Nat
  | .inMem => 0x200000
  | .bitMem => 0x300000
  | .smpMem => 0x800000

/-! ### The size conditions of 60_exceptions.md R363 -/

/-- The condition under which R363 has each command raise BUFFER_SIZE_MISMATCH, for the profile of its selector; `False` for a
command that never raises it. -/
def SizeMismatch (s : State) (p : RateProfile) : Instr → Prop
  | .encodeFrame => (5 + (sizing p s.snap.psduLen.toNat).nSym) * 80 + 1 > s.params.smpMemSamples
  | .buildDataField => ceilDiv (sizing p s.snap.psduLen.toNat).nData 8 > s.params.bitMemBytes
  | .scramble => s.snap.stageLen.toNat > 8 * s.params.inMemBytes ∨ s.snap.stageLen.toNat > 8 * s.params.bitMemBytes
  | .convEncode => s.snap.stageLen.toNat > 8 * s.params.inMemBytes ∨ 2 * s.snap.stageLen.toNat > 8 * s.params.bitMemBytes
  | .puncture => s.snap.stageLen.toNat > 8 * s.params.inMemBytes ∨
      (p.codingRate = .twoThirds ∧ s.snap.stageLen.toNat % 4 ≠ 0) ∨
      (p.codingRate = .threeQuarters ∧ s.snap.stageLen.toNat % 6 ≠ 0)
  | .interleave | .deinterleave =>
      s.snap.stageLen.toNat > 8 * s.params.inMemBytes ∨ s.snap.stageLen.toNat % p.nCbps ≠ 0
  | .mapSymbol | .modulateSymbol => s.snap.stageLen.toNat ≠ p.nCbps
  | .nop | .genPreamble | .genSignal | .frameSizing | .detectShort | .detectLong => False

/-- The commands that need a profile (R361). -/
def NeedsProfile : Instr → Prop
  | .encodeFrame | .genSignal | .frameSizing | .buildDataField | .puncture | .interleave | .deinterleave | .mapSymbol
  | .modulateSymbol => True
  | .nop | .genPreamble | .scramble | .convEncode | .detectShort | .detectLong => False

/-- The commands that check PSDU_LEN (R362). -/
def ChecksPsduLen : Instr → Prop
  | .encodeFrame | .genSignal | .frameSizing | .buildDataField => True
  | .nop | .genPreamble | .scramble | .convEncode | .puncture | .interleave | .deinterleave | .mapSymbol
  | .modulateSymbol | .detectShort | .detectLong => False

/-! ### The invariant -/

/-- Every listed byte of a memory lies in its implemented part (20_memory.md R80). -/
def Within (m : Memory) (size : Nat) : Prop := ∀ c ∈ m, c.1 < size

/-- STATUS is consistent: ERR exactly with a code, ERR and FOUND only with DONE, never both, and all clear while BUSY
(10_state.md R34, 60_exceptions.md R365, R370, R372). -/
structure StatusOk (st : Status) (ph : Phase) : Prop where
  errCode  : st.err = true ↔ st.errCode ≠ .none
  errDone  : st.err = true → st.done = true
  foundOk  : st.found = true → st.done = true ∧ st.err = false
  busy     : ph = .busy → st.done = false

/-- Without a detector its CSRs hold 0 (10_state.md R45, R46, R48). -/
structure DetectorCsrsZero (r : ConfigRegs) (d : BitVec 32) : Prop where
  len      : r.detLen = 0
  maxScan  : r.detMaxScan = 0
  thrShort : r.detThrShort = 0
  thrLong  : r.detThrLong = 0
  index    : d = 0

/-- The invariant of the machine: well-formed parameters (00_scope.md R8, R9), memories in canonical form and inside their
implemented sizes, a consistent STATUS, and the detector CSRs 0 in a block without the detector. -/
structure Inv (s : State) : Prop where
  params     : s.params.wellFormed = true
  inWf       : s.inMem.wf
  bitWf      : s.bitMem.wf
  smpWf      : s.smpMem.wf
  inSize     : Within s.inMem (memBytes s.params .inMem)
  bitSize    : Within s.bitMem (memBytes s.params .bitMem)
  smpSize    : Within s.smpMem (memBytes s.params .smpMem)
  status     : StatusOk s.status s.phase
  noDetector : s.params.hasDetector = false → DetectorCsrsZero s.regs s.results.detIndex

/-! ### The SIGNAL symbol -/

/-- The SIGNAL symbol as 46_preamble_signal.md R302 composes it: the SIGNAL bits, coded at rate 1/2, interleaved with (48, 1), each
bit a BPSK point, in the symbol of index 0. -/
def signalWaveform (p : RateProfile) (len : Nat) : List C64 :=
  ofdmSymbol hw ((interleave 48 1 (convEncode (signalBits p len))).map fun b => hw.point .bpsk (if b then 1 else -1) 0) 0

/-! ### The exact reference and the accuracy of the hardware (R265, R266) -/

/-- K_MOD (44_mapper.md R242 to R245). -/
noncomputable def kMod : Modulation → ℝ
  | .bpsk => 1
  | .qpsk => 1 / Real.sqrt 2
  | .qam16 => 1 / Real.sqrt 10
  | .qam64 => 1 / Real.sqrt 42

/-- IDFT64 of R265. -/
noncomputable def idft64 (x : Vector ℂ 64) : Vector ℂ 64 :=
  Vector.ofFn fun n : Fin 64 =>
    (1 / 64 : ℂ) * ∑ k : Fin 64, x.get k * Complex.exp (2 * Real.pi * Complex.I * (k.val * n.val) / 64)

/-- The rules' arithmetic over C with the exact constants (R266 item 2). -/
noncomputable def exact : Arith ℂ :=
  { zero := 0
    point := fun m i q => (kMod m : ℂ) * ((i : ℂ) + (q : ℂ) * Complex.I)
    short := fun i q => (Real.sqrt (13 / 6) : ℂ) * ((i : ℂ) + (q : ℂ) * Complex.I)
    add := fun a b => a + b
    half := fun a => a / 2
    ifft := idft64 }

/-- A component is finite and within `eps` of an exact value. -/
def NearReal (eps : ℝ) (x : F64) (r : ℝ) : Prop := f64IsFinite x = true ∧ |((f64ToRat x : ℚ) : ℝ) - r| ≤ eps

/-- Both components of a sample are within `eps` of an exact value. -/
def Near (eps : ℝ) (c : C64) (z : ℂ) : Prop := NearReal eps c.re z.re ∧ NearReal eps c.im z.im

/-- The accuracy property of IFFT64N (R266 item 2), with EPS = `eps` (00_scope.md R11): every sample of every waveform the block
writes from a transform is within EPS of the value the same rule gives in exact arithmetic. -/
structure IfftAccurate (eps : ℝ) : Prop where
  nonneg : 0 ≤ eps
  bound  : eps ≤ 1 / 1000
  short  : List.Forall₂ (Near eps) (shortTraining hw) (shortTraining exact)
  long   : List.Forall₂ (Near eps) (longTraining hw) (longTraining exact)
  signal : ∀ (r : Nat) (p : RateProfile) (len : Nat), rateRow r = some p → len ≤ 4095 →
    List.Forall₂ (Near eps) (signalSymbol hw p len) (signalSymbol exact p len)
  symbol : ∀ (r : Nat) (p : RateProfile) (block : List Bool) (idx : Nat), rateRow r = some p →
    block.length = p.nCbps →
    List.Forall₂ (Near eps) (ofdmSymbol hw (mapBlock hw p block) idx) (ofdmSymbol exact (mapBlock exact p block) idx)
  frame  : ∀ (r : Nat) (p : RateProfile) (seed : BitVec 7) (msb : Bool) (psdu : List Byte), rateRow r = some p →
    psdu.length ≤ 4095 →
    List.Forall₂ (Near eps) (encodeFrame hw p seed msb psdu) (encodeFrame exact p seed msb psdu)

end Sys2Proof.Safety
end

