-- ==== Sys2Proof/Certificates/Slice0/Obligations.lean ====
section
/-! DEFINITION. The statements about the machine, for the provers. -/

open Sys2Proof Sys2Proof.Machine Sys2Proof.Safety

/-! ### Encoding -/

/-- The decoder accepts exactly the encodings of the commands the block has (30_encoding.md R112, R113, R116), over all 2^32
words. -/
def Obligations.DecodeAcceptsExactlyTheEncodings : Prop :=
  ∀ (hasDetector : Bool) (w : Word) (i : Instr),
    decode hasDetector w = .ok i ↔ i.wellFormed hasDetector = true ∧ w = encode i

/-- Command words written out from the opcode map (R112) decode to their commands. -/
def Obligations.OpcodeMapWordsDecode : Prop :=
  decode true 0x00000000#32 = .ok .nop ∧ decode true 0x00000001#32 = .ok .encodeFrame ∧
  decode true 0x00000004#32 = .ok .frameSizing ∧ decode true 0x00000010#32 = .ok .scramble ∧
  decode true 0x00000013#32 = .ok .puncture ∧ decode true 0x00000017#32 = .ok .modulateSymbol ∧
  decode true 0x00000021#32 = .ok .detectLong ∧ decode true 0x00000005#32 = .error .unassignedOpcode ∧
  decode true 0x00000101#32 = .error .reservedBits ∧ decode false 0x00000020#32 = .error .noDetector

/-! ### Steps: the lifecycle of a command -/

/-- When the engine moves and the latched word decodes to a command, the step is that command's completion transition. -/
def Obligations.StepRunsTheDecodedCommand : Prop :=
  ∀ (s : State) (i : Instr), EngineTurn s → decode s.params.hasDetector s.cmd = .ok i → step s = exec i s

/-- ILLEGAL_COMMAND (60_exceptions.md R364): a latched word with a nonzero reserved bit, an unassigned OP, or a detector OP in a
block without the detector ends in an error completion. -/
def Obligations.IllegalWordsRaiseIllegalCommand : Prop :=
  ∀ s : State, EngineTurn s →
    (s.cmd.extractLsb' 8 24 ≠ 0 ∨ (∀ i, s.cmd.extractLsb' 0 8 ≠ opcode i) ∨
      (s.params.hasDetector = false ∧ (s.cmd.extractLsb' 0 8 = 0x20#8 ∨ s.cmd.extractLsb' 0 8 = 0x21#8))) →
    ∃ t, step s = .next t ∧ Failed s t .illegalCommand

/-- Acceptance (R370): a 32-bit write of any word to CMD, at any of its four byte addresses (R84, R85), while IDLE latches the word, takes the snapshot, clears DONE, ERR, FOUND and
ERRCODE, keeps CMD_DROPPED and makes the block BUSY; a command's result never depends on the CSRs after that. The delay drawn
is the model's (log 6). -/
def Obligations.AcceptanceLatchesCommandAndSnapshot : Prop :=
  (∀ (s : State) (j : Nat) (w : Word) (rest : List HostOp), j < 4 →
    HostTurn s (.write (s.params.base + 0x00 + j) .w32 w) rest → s.phase = .idle →
    ∃ d, step s = .next { s with
      cmd := w, snap := s.regs, phase := .busy, delay := d, draws := s.draws + 1, pending := rest,
      status := { done := false, err := false, found := false, errCode := .none,
                  cmdDropped := s.status.cmdDropped } }) ∧
  (∀ (i : Instr) (s t : State) (r : ConfigRegs), exec i s = .next t → exec i { s with regs := r } = .next { t with regs := r })

/-- A CMD write while BUSY, at any of the four byte addresses of CMD (20_memory.md R84), is dropped (R371): it sets CMD_DROPPED and has no other effect, and CMD_DROPPED then stays 1 until a
32-bit write to STATUS with bit 4 set, or a reset. -/
def Obligations.BusyCommandIsDroppedAndRecorded : Prop :=
  (∀ (s : State) (j : Nat) (w : Word) (rest : List HostOp), j < 4 →
    HostTurn s (.write (s.params.base + 0x00 + j) .w32 w) rest → s.phase = .busy →
    step s = .next { Issued s rest with status := { s.status with cmdDropped := true } }) ∧
  (∀ s t : State, step s = .next t → s.status.cmdDropped = true → t.status.cmdDropped = false →
    ∃ op rest, s.pending = op :: rest ∧ (op = .reset ∨ ∃ addr data, op = .write addr .w32 data ∧
      data.getLsbD 4 = true ∧ s.params.base + 0x04 ≤ addr ∧ addr < s.params.base + 0x08))

/-- Whatever a command answers as a next state is either a completion without error or an error completion, and each leaves
everything else alone (R365, R372). -/
def Obligations.EveryCommandCompletesOrFailsWhole : Prop :=
  ∀ (i : Instr) (s t : State), exec i s = .next t →
    (∃ found, Completed s t found ∧ (found = true → i = .detectShort ∨ i = .detectLong)) ∨
    (∃ c, c ≠ .none ∧ Failed s t c)

/-- A command faults only by reading an unwritten byte of its input range (70_reset_and_hazards.md R391), and is never refused. -/
def Obligations.CommandsFaultOnlyOnUnwrittenInput : Prop :=
  (∀ (i : Instr) (s : State) (f : Fault), exec i s = .fault f →
    ∃ sp k, f = .unwrittenInput sp k ∧ (s.mem sp).read k = none ∧ inExtent (s.inputRange i) sp k = true) ∧
  (∀ (i : Instr) (s : State) (r : Refusal), exec i s ≠ .refused r)

/-- INVALID_DATA_RATE (R361): every command that needs a profile raises it when RATE > 7 or BW > 1, before every other check (R366);
no other command ever does. -/
def Obligations.InvalidSelectorRaisesInvalidDataRate : Prop :=
  (∀ (i : Instr) (s : State), NeedsProfile i → (s.snap.rate.toNat > 7 ∨ s.snap.bw.toNat > 1) →
    ∃ t, exec i s = .next t ∧ Failed s t .invalidDataRate) ∧
  (∀ (i : Instr) (s t : State), exec i s = .next t → t.status.errCode = .invalidDataRate →
    NeedsProfile i ∧ (s.snap.rate.toNat > 7 ∨ s.snap.bw.toNat > 1))

/-- PSDU_TOO_LARGE (R362): raised exactly by the four commands that use PSDU_LEN, when it exceeds MAX_PSDU and the selector is
valid (R366). -/
def Obligations.LongPsduRaisesPsduTooLarge : Prop :=
  (∀ (i : Instr) (s : State), ChecksPsduLen i → s.snap.rate.toNat ≤ 7 → s.snap.bw.toNat ≤ 1 →
    s.snap.psduLen.toNat > s.params.maxPsdu → ∃ t, exec i s = .next t ∧ Failed s t .psduTooLarge) ∧
  (∀ (i : Instr) (s t : State), exec i s = .next t → t.status.errCode = .psduTooLarge →
    ChecksPsduLen i ∧ s.snap.psduLen.toNat > s.params.maxPsdu)

/-- BUFFER_SIZE_MISMATCH (R363): raised exactly under the condition R363 gives for the command, when no earlier check fails (R366);
no other command raises it. -/
def Obligations.WrongSizesRaiseBufferSizeMismatch : Prop :=
  (∀ (i : Instr) (s : State) (p : RateProfile),
    (NeedsProfile i → profile s.snap.bw s.snap.rate = some p) →
    (ChecksPsduLen i → s.snap.psduLen.toNat ≤ s.params.maxPsdu) →
    SizeMismatch s p i → ∃ t, exec i s = .next t ∧ Failed s t .bufferSizeMismatch) ∧
  (∀ (i : Instr) (s t : State), exec i s = .next t → t.status.errCode = .bufferSizeMismatch →
    ∃ p, (NeedsProfile i → profile s.snap.bw s.snap.rate = some p) ∧ SizeMismatch s p i)

/-! ### Each command's result, with its frame -/

/-- NOP (47_frame.md R328): STATUS only. The command word 0 is NOP, and it leaves STATUS 0x00000002. -/
def Obligations.NopOnlyCompletes : Prop :=
  (∀ hasDetector : Bool, decode hasDetector 0x00000000#32 = .ok .nop) ∧
  ∀ s : State, ∃ t, exec .nop s = .next t ∧ Completed s t false ∧ NoMemoryWritten s t ∧ t.results = s.results ∧
    (s.status.cmdDropped = false → t.csrRead 0x04 = 0x00000002#32)

/-- FRAME_SIZING (40_rate_sizing.md R147, with the formulas of R144 and R145): the sizing CSRs hold the exact values, and the
two errors in their order. -/
def Obligations.FrameSizingWritesTheSizingCsrs : Prop :=
  (∀ s : State, profile s.snap.bw s.snap.rate = none → ∃ t, exec .frameSizing s = .next t ∧ Failed s t .invalidDataRate) ∧
  (∀ (s : State) (p : RateProfile), profile s.snap.bw s.snap.rate = some p → s.snap.psduLen.toNat > s.params.maxPsdu →
    ∃ t, exec .frameSizing s = .next t ∧ Failed s t .psduTooLarge) ∧
  (∀ (s : State) (p : RateProfile), profile s.snap.bw s.snap.rate = some p → s.snap.psduLen.toNat ≤ s.params.maxPsdu →
    ∃ t, exec .frameSizing s = .next t ∧ Completed s t false ∧ NoMemoryWritten s t ∧
      t.results.outLen = s.results.outLen ∧ t.results.detIndex = s.results.detIndex ∧
      t.results.nSym.toNat = (16 + 8 * s.snap.psduLen.toNat + 6 + (p.nDbps - 1)) / p.nDbps ∧
      t.results.nData.toNat = t.results.nSym.toNat * p.nDbps ∧
      t.results.nPad.toNat + (16 + 8 * s.snap.psduLen.toNat + 6) = t.results.nData.toNat ∧
      t.results.nPad.toNat < p.nDbps ∧
      t.results.txTime.toNat = (5 + t.results.nSym.toNat) * (if s.snap.bw = 0 then 4 else 8))

/-- SCRAMBLE (41_scrambler.md R168) on an input it holds: the scrambled bits in BIT_MEM, OUT_LEN, and nothing else. -/
def Obligations.ScrambleWritesScrambledBits : Prop :=
  ∀ (s : State) (v : List Bool), s.snap.stageLen.toNat = v.length → v.length ≤ 8 * s.params.inMemBytes →
    v.length ≤ 8 * s.params.bitMemBytes → HoldsBits s.inMem v →
    ∃ t, exec .scramble s = .next t ∧ Completed s t false ∧ BitsWritten s t (scramble s.snap.seed v) ∧
      OnlyOutLen s t v.length

/-- BUILD_DATA_FIELD (R169) on a PSDU it holds: the scrambled data field in BIT_MEM, the sizing CSRs, OUT_LEN. -/
def Obligations.BuildDataFieldWritesTheDataField : Prop :=
  ∀ (s : State) (p : RateProfile) (psdu : List Byte), profile s.snap.bw s.snap.rate = some p →
    s.snap.psduLen.toNat = psdu.length → psdu.length ≤ s.params.maxPsdu →
    ceilDiv (sizing p psdu.length).nData 8 ≤ s.params.bitMemBytes → HoldsBytes s.inMem psdu →
    ∃ t, exec .buildDataField s = .next t ∧ Completed s t false ∧
      BitsWritten s t (dataField p s.snap.seed s.snap.psduMsbFirst psdu) ∧
      SizingWritten t (sizing p psdu.length) (txTime (sizing p psdu.length).nSym s.snap.bw) ∧
      t.results.outLen.toNat = (sizing p psdu.length).nData ∧ t.results.detIndex = s.results.detIndex

/-- CONV_ENCODE (42_encoder_puncturer.md R198). -/
def Obligations.ConvEncodeWritesCodedBits : Prop :=
  ∀ (s : State) (v : List Bool), s.snap.stageLen.toNat = v.length → v.length ≤ 8 * s.params.inMemBytes →
    2 * v.length ≤ 8 * s.params.bitMemBytes → HoldsBits s.inMem v →
    ∃ t, exec .convEncode s = .next t ∧ Completed s t false ∧ BitsWritten s t (convEncode v) ∧
      OnlyOutLen s t (2 * v.length)

/-- PUNCTURE (R199), with the output length of R196. -/
def Obligations.PunctureWritesKeptBits : Prop :=
  ∀ (s : State) (p : RateProfile) (v : List Bool), profile s.snap.bw s.snap.rate = some p →
    s.snap.stageLen.toNat = v.length → v.length ≤ 8 * s.params.inMemBytes →
    (p.codingRate = .twoThirds → v.length % 4 = 0) → (p.codingRate = .threeQuarters → v.length % 6 = 0) →
    HoldsBits s.inMem v →
    ∃ t, exec .puncture s = .next t ∧ Completed s t false ∧ BitsWritten s t (puncture p.codingRate v) ∧
      OnlyOutLen s t (puncture p.codingRate v).length

/-- INTERLEAVE and DEINTERLEAVE (43_interleaver.md R226, R227) on whole blocks that IN_MEM holds. -/
def Obligations.InterleaverCommandsWritePermutedBits : Prop :=
  ∀ (s : State) (p : RateProfile) (v : List Bool), profile s.snap.bw s.snap.rate = some p →
    s.snap.stageLen.toNat = v.length → v.length ≤ 8 * s.params.inMemBytes → v.length % p.nCbps = 0 →
    HoldsBits s.inMem v →
    (∃ t, exec .interleave s = .next t ∧ Completed s t false ∧ BitsWritten s t (interleave p.nCbps p.nBpsc v) ∧
      OnlyOutLen s t v.length) ∧
    (∃ t, exec .deinterleave s = .next t ∧ Completed s t false ∧ BitsWritten s t (deinterleave p.nCbps p.nBpsc v) ∧
      OnlyOutLen s t v.length)

/-- MAP_SYMBOL (44_mapper.md R248) and MODULATE_SYMBOL (45_symbol_assembler.md R272) on one block that IN_MEM holds. -/
def Obligations.SymbolCommandsWriteTheirSamples : Prop :=
  ∀ (s : State) (p : RateProfile) (v : List Bool), profile s.snap.bw s.snap.rate = some p →
    s.snap.stageLen.toNat = p.nCbps → v.length = p.nCbps → HoldsBits s.inMem v →
    (∃ t, exec .mapSymbol s = .next t ∧ Completed s t false ∧ SamplesWritten s t (mapBlock hw p v) ∧ OnlyOutLen s t 48) ∧
    (∃ t, exec .modulateSymbol s = .next t ∧ Completed s t false ∧
      SamplesWritten s t (ofdmSymbol hw (mapBlock hw p v) s.snap.symIndex.toNat) ∧ OnlyOutLen s t 81)

/-- GEN_PREAMBLE (46_preamble_signal.md R305): it always completes, and reads no CSR and no memory. -/
def Obligations.GenPreambleWritesBothTrainings : Prop :=
  ∀ s : State, ∃ t, exec .genPreamble s = .next t ∧ Completed s t false ∧
    SamplesWritten s t (shortTraining hw ++ longTraining hw) ∧ OnlyOutLen s t 322

/-- GEN_SIGNAL (R306): the SIGNAL bits, rate-1/2 coded, interleaved with (48, 1) and modulated with BPSK and symbol index 0 (R302).
IN_MEM is not read, and the sizing CSRs are unchanged. -/
def Obligations.GenSignalWritesTheSignalSymbol : Prop :=
  ∀ (s : State) (p : RateProfile), profile s.snap.bw s.snap.rate = some p → s.snap.psduLen.toNat ≤ s.params.maxPsdu →
    ∃ t, exec .genSignal s = .next t ∧ Completed s t false ∧
      SamplesWritten s t (signalWaveform p s.snap.psduLen.toNat) ∧ OnlyOutLen s t 81

/-- ENCODE_FRAME (47_frame.md R326, R327) on a PSDU it holds. The frame is assembled from SHORT, LONG, the SIGNAL symbol and the data
symbols; data symbol m carries block m of the interleaved, punctured, coded data field (R325), with symbol index m + 1 (R324). -/
def Obligations.EncodeFrameWritesTheFrame : Prop :=
  ∀ (s : State) (p : RateProfile) (psdu : List Byte), profile s.snap.bw s.snap.rate = some p →
    s.snap.psduLen.toNat = psdu.length → psdu.length ≤ s.params.maxPsdu →
    (5 + (sizing p psdu.length).nSym) * 80 + 1 ≤ s.params.smpMemSamples → HoldsBytes s.inMem psdu →
    let bits := interleave p.nCbps p.nBpsc
      (puncture p.codingRate (convEncode (dataField p s.snap.seed s.snap.psduMsbFirst psdu)))
    ∃ t ys, exec .encodeFrame s = .next t ∧ Completed s t false ∧
      SamplesWritten s t (assembleFrame hw (signalWaveform p psdu.length) ys) ∧
      ys.length = (sizing p psdu.length).nSym ∧ bits.length = ys.length * p.nCbps ∧
      (∀ m, m < ys.length →
        ys[m]? = some (ofdmSymbol hw (mapBlock hw p ((bits.drop (m * p.nCbps)).take p.nCbps)) (m + 1))) ∧
      SizingWritten t (sizing p psdu.length) (txTime (sizing p psdu.length).nSym s.snap.bw) ∧
      t.results.outLen.toNat = (5 + t.results.nSym.toNat) * 80 + 1 ∧
      (assembleFrame hw (signalWaveform p psdu.length) ys).length = t.results.outLen.toNat ∧
      t.results.detIndex = s.results.detIndex

/-- DETECT_SHORT (48_frame_detector.md R345, R349, R350): DET_INDEX and FOUND report the first position in range that qualifies, or
NotFound. The buffer is read only when a window fits (log 14). -/
def Obligations.DetectShortReportsTheFirstQualifyingPosition : Prop :=
  ∀ (s : State) (r : List C64), r.length = min s.snap.detLen.toNat s.params.smpMemSamples →
    (48 ≤ r.length → HoldsSamples s.smpMem r) →
    ∃ t found, exec .detectShort s = .next t ∧ Completed s t found ∧ NoMemoryWritten s t ∧
      t.results = { s.results with detIndex := t.results.detIndex } ∧
      let inRange := fun n => n + 48 ≤ r.length ∧ (s.snap.detMaxScan.toNat = 0 ∨ n < s.snap.detMaxScan.toNat)
      let good := fun n => qualifies (shortMetric r n) (f32ToF64 s.snap.detThrShort) = true
      (∀ n, inRange n → good n → (∀ k, k < n → ¬ good k) → found = true ∧ t.results.detIndex.toNat = n) ∧
      ((∀ n, inRange n → ¬ good n) → found = false ∧ t.results.detIndex = 0xFFFFFFFF#32)

/-- DETECT_LONG (R348, R349, R351). -/
def Obligations.DetectLongReportsTheFirstQualifyingPosition : Prop :=
  ∀ (s : State) (r : List C64), r.length = min s.snap.detLen.toNat s.params.smpMemSamples →
    (64 ≤ r.length → HoldsSamples s.smpMem r) →
    ∃ t found, exec .detectLong s = .next t ∧ Completed s t found ∧ NoMemoryWritten s t ∧
      t.results = { s.results with detIndex := t.results.detIndex } ∧
      let inRange := fun n => n + 64 ≤ r.length ∧ (s.snap.detMaxScan.toNat = 0 ∨ n < s.snap.detMaxScan.toNat)
      let good := fun n => qualifies (longMetric r n) (f32ToF64 s.snap.detThrLong) = true
      (∀ n, inRange n → good n → (∀ k, k < n → ¬ good k) → found = true ∧ t.results.detIndex.toNat = n) ∧
      ((∀ n, inRange n → ¬ good n) → found = false ∧ t.results.detIndex = 0xFFFFFFFF#32)

/-- The ideal-input property (R343 item 3, R350 example): on a buffer that begins with the short training sequence, with the reset
threshold, DETECT_SHORT finds index 0, however many further samples and whatever the scan limit. -/
def Obligations.DetectShortFindsAFreshPreambleAtZero : Prop :=
  ∀ (s : State) (r : List C64), r.length = min s.snap.detLen.toNat s.params.smpMemSamples → 161 ≤ r.length →
    r.take 161 = shortTraining hw → HoldsSamples s.smpMem r → s.snap.detThrShort = 0x3F99999A#32 →
    ∃ t, exec .detectShort s = .next t ∧ Completed s t true ∧ NoMemoryWritten s t ∧ t.results.detIndex = 0

/-! ### The stage functions -/

/-- The scrambler sequence (41_scrambler.md R160, R161): each output bit is the input bit XOR z[i], where z is a function of the
seed alone, starts from the register's bits and satisfies z[i] = z[i-4] XOR z[i-7]. -/
def Obligations.ScramblerAddsTheLfsrSequence : Prop :=
  ∃ z : BitVec 7 → Nat → Bool,
    (∀ seed i, z seed i =
      ((if i < 4 then seed.getLsbD (3 - i) else z seed (i - 4)) ^^
       (if i < 7 then seed.getLsbD (6 - i) else z seed (i - 7)))) ∧
    ∀ (seed : BitVec 7) (v : List Bool), (scramble seed v).length = v.length ∧
      ∀ i (h : i < v.length), (scramble seed v)[i]? = some (v[i] ^^ z seed i)

/-- Seed 0 is the identity, every seed's sequence has period 127 (R162), and scrambling twice restores the input (R168). -/
def Obligations.ScramblerPeriodAndInvolution : Prop :=
  (∀ v : List Bool, scramble 0 v = v) ∧
  (∀ (seed : BitVec 7) (n i : Nat), i + 127 < n → (scramble seed (zeros n))[i + 127]? = (scramble seed (zeros n))[i]?) ∧
  (∀ (seed : BitVec 7) (v : List Bool), scramble seed (scramble seed v) = v)

/-- The data field (R163 to R167), bit by bit: SERVICE, PSDU octets in the selected order, TAIL and PAD, scrambled, with the six
tail bits 0. -/
def Obligations.DataFieldIsScrambledWithZeroTail : Prop :=
  ∀ (r : Nat) (p : RateProfile) (seed : BitVec 7) (msb : Bool) (psdu : List Byte), rateRow r = some p →
    (dataField p seed msb psdu).length = (sizing p psdu.length).nData ∧
    ∀ i, i < (sizing p psdu.length).nData →
      (dataField p seed msb psdu)[i]? =
        if 16 + 8 * psdu.length ≤ i ∧ i < 22 + 8 * psdu.length then some false
        else (scramble seed ((List.range (sizing p psdu.length).nData).map fun j =>
          if 16 ≤ j ∧ j < 16 + 8 * psdu.length then
            (psdu.getD ((j - 16) / 8) 0).getLsbD (if msb then 7 - (j - 16) % 8 else (j - 16) % 8)
          else false))[i]?

/-- The convolutional code (42_encoder_puncturer.md R190 to R193): output 2i taps delays 0, 2, 3, 5, 6 and output 2i+1 taps delays
0, 1, 2, 3, 6 of the input, with zeros before its start. -/
def Obligations.ConvEncoderTapsTheGenerators : Prop :=
  ∀ v : List Bool, (convEncode v).length = 2 * v.length ∧
    ∀ i, i < v.length →
      let b := fun d => if d ≤ i then v.getD (i - d) false else false
      (convEncode v)[2 * i]? = some (b 0 ^^ b 2 ^^ b 3 ^^ b 5 ^^ b 6) ∧
      (convEncode v)[2 * i + 1]? = some (b 0 ^^ b 1 ^^ b 2 ^^ b 3 ^^ b 6)

/-- The puncturer (R194 to R196): it keeps, in order, exactly the bits whose index within the period is not dropped, and the output
length is R196's. -/
def Obligations.PuncturerKeepsThePattern : Prop :=
  ∀ c : List Bool,
    puncture .half c = c ∧
    puncture .twoThirds c = (c.zipIdx.filter fun x => decide (x.2 % 4 ≠ 3)).map Prod.fst ∧
    puncture .threeQuarters c = (c.zipIdx.filter fun x => decide (x.2 % 6 ≠ 3 ∧ x.2 % 6 ≠ 4)).map Prod.fst ∧
    (puncture .twoThirds c).length = 3 * (c.length / 4) + c.length % 4 ∧
    (puncture .threeQuarters c).length = 4 * (c.length / 6) + min (c.length % 6) 3 ∧
    (c.length % 4 = 0 → 4 * (puncture .twoThirds c).length = 3 * c.length) ∧
    (c.length % 6 = 0 → 3 * (puncture .threeQuarters c).length = 2 * c.length)

/-- The interleaver (43_interleaver.md R220 to R222): input bit k of every block moves to the position j that R221's formulas give,
and no bit moves between blocks. -/
def Obligations.InterleaverMovesBitsByTheFormulas : Prop :=
  ∀ (r : Nat) (p : RateProfile) (v : List Bool) (n b k : Nat), rateRow r = some p →
    v.length = n * p.nCbps → b < n → k < p.nCbps →
    let s := max (p.nBpsc / 2) 1
    let i := (p.nCbps / 16) * (k % 16) + k / 16
    let j := s * (i / s) + (i + p.nCbps - (16 * i) / p.nCbps) % s
    j < p.nCbps ∧ (interleave p.nCbps p.nBpsc v).length = v.length ∧
      (interleave p.nCbps p.nBpsc v)[b * p.nCbps + j]? = v[b * p.nCbps + k]?

/-- Interleaving and deinterleaving undo each other, in both orders (R224), for every row of the rate table. -/
def Obligations.InterleaverRoundTrips : Prop :=
  ∀ (r : Nat) (p : RateProfile) (v : List Bool), rateRow r = some p → v.length % p.nCbps = 0 →
    deinterleave p.nCbps p.nBpsc (interleave p.nCbps p.nBpsc v) = v ∧
    interleave p.nCbps p.nBpsc (deinterleave p.nCbps p.nBpsc v) = v

/-- The mapper (44_mapper.md R240 to R245, R247): data value m of a block is the point of its chunk's bits, the first bit of a half
giving the sign and the others the magnitude, as the Gray tables have it; BPSK has no Q part. -/
def Obligations.MapperFollowsTheGrayTables : Prop :=
  ∀ (r : Nat) (p : RateProfile) (v : List Bool) (m : Nat), rateRow r = some p → v.length = p.nCbps → m < 48 →
    let b := fun t => v.getD (m * p.nBpsc + t) false
    let sign := fun (x : Bool) => if x then (1 : Int) else -1
    let two := fun (x y : Bool) => sign x * (if y then 1 else 3)
    let three := fun (x y z : Bool) => sign x * (if y then (if z then 3 else 1) else (if z then 5 else 7))
    (mapBlock hw p v).length = 48 ∧
    (mapBlock hw p v)[m]? = some (match p.modulation with
      | .bpsk => hw.point .bpsk (sign (b 0)) 0
      | .qpsk => hw.point .qpsk (sign (b 0)) (sign (b 1))
      | .qam16 => hw.point .qam16 (two (b 0) (b 1)) (two (b 2) (b 3))
      | .qam64 => hw.point .qam64 (three (b 0) (b 1) (b 2)) (three (b 3) (b 4) (b 5)))

/-- The SIGNAL bits (46_preamble_signal.md R301): rate code and LENGTH LSB first, reserved 0, even parity over bits 0 to 17, tail 0. -/
def Obligations.SignalBitsCarryRateLengthAndEvenParity : Prop :=
  ∀ (p : RateProfile) (len : Nat), len ≤ 4095 →
    let f := signalBits p len
    f.length = 24 ∧ (∀ t, t < 4 → f[t]? = some (p.rateCode.getLsbD t)) ∧ f[4]? = some false ∧
    (List.range 12).foldl (fun acc t => acc + (f.getD (5 + t) false).toNat * 2 ^ t) 0 = len ∧
    (f.take 18).count true % 2 = 0 ∧ (∀ t, 18 ≤ t → t < 24 → f[t]? = some false)

/-- The spectrum of a symbol (R261 to R264): zero at DC and in the guard band, the pilots on subcarriers -21, -7, 7 and 21, and the data
values, in order, on the other slots in ascending order. The pilot polarities are the scrambler sequence from seed 0x7F, 0 as +1 and 1 as -1 (R262), and
depend on the symbol index modulo 127 only (R263). -/
def Obligations.SymbolSpectrumLayout : Prop :=
  (∀ (d : List C64) (idx : Nat), d.length = 48 →
    let x := spectrum64 hw (assemble53 hw d idx)
    (∀ b : Fin 64, b.val = 0 ∨ (27 ≤ b.val ∧ b.val ≤ 37) → x.get b = C64.zero) ∧
    x.get 43 = hw.point .bpsk (polarity idx) 0 ∧ x.get 57 = hw.point .bpsk (polarity idx) 0 ∧
    x.get 7 = hw.point .bpsk (polarity idx) 0 ∧ x.get 21 = hw.point .bpsk (-polarity idx) 0 ∧
    (∀ m, m < 48 → ∃ slot b, ((List.range 53).filter fun t => t ∉ [5, 19, 26, 33, 47])[m]? = some slot ∧
      b.val = (slot + 38) % 64 ∧ d[m]? = some (x.get b))) ∧
  (∀ idx, polarity (idx + 127) = polarity idx) ∧
  (∀ i, i < 127 → polarity i = if (scramble 0x7F#7 (zeros 127)).getD i false then -1 else 1)

/-- The edges of one OFDM symbol (R267 to R270), for any arithmetic, and what the seam of two symbols adds up to. -/
def Obligations.SymbolEdgesAndPrefix : Prop :=
  ∀ (α : Type) (A : Arith α) (d d' : List α) (idx idx' : Nat),
    let x := (A.ifft (spectrum64 A (assemble53 A d idx))).toList
    let x' := (A.ifft (spectrum64 A (assemble53 A d' idx'))).toList
    let y := ofdmSymbol A d idx
    let y' := ofdmSymbol A d' idx'
    y.length = 81 ∧ y[0]? = (x[48]?).map A.half ∧ (∀ n, 16 ≤ n → n ≤ 79 → y[n]? = x[n - 16]?) ∧
    (∀ n, 1 ≤ n → n ≤ 15 → y[n]? = x[n + 48]?) ∧ y[80]? = (x[0]?).map A.half ∧
    ∃ a b u v, y[80]? = some a ∧ y'[0]? = some b ∧ x[0]? = some u ∧ x'[48]? = some v ∧
      A.add a b = A.add (A.half u) (A.half v)

/-- The training waveforms (46_preamble_signal.md R292, R294), for any arithmetic, and their spectra bin by bin (R291, R293). Bins 1 to
26 are subcarriers 1 to 26 and bins 38 to 63 are subcarriers -26 to -1. That the short training's nonzero tones are -24, -20,
..., -4 and 4, ..., 24 is the model's reading of R291, whose listing and prose differ (log 22, unsafe). -/
def Obligations.TrainingWaveformsRepeatTheirPeriod : Prop :=
  (∀ (α : Type) (A : Arith α),
    let xs := (shortPeriod A).toList
    let xl := (longPeriod A).toList
    (shortTraining A).length = 161 ∧ (longTraining A).length = 161 ∧
    (∀ n, 1 ≤ n → n ≤ 159 → (shortTraining A)[n]? = xs[n % 64]?) ∧
    (shortTraining A)[0]? = (xs[0]?).map A.half ∧ (shortTraining A)[160]? = (xs[32]?).map A.half ∧
    (∀ n, 1 ≤ n → n ≤ 159 → (longTraining A)[n]? = xl[(n + 32) % 64]?) ∧
    (longTraining A)[0]? = (xl[32]?).map A.half ∧ (longTraining A)[160]? = (xl[0]?).map A.half ∧
    (∃ S L : Vector α 64, shortPeriod A = A.ifft S ∧ longPeriod A = A.ifft L ∧
      ∀ b : Fin 64,
        (b.val = 0 ∨ (27 ≤ b.val ∧ b.val ≤ 37) → S.get b = A.zero ∧ L.get b = A.zero) ∧
        (¬ (b.val = 0 ∨ (27 ≤ b.val ∧ b.val ≤ 37)) →
          S.get b = (if b.val ∈ [40, 48, 60, 12, 16, 20, 24] then A.short 1 1
            else if b.val ∈ [44, 52, 56, 4, 8] then A.short (-1) (-1) else A.short 0 0) ∧
          L.get b = A.point .bpsk (if b.val ∈ [40, 41, 44, 46, 53, 54, 57, 59, 2, 3, 6, 8, 10, 11, 12, 13, 14, 17, 18, 20, 22]
            then -1 else 1) 0))) ∧
  hw.short 1 1 = ⟨0x3FF78D26149296AF#64, 0x3FF78D26149296AF#64⟩ ∧
  hw.short (-1) (-1) = ⟨0xBFF78D26149296AF#64, 0xBFF78D26149296AF#64⟩ ∧ hw.short 0 0 = C64.zero

/-- Frame assembly (47_frame.md R320 to R323), sample by sample, for any arithmetic: one contribution inside a waveform, two at each seam. -/
def Obligations.FrameIsTheOverlapSum : Prop :=
  ∀ (α : Type) (A : Arith α) (sig : List α) (ys : List (List α)), sig.length = 81 → (∀ y ∈ ys, y.length = 81) →
    let f := assembleFrame A sig ys
    let one := fun (x : Option α) => x.map fun a => A.add A.zero a
    let two := fun (x y : Option α) => x.bind fun a => y.map fun b => A.add (A.add A.zero a) b
    f.length = (5 + ys.length) * 80 + 1 ∧
    (∀ n, n ≤ 159 → f[n]? = one (shortTraining A)[n]?) ∧
    f[160]? = two (shortTraining A)[160]? (longTraining A)[0]? ∧
    (∀ n, 1 ≤ n → n ≤ 159 → f[160 + n]? = one (longTraining A)[n]?) ∧
    f[320]? = two (longTraining A)[160]? sig[0]? ∧
    (∀ n, 1 ≤ n → n ≤ 79 → f[320 + n]? = one sig[n]?) ∧
    (ys = [] → f[400]? = one sig[80]?) ∧
    (∀ y, ys[0]? = some y → f[400]? = two sig[80]? y[0]?) ∧
    (∀ m y n, ys[m]? = some y → 1 ≤ n → n ≤ 79 → f[(5 + m) * 80 + n]? = one y[n]?) ∧
    (∀ m y y', ys[m]? = some y → ys[m + 1]? = some y' → f[(5 + (m + 1)) * 80]? = two y[80]? y'[0]?) ∧
    (∀ m y, ys[m]? = some y → m + 1 = ys.length → f[(5 + ys.length) * 80]? = one y[80]?)

/-! ### Numbers -/

/-- binary64 addition is correctly rounded, to nearest with ties to even (00_scope.md R16): for finite operands whose sum is finite, no
finite binary64 is nearer to the exact sum, and where another value is equally near, the result is the one with an even
fraction. The sum is finite exactly when the exact sum lies below the midpoint of the largest finite value and 2^1024; from
there on it is an infinity of its sign. -/
def Obligations.AdditionIsCorrectlyRounded : Prop :=
  ∀ a b : F64, f64IsFinite a = true → f64IsFinite b = true →
    (∀ c : F64, f64IsFinite c = true → f64IsFinite (f64Add a b) = true →
      |f64ToRat (f64Add a b) - (f64ToRat a + f64ToRat b)| ≤ |f64ToRat c - (f64ToRat a + f64ToRat b)| ∧
      (f64ToRat c ≠ f64ToRat (f64Add a b) →
        |f64ToRat (f64Add a b) - (f64ToRat a + f64ToRat b)| = |f64ToRat c - (f64ToRat a + f64ToRat b)| →
        f64Frac (f64Add a b) % 2 = 0)) ∧
    (f64IsFinite (f64Add a b) = true ↔ |f64ToRat a + f64ToRat b| < (2 ^ 54 - 1) * 2 ^ 970) ∧
    (f64IsFinite (f64Add a b) = false → f64Add a b = f64Inf (decide (f64ToRat a + f64ToRat b < 0)))

/-- The window's multiplication by 0.5 is exact except for subnormal results, which round to nearest even (45_symbol_assembler.md
R268), and adding a value to +0.0 returns the value, except that -0.0 becomes +0.0 (47_frame.md R322). -/
def Obligations.HalvingAndAddingToZeroAreExact : Prop :=
  (∀ x : F64, f64IsFinite x = true → f64IsFinite (f64Half x) = true ∧ f64Neg (f64Half x) = f64Neg x ∧
    ((2 ≤ f64Exp x ∨ f64Frac x % 2 = 0) → f64ToRat (f64Half x) = f64ToRat x / 2)) ∧
  (∀ x c : F64, f64IsFinite x = true → f64IsFinite c = true →
    |f64ToRat (f64Half x) - f64ToRat x / 2| ≤ |f64ToRat c - f64ToRat x / 2| ∧
    (f64ToRat c ≠ f64ToRat (f64Half x) → |f64ToRat (f64Half x) - f64ToRat x / 2| = |f64ToRat c - f64ToRat x / 2| →
      f64Frac (f64Half x) % 2 = 0)) ∧
  (∀ x : F64, f64IsNaN x = false → f64Add 0#64 x = if x = 0x8000000000000000#64 then 0#64 else x)

/-- A threshold is converted exactly (10_state.md R48); a position with a defined metric qualifies exactly when the metric is strictly
greater than the converted finite threshold, one with an undefined metric never, and a NaN threshold qualifies no position
(R344, R347). How a metric compares with an infinite threshold is the model's reading (log 23). -/
def Obligations.ThresholdConversionIsExact : Prop :=
  (∀ x : BitVec 32, x.extractLsb' 23 8 ≠ 255#8 →
    f64IsFinite (f32ToF64 x) = true ∧
    f64ToRat (f32ToF64 x) = (if x.getLsbD 31 then -1 else 1) *
      (if x.extractLsb' 23 8 = 0 then ((x.extractLsb' 0 23).toNat : ℚ) / 2 ^ 149
       else (2 ^ 23 + (x.extractLsb' 0 23).toNat : ℚ) * 2 ^ ((x.extractLsb' 23 8).toNat - 1) / 2 ^ 149)) ∧
  (∀ (x : BitVec 32) (metric : Option ℚ), x.extractLsb' 23 8 = 255#8 → x.extractLsb' 0 23 ≠ 0 →
    qualifies metric (f32ToF64 x) = false) ∧
  (∀ (x : BitVec 32) (metric : ℚ), x.extractLsb' 23 8 ≠ 255#8 →
    (qualifies (some metric) (f32ToF64 x) = true ↔ f64ToRat (f32ToF64 x) < metric)) ∧
  (∀ thr : F64, qualifies none thr = false) ∧
  (∀ metric : ℚ, qualifies (some metric) (f32ToF64 0x7F800000#32) = false ∧
    qualifies (some metric) (f32ToF64 0xFF800000#32) = true)

/-- Every constellation component is within half a unit in the last place of its exact value (44_mapper.md R246), and the BPSK Q
component is +0.0 (R242). -/
def Obligations.ConstellationConstantsAreNearest : Prop :=
  ∀ (m : Modulation) (u : Nat) (other : Int), level m u ≠ 0 →
    let near := fun (x : F64) => |((f64ToRat x : ℚ) : ℝ) - (level m u : ℝ) * kMod m| ≤ (2 : ℝ) ^ (f64Exp x) / 2 ^ 1076
    near (hw.point m (level m u) other).re ∧ near (hw.point m other (level m u)).im ∧ (hw.point .bpsk other 0).im = 0#64

/-- Unit average energy (R249), in exact arithmetic: over all values of the two halves the mean of |d|^2 is 1; and
the rule's two example chunks. -/
def Obligations.ConstellationsHaveUnitEnergy : Prop :=
  (∑ u ∈ Finset.range 2, Complex.normSq (exact.point .bpsk (level .bpsk u) 0)) / 2 = 1 ∧
  (∑ u ∈ Finset.range 2, ∑ v ∈ Finset.range 2, Complex.normSq (exact.point .qpsk (level .qpsk u) (level .qpsk v))) / 4 = 1 ∧
  (∑ u ∈ Finset.range 4, ∑ v ∈ Finset.range 4, Complex.normSq (exact.point .qam16 (level .qam16 u) (level .qam16 v))) / 16 = 1 ∧
  (∑ u ∈ Finset.range 8, ∑ v ∈ Finset.range 8, Complex.normSq (exact.point .qam64 (level .qam64 u) (level .qam64 v))) / 64 = 1 ∧
  exact.point .qam64 (level .qam64 0b011) (level .qam64 0b101) = ⟨-3 / Real.sqrt 42, 5 / Real.sqrt 42⟩ ∧
  exact.point .qpsk (level .qpsk 0) (level .qpsk 1) = ⟨-1 / Real.sqrt 2, 1 / Real.sqrt 2⟩

/-! ### The host's accesses -/

/-- Configuration CSRs (10_state.md R35 to R39, R46, R48): a 32-bit host write, IDLE or BUSY (70_reset_and_hazards.md R401), at any of
the register's four byte addresses (20_memory.md R84, R85), makes the register read as the written word with the reserved bits
0; no other CSR, not the snapshot and no memory changes. Without the detector the detector CSRs read 0. What each register reads
as, field by field. -/
def Obligations.ConfigCsrWritesReadBack : Prop :=
  (∀ (s : State) (off mask j : Nat) (w : Word) (rest : List HostOp), j < 4 →
    (off, mask) ∈ [(0x08, 0x13F), (0x0C, 0x7F), (0x10, 0xFFFF), (0x14, 0xFFFFFF), (0x18, 0xFFFF), (0x1C, 0xFFFFFF),
      (0x20, 0xFFFFFF), (0x24, 0xFFFFFFFF), (0x28, 0xFFFFFFFF)] →
    HostTurn s (.write (s.params.base + off + j) .w32 w) rest →
    ∃ regs, step s = .next { Issued s rest with regs := regs } ∧
      ({ Issued s rest with regs := regs }).csrRead off =
        (if 0x1C ≤ off ∧ s.params.hasDetector = false then 0 else w &&& BitVec.ofNat 32 mask) ∧
      ∀ off', off' ≠ off → ({ Issued s rest with regs := regs }).csrRead off' = s.csrRead off') ∧
  (∀ s : State,
    (s.csrRead 0x08).toNat = s.regs.rate.toNat + 16 * s.regs.bw.toNat + (if s.regs.psduMsbFirst then 256 else 0) ∧
    (s.csrRead 0x0C).toNat = s.regs.seed.toNat ∧ (s.csrRead 0x10).toNat = s.regs.psduLen.toNat ∧
    (s.csrRead 0x14).toNat = s.regs.stageLen.toNat ∧ (s.csrRead 0x18).toNat = s.regs.symIndex.toNat ∧
    (s.csrRead 0x1C).toNat = (if s.params.hasDetector then s.regs.detLen.toNat else 0) ∧
    (s.csrRead 0x20).toNat = (if s.params.hasDetector then s.regs.detMaxScan.toNat else 0) ∧
    s.csrRead 0x24 = (if s.params.hasDetector then s.regs.detThrShort else 0) ∧
    s.csrRead 0x28 = (if s.params.hasDetector then s.regs.detThrLong else 0))

/-- Unimplemented addresses (20_memory.md R88): offsets outside every window, offsets of a memory window beyond its implemented
size, and offsets from 0x800000 on. A host write there is ignored and a host read returns 0, without an error. -/
def Obligations.UnimplementedAddressesDoNothing : Prop :=
  ∀ (s : State) (off : Nat) (width : Width),
    ((0x100 ≤ off ∧ off < 0x100000) ∨ (0x300000 ≤ off ∧ off < 0x400000) ∨ 0x800000 ≤ off ∨
      ∃ sp k, off = windowOffset sp + k ∧ off < windowEnd sp ∧ memBytes s.params sp ≤ k - k % width.bytes) →
    s.readValue (s.params.base + off) width = 0 ∧
    ∀ (w : Word) (rest : List HostOp), HostTurn s (.write (s.params.base + off) width w) rest → step s = .next (Issued s rest)

/-- Writes to read-only CSRs and to reserved offsets, at each of their byte addresses (20_memory.md R84, R85), and 8-bit and 16-bit
writes to the CSR window (R84), have no effect; CMD (10_state.md R33) and reserved offsets (R49) read 0. The result CSRs read the
results of the last command that wrote them, zero-extended (R40 to R45), and CAPS the parameters (R47). -/
def Obligations.IgnoredCsrWrites : Prop :=
  (∀ (s : State) (off : Nat) (w : Word) (rest : List HostOp),
    ((∃ r j, r ∈ [0x2C, 0x30, 0x34, 0x38, 0x3C, 0x40, 0x44, 0x48] ∧ j < 4 ∧ off = r + j) ∨ (0x4C ≤ off ∧ off < 0x100)) →
    HostTurn s (.write (s.params.base + off) .w32 w) rest → step s = .next (Issued s rest)) ∧
  (∀ (s : State) (off : Nat) (width : Width) (w : Word) (rest : List HostOp), off < 0x100 → width ≠ .w32 →
    HostTurn s (.write (s.params.base + off) width w) rest → step s = .next (Issued s rest)) ∧
  (∀ (s : State) (off : Nat), off = 0x00 ∨ off = 0x2C ∨ 0x4C ≤ off → s.csrRead off = 0) ∧
  (∀ s : State,
    (s.csrRead 0x30).toNat = s.results.nSym.toNat ∧ (s.csrRead 0x34).toNat = s.results.nPad.toNat ∧
    (s.csrRead 0x38).toNat = s.results.nData.toNat ∧ s.csrRead 0x3C = s.results.outLen ∧
    (s.csrRead 0x40).toNat = s.results.txTime.toNat ∧
    s.csrRead 0x44 = (if s.params.hasDetector then s.results.detIndex else 0) ∧
    (s.params.wellFormed = true →
      (s.csrRead 0x48).toNat = s.params.maxPsdu + (if s.params.hasDetector then 65536 else 0)))

/-- A 32-bit host write to STATUS (10_state.md R34), at any of its four byte addresses (20_memory.md R84, R85): CMD_DROPPED is cleared exactly when bit 4 of the word is 1, and nothing else of the
block changes; the STATUS word has its bits where R34 puts them, and ERRCODE reads as the numbers of 60_exceptions.md R360. -/
def Obligations.StatusWriteClearsOnlyCmdDropped : Prop :=
  (∀ (s : State) (j : Nat) (w : Word) (rest : List HostOp), j < 4 →
    HostTurn s (.write (s.params.base + 0x04 + j) .w32 w) rest →
    step s = .next { Issued s rest with
      status := { s.status with cmdDropped := s.status.cmdDropped && !w.getLsbD 4 } }) ∧
  (∀ s : State, (s.csrRead 0x04).getLsbD 0 = decide (s.phase = .busy) ∧ (s.csrRead 0x04).getLsbD 1 = s.status.done ∧
    (s.csrRead 0x04).getLsbD 2 = s.status.err ∧ (s.csrRead 0x04).getLsbD 3 = s.status.found ∧
    (s.csrRead 0x04).getLsbD 4 = s.status.cmdDropped ∧ (s.csrRead 0x04).extractLsb' 5 3 = 0 ∧
    (s.csrRead 0x04).extractLsb' 12 20 = 0) ∧
  (∀ s : State, (s.csrRead 0x04).extractLsb' 8 4 =
    match s.status.errCode with
    | .none => 0#4
    | .illegalCommand => 1#4
    | .invalidDataRate => 2#4
    | .psduTooLarge => 3#4
    | .bufferSizeMismatch => 4#4)

/-- Host reads have no side effect (20_memory.md R92): the value of the read at that address and width is returned and nothing of the
block changes. In the CSR window an access returns the addressed bytes of the aligned 32-bit value (R84); that a misaligned
16-bit read there aligns as R85 says is the model's reading (log 17). A turn of the host's poll (30_encoding.md R118) returns
STATUS and is repeated while the block is BUSY; one turn a step is the model's reading (log 21). -/
def Obligations.HostReadsChangeNothing : Prop :=
  (∀ (s : State) (addr : Nat) (width : Width) (rest : List HostOp), HostTurn s (.read addr width) rest →
    step s = .next { Issued s rest with
      responses := s.readValue addr width :: s.responses, draws := s.draws + width.bytes }) ∧
  (∀ (s : State) (off : Nat) (width : Width), off < 0x100 →
    s.readValue (s.params.base + off) width =
      BitVec.ofNat 32 ((s.csrRead (off - off % 4)).toNat / 256 ^ ((off - off % width.bytes) % 4) % 256 ^ width.bytes)) ∧
  (∀ (s : State) (rest : List HostOp), HostTurn s .poll rest →
    step s = .next { Issued s (if s.phase = .busy then .poll :: rest else rest) with
      responses := s.csrRead 0x04 :: s.responses })

/-- Host writes to a memory while IDLE (R85, R86): the aligned unit that holds the addressed byte receives the low bytes of the data,
least significant first; every other byte of every memory keeps its value, and nothing else of the block changes. -/
def Obligations.HostMemoryWritesAreLittleEndianUnits : Prop :=
  ∀ (s : State) (sp : MemSpace) (k : Nat) (width : Width) (w : Word) (rest : List HostOp),
    s.params.wellFormed = true → s.phase = .idle → k - k % width.bytes + width.bytes ≤ memBytes s.params sp →
    HostTurn s (.write (s.params.base + windowOffset sp + k) width w) rest →
    ∃ t, step s = .next t ∧
      (∀ j, j < width.bytes → (t.mem sp).read (k - k % width.bytes + j) = some (BitVec.ofNat 8 (w.toNat / 256 ^ j))) ∧
      (∀ a, a < k - k % width.bytes ∨ k - k % width.bytes + width.bytes ≤ a → (t.mem sp).read a = (s.mem sp).read a) ∧
      (∀ sp', sp' ≠ sp → t.mem sp' = s.mem sp') ∧
      { t with inMem := s.inMem, bitMem := s.bitMem, smpMem := s.smpMem } = Issued s rest

/-- Host reads of memory bytes (R85, R86): a written byte outside the running command's output range reads as its value, little-endian
within the aligned unit; an unwritten byte (70_reset_and_hazards.md R391) or one of that output range (R405) reads as the byte drawn
for it. -/
def Obligations.HostMemoryReadsReturnContentsOrDraws : Prop :=
  ∀ (s : State) (sp : MemSpace) (k : Nat) (width : Width),
    s.params.wellFormed = true → k - k % width.bytes + width.bytes ≤ memBytes s.params sp →
    ∀ j, j < width.bytes →
      let a := k - k % width.bytes + j
      (s.readValue (s.params.base + windowOffset sp + k) width).extractLsb' (8 * j) 8 =
        if s.inRunningOutput sp a = true then Config.freeByte (s.draws + j)
        else ((s.mem sp).read a).getD (Config.freeByte (s.draws + j))

/-- The hazard of 70_reset_and_hazards.md R404, at every width: while BUSY, a host write whose aligned unit has a byte in the running
command's input or output range is a fault, and one whose unit lies outside both ranges takes effect. That the fault names the
lowest such byte, and what the ranges of an erring command are, is the model's reading (log 15). -/
def Obligations.BusyMemoryWriteHazard : Prop :=
  ∀ (s : State) (sp : MemSpace) (k : Nat) (width : Width) (w : Word) (rest : List HostOp),
    s.params.wellFormed = true → s.phase = .busy → k - k % width.bytes + width.bytes ≤ memBytes s.params sp →
    HostTurn s (.write (s.params.base + windowOffset sp + k) width w) rest →
    let unit := k - k % width.bytes
    let inRange := fun i a => inExtent (s.inputRange i) sp a = true ∨ inExtent (s.outputRange i) sp a = true
    (∀ i a, decode s.params.hasDetector s.cmd = .ok i → unit ≤ a → a < unit + width.bytes → inRange i a →
      (∀ b, unit ≤ b → b < a → ¬ inRange i b) → step s = .fault (.busyWriteHazard sp a)) ∧
    ((∀ i, decode s.params.hasDetector s.cmd = .ok i → ∀ a, unit ≤ a → a < unit + width.bytes → ¬ inRange i a) →
      ∃ t, step s = .next t ∧
        (∀ j, j < width.bytes → (t.mem sp).read (unit + j) = some (BitVec.ofNat 8 (w.toNat / 256 ^ j))) ∧
        (∀ a, a < unit ∨ unit + width.bytes ≤ a → (t.mem sp).read a = (s.mem sp).read a) ∧
        (∀ sp', sp' ≠ sp → t.mem sp' = s.mem sp') ∧
        { t with inMem := s.inMem, bitMem := s.bitMem, smpMem := s.smpMem } = Issued s rest)

/-- The output range of 20_memory.md R89 is what a command writes: no byte outside it changes when the command completes. -/
def Obligations.CommandsWriteOnlyTheirOutputRange : Prop :=
  ∀ (i : Instr) (s t : State) (sp : MemSpace) (k : Nat), exec i s = .next t →
    inExtent (s.outputRange i) sp k = false → (t.mem sp).read k = (s.mem sp).read k

/-! ### Reset -/

/-- The reset input (70_reset_and_hazards.md R390 to R393): the engine is IDLE with cmd 0, every CSR reads its reset value, a running
command is abandoned, and every byte outside its output range keeps its value. That the host's queue and the responses stay
is the model's choice (log 28). -/
def Obligations.ResetInputRestoresEveryCsr : Prop :=
  ∀ (s : State) (rest : List HostOp), HostTurn s .reset rest →
    ∃ t, step s = .next t ∧ t.phase = .idle ∧ t.cmd = 0 ∧ t.params = s.params ∧ t.pending = rest ∧
      t.responses = s.responses ∧
      (∀ off, t.csrRead off = (State.powerOn s.params).csrRead off) ∧
      (∀ sp k, s.phase = .idle → (t.mem sp).read k = (s.mem sp).read k) ∧
      (∀ sp k i, decode s.params.hasDetector s.cmd = .ok i → inExtent (s.outputRange i) sp k = false →
        (t.mem sp).read k = (s.mem sp).read k) ∧
      ((∀ i, decode s.params.hasDetector s.cmd ≠ .ok i) → ∀ sp k, (t.mem sp).read k = (s.mem sp).read k)

/-- What the host reads after reset (R390, 10_state.md R33 to R49), with the default parameters (00_scope.md R8, R10). -/
def Obligations.ResetValuesOfTheCsrs : Prop :=
  State.reset.phase = .idle ∧ State.reset.cmd = 0 ∧
  (∀ off ∈ [0x00, 0x04, 0x08, 0x10, 0x14, 0x18, 0x1C, 0x20, 0x2C, 0x30, 0x34, 0x38, 0x3C, 0x40],
    State.reset.csrRead off = 0) ∧
  State.reset.csrRead 0x0C = 0x0000005D#32 ∧ State.reset.csrRead 0x24 = 0x3F99999A#32 ∧
  State.reset.csrRead 0x28 = 0x40000000#32 ∧ State.reset.csrRead 0x44 = 0xFFFFFFFF#32 ∧
  State.reset.csrRead 0x48 = 0x00010FFF#32

/-! ### The whole machine -/

/-- Every step keeps the invariant. -/
def Obligations.EveryStepKeepsTheInvariant : Prop :=
  ∀ s t : State, Inv s → step s = .next t → Inv t

/-- Every block's power-on state has the invariant, the reset machine's among them. -/
def Obligations.PowerOnHasTheInvariant : Prop :=
  (∀ p : Params, p.wellFormed = true → Inv (State.powerOn p)) ∧ Inv State.reset

/-- A command completes (70_reset_and_hazards.md R408): from a BUSY state, within the drawn number of host operations and one more step,
the block is IDLE again or the run has ended in a fault. -/
def Obligations.BusyBlockCompletes : Prop :=
  ∀ s : State, s.phase = .busy →
    ∃ k, k ≤ s.delay + 1 ∧
      ((∃ t : State, Sys2Proof.core.run k s = .next t ∧ t.phase = .idle) ∨ ∃ f : Fault, Sys2Proof.core.run k s = .fault f)

/-- While a command stays in progress (R402), no step changes the latched word, the snapshot, the result CSRs or DONE, ERR, FOUND and
ERRCODE; and STATUS then reads BUSY = 1 with CMD_DROPPED as set and every other bit 0. -/
def Obligations.ResultsStandStillWhileBusy : Prop :=
  (∀ s t : State, s.phase = .busy → step s = .next t → t.phase = .busy →
    t.cmd = s.cmd ∧ t.snap = s.snap ∧ t.results = s.results ∧
    t.status = { s.status with cmdDropped := t.status.cmdDropped }) ∧
  (∀ s : State, Inv s → s.phase = .busy →
    s.csrRead 0x04 = if s.status.cmdDropped then 0x00000011#32 else 0x00000001#32)

/-- The snapshot and the latched word are not read while IDLE (10_state.md R31): two IDLE states that differ only in them answer the
same, and a next state that is still IDLE differs only in them. -/
def Obligations.IdleBlockIgnoresTheSnapshot : Prop :=
  ∀ (s t : State) (c : Word) (x : ConfigRegs), s.phase = .idle → step s = .next t →
    ∃ t', step { s with cmd := c, snap := x } = .next t' ∧ { t' with cmd := t.cmd, snap := t.snap } = t ∧
      (t.phase = .busy → t' = t)

/-- A command never depends on memory outside its input range (20_memory.md R89, R98): with the same parameters and snapshot, and the
same bytes in the input range, it raises the same error, or makes the same outputs. -/
def Obligations.CommandsReadOnlyTheirInputRange : Prop :=
  ∀ (i : Instr) (s s' t : State), s'.params = s.params → s'.snap = s.snap →
    (∀ sp k, inExtent (s.inputRange i) sp k = true → (s'.mem sp).read k = (s.mem sp).read k) →
    exec i s = .next t →
    ∃ t', exec i s' = .next t' ∧ t'.status.err = t.status.err ∧ t'.status.errCode = t.status.errCode ∧
      t'.status.found = t.status.found ∧ (s'.results = s.results → t'.results = t.results) ∧
      (∀ sp k, inExtent (s.outputRange i) sp k = true → (t'.mem sp).read k = (t.mem sp).read k)
end

