-- ==== Sys2Proof/Laws/State.lean ====
section
/-! SUPPORT. One lemma per field per update of the state, true by rfl. -/

namespace Sys2Proof.Laws

open Sys2Proof.Machine

/-! ### Acceptance (60_exceptions.md R370) -/

@[simp] theorem accept_params (s : State) (w : Word) (d : Nat) : (s.accept w d).params = s.params := rfl
@[simp] theorem accept_phase (s : State) (w : Word) (d : Nat) : (s.accept w d).phase = .busy := rfl
@[simp] theorem accept_cmd (s : State) (w : Word) (d : Nat) : (s.accept w d).cmd = w := rfl
@[simp] theorem accept_snap (s : State) (w : Word) (d : Nat) : (s.accept w d).snap = s.regs := rfl
@[simp] theorem accept_status (s : State) (w : Word) (d : Nat) : (s.accept w d).status = s.status.accepted := rfl
@[simp] theorem accept_regs (s : State) (w : Word) (d : Nat) : (s.accept w d).regs = s.regs := rfl
@[simp] theorem accept_results (s : State) (w : Word) (d : Nat) : (s.accept w d).results = s.results := rfl
@[simp] theorem accept_inMem (s : State) (w : Word) (d : Nat) : (s.accept w d).inMem = s.inMem := rfl
@[simp] theorem accept_bitMem (s : State) (w : Word) (d : Nat) : (s.accept w d).bitMem = s.bitMem := rfl
@[simp] theorem accept_smpMem (s : State) (w : Word) (d : Nat) : (s.accept w d).smpMem = s.smpMem := rfl
@[simp] theorem accept_delay (s : State) (w : Word) (d : Nat) : (s.accept w d).delay = d := rfl
@[simp] theorem accept_draws (s : State) (w : Word) (d : Nat) : (s.accept w d).draws = s.draws := rfl
@[simp] theorem accept_pending (s : State) (w : Word) (d : Nat) : (s.accept w d).pending = s.pending := rfl
@[simp] theorem accept_responses (s : State) (w : Word) (d : Nat) : (s.accept w d).responses = s.responses := rfl

/-! ### Successful completion (R372) -/

@[simp] theorem succeedWith_params (s : State) (e : Effects) : (s.succeedWith e).params = s.params := rfl
@[simp] theorem succeedWith_phase (s : State) (e : Effects) : (s.succeedWith e).phase = .idle := rfl
@[simp] theorem succeedWith_cmd (s : State) (e : Effects) : (s.succeedWith e).cmd = s.cmd := rfl
@[simp] theorem succeedWith_snap (s : State) (e : Effects) : (s.succeedWith e).snap = s.snap := rfl
@[simp] theorem succeedWith_status (s : State) (e : Effects) :
    (s.succeedWith e).status = s.status.succeeded e.found := rfl
@[simp] theorem succeedWith_regs (s : State) (e : Effects) : (s.succeedWith e).regs = s.regs := rfl
@[simp] theorem succeedWith_results (s : State) (e : Effects) : (s.succeedWith e).results = s.results.apply e := rfl
@[simp] theorem succeedWith_inMem (s : State) (e : Effects) : (s.succeedWith e).inMem = s.inMem := rfl
@[simp] theorem succeedWith_bitMem (s : State) (e : Effects) :
    (s.succeedWith e).bitMem = bitMemAfter s.bitMem e.bits := rfl
@[simp] theorem succeedWith_smpMem (s : State) (e : Effects) :
    (s.succeedWith e).smpMem = smpMemAfter s.smpMem e.samples := rfl
@[simp] theorem succeedWith_delay (s : State) (e : Effects) : (s.succeedWith e).delay = s.delay := rfl
@[simp] theorem succeedWith_draws (s : State) (e : Effects) : (s.succeedWith e).draws = s.draws := rfl
@[simp] theorem succeedWith_pending (s : State) (e : Effects) : (s.succeedWith e).pending = s.pending := rfl
@[simp] theorem succeedWith_responses (s : State) (e : Effects) : (s.succeedWith e).responses = s.responses := rfl

/-! ### Error completion (R365) -/

@[simp] theorem failWith_params (s : State) (c : ErrorCode) : (s.failWith c).params = s.params := rfl
@[simp] theorem failWith_phase (s : State) (c : ErrorCode) : (s.failWith c).phase = .idle := rfl
@[simp] theorem failWith_cmd (s : State) (c : ErrorCode) : (s.failWith c).cmd = s.cmd := rfl
@[simp] theorem failWith_snap (s : State) (c : ErrorCode) : (s.failWith c).snap = s.snap := rfl
@[simp] theorem failWith_status (s : State) (c : ErrorCode) : (s.failWith c).status = s.status.failed c := rfl
@[simp] theorem failWith_regs (s : State) (c : ErrorCode) : (s.failWith c).regs = s.regs := rfl
@[simp] theorem failWith_results (s : State) (c : ErrorCode) : (s.failWith c).results = s.results := rfl
@[simp] theorem failWith_inMem (s : State) (c : ErrorCode) : (s.failWith c).inMem = s.inMem := rfl
@[simp] theorem failWith_bitMem (s : State) (c : ErrorCode) : (s.failWith c).bitMem = s.bitMem := rfl
@[simp] theorem failWith_smpMem (s : State) (c : ErrorCode) : (s.failWith c).smpMem = s.smpMem := rfl
@[simp] theorem failWith_delay (s : State) (c : ErrorCode) : (s.failWith c).delay = s.delay := rfl
@[simp] theorem failWith_draws (s : State) (c : ErrorCode) : (s.failWith c).draws = s.draws := rfl
@[simp] theorem failWith_pending (s : State) (c : ErrorCode) : (s.failWith c).pending = s.pending := rfl
@[simp] theorem failWith_responses (s : State) (c : ErrorCode) : (s.failWith c).responses = s.responses := rfl

/-! ### STATUS updates (10_state.md R34) -/

@[simp] theorem accepted_done (st : Status) : st.accepted.done = false := rfl
@[simp] theorem accepted_err (st : Status) : st.accepted.err = false := rfl
@[simp] theorem accepted_found (st : Status) : st.accepted.found = false := rfl
@[simp] theorem accepted_errCode (st : Status) : st.accepted.errCode = .none := rfl
@[simp] theorem accepted_cmdDropped (st : Status) : st.accepted.cmdDropped = st.cmdDropped := rfl
@[simp] theorem dropped_done (st : Status) : st.dropped.done = st.done := rfl
@[simp] theorem dropped_err (st : Status) : st.dropped.err = st.err := rfl
@[simp] theorem dropped_found (st : Status) : st.dropped.found = st.found := rfl
@[simp] theorem dropped_errCode (st : Status) : st.dropped.errCode = st.errCode := rfl
@[simp] theorem dropped_cmdDropped (st : Status) : st.dropped.cmdDropped = true := rfl
@[simp] theorem succeeded_done (st : Status) (f : Bool) : (st.succeeded f).done = true := rfl
@[simp] theorem succeeded_err (st : Status) (f : Bool) : (st.succeeded f).err = false := rfl
@[simp] theorem succeeded_found (st : Status) (f : Bool) : (st.succeeded f).found = f := rfl
@[simp] theorem succeeded_errCode (st : Status) (f : Bool) : (st.succeeded f).errCode = .none := rfl
@[simp] theorem succeeded_cmdDropped (st : Status) (f : Bool) : (st.succeeded f).cmdDropped = st.cmdDropped := rfl
@[simp] theorem failed_done (st : Status) (c : ErrorCode) : (st.failed c).done = true := rfl
@[simp] theorem failed_err (st : Status) (c : ErrorCode) : (st.failed c).err = true := rfl
@[simp] theorem failed_found (st : Status) (c : ErrorCode) : (st.failed c).found = false := rfl
@[simp] theorem failed_errCode (st : Status) (c : ErrorCode) : (st.failed c).errCode = c := rfl
@[simp] theorem failed_cmdDropped (st : Status) (c : ErrorCode) : (st.failed c).cmdDropped = st.cmdDropped := rfl

/-! ### Replacing a memory -/

@[simp] theorem setMem_params (s : State) (sp : MemSpace) (m : Memory) : (s.setMem sp m).params = s.params := by cases sp <;> rfl
@[simp] theorem setMem_phase (s : State) (sp : MemSpace) (m : Memory) : (s.setMem sp m).phase = s.phase := by cases sp <;> rfl
@[simp] theorem setMem_cmd (s : State) (sp : MemSpace) (m : Memory) : (s.setMem sp m).cmd = s.cmd := by cases sp <;> rfl
@[simp] theorem setMem_snap (s : State) (sp : MemSpace) (m : Memory) : (s.setMem sp m).snap = s.snap := by cases sp <;> rfl
@[simp] theorem setMem_status (s : State) (sp : MemSpace) (m : Memory) : (s.setMem sp m).status = s.status := by cases sp <;> rfl
@[simp] theorem setMem_regs (s : State) (sp : MemSpace) (m : Memory) : (s.setMem sp m).regs = s.regs := by cases sp <;> rfl
@[simp] theorem setMem_results (s : State) (sp : MemSpace) (m : Memory) : (s.setMem sp m).results = s.results := by
  cases sp <;> rfl
@[simp] theorem setMem_delay (s : State) (sp : MemSpace) (m : Memory) : (s.setMem sp m).delay = s.delay := by cases sp <;> rfl
@[simp] theorem setMem_draws (s : State) (sp : MemSpace) (m : Memory) : (s.setMem sp m).draws = s.draws := by cases sp <;> rfl
@[simp] theorem setMem_pending (s : State) (sp : MemSpace) (m : Memory) : (s.setMem sp m).pending = s.pending := by
  cases sp <;> rfl
@[simp] theorem setMem_responses (s : State) (sp : MemSpace) (m : Memory) : (s.setMem sp m).responses = s.responses := by
  cases sp <;> rfl
@[simp] theorem setMem_mem_self (s : State) (sp : MemSpace) (m : Memory) : (s.setMem sp m).mem sp = m := by cases sp <;> rfl

theorem setMem_mem_ne (s : State) {sp sp' : MemSpace} (m : Memory) (h : sp' ≠ sp) :
    (s.setMem sp m).mem sp' = s.mem sp' := by
  cases sp <;> cases sp' <;> first | rfl | exact absurd rfl h

end Sys2Proof.Laws
end

