-- ==== Sys2Proof/Laws/Memory.lean ====
section
/-! SUPPORT. What reading one memory gives after a store, and that every store keeps the canonical form. -/

namespace Sys2Proof.Laws

open Sys2Proof.Machine

@[simp] theorem read_nil (a : Nat) : Memory.read [] a = none := rfl

theorem read_cons (c : Host.Cell) (m : Memory) (a : Nat) :
    Memory.read (c :: m) a = if c.1 = a then some c.2 else Memory.read m a := rfl

/-- An address no entry has reads as unwritten. -/
theorem read_eq_none {m : Memory} {a : Nat} (h : ∀ c ∈ m, c.1 ≠ a) : m.read a = none := by
  induction m with
  | nil => rfl
  | cons c m ih =>
    rw [read_cons, if_neg (h c (by simp))]
    exact ih fun c' h' => h c' (by simp [h'])

theorem read_append (m n : Memory) (a : Nat) : Memory.read (m ++ n) a = (m.read a).or (n.read a) := by
  induction m with
  | nil => simp
  | cons c m ih =>
    simp only [List.cons_append, read_cons]
    split <;> simp [ih]

/-- Keeping the entries whose address satisfies a test. -/
theorem read_filter (m : Memory) (p : Nat → Bool) (a : Nat) :
    Memory.read (m.filter fun c => p c.1) a = if p a then m.read a else none := by
  induction m with
  | nil => simp
  | cons c m ih =>
    by_cases hc : c.1 = a
    · subst hc; by_cases hp : p c.1 <;> simp [hp, read_cons, ih]
    · by_cases hp : p c.1 <;> simp [hp, read_cons, ih, hc]

theorem cellsFrom_addr {a : Nat} {bs : List Byte} {c : Host.Cell} (h : c ∈ cellsFrom a bs) :
    a ≤ c.1 ∧ c.1 < a + bs.length := by
  induction bs generalizing a with
  | nil => simp [cellsFrom] at h
  | cons b bs ih =>
    rcases List.mem_cons.mp h with rfl | h
    · simp
    · have := ih h; simp only [List.length_cons]; omega

theorem read_cellsFrom (a : Nat) (bs : List Byte) (k : Nat) :
    (cellsFrom a bs).read k = if a ≤ k then bs[k - a]? else none := by
  induction bs generalizing a with
  | nil => simp [cellsFrom]
  | cons b bs ih =>
    rw [cellsFrom, read_cons, ih]
    by_cases h : a = k
    · subst h; simp
    · by_cases h' : a + 1 ≤ k
      · have h2 : k - a = (k - (a + 1)) + 1 := by omega
        rw [if_neg h, if_pos h', if_pos (by omega), h2, List.getElem?_cons_succ]
      · rw [if_neg h, if_neg h', if_neg (by omega)]

/-- Reading after a store: the stored bytes inside the block, the old contents outside it. -/
theorem read_writeBlock (m : Memory) (a : Nat) (bs : List Byte) (k : Nat) :
    (m.writeBlock a bs).read k = if a ≤ k ∧ k < a + bs.length then bs[k - a]? else m.read k := by
  rw [Memory.writeBlock, read_append, read_append, read_cellsFrom,
    read_filter m (fun x => decide (x < a)), read_filter m (fun x => decide (a + bs.length ≤ x))]
  by_cases h1 : k < a
  · rw [if_pos (by simpa using h1), if_neg (by omega), if_neg (by simp; omega), if_neg (by omega)]
    cases m.read k <;> rfl
  · by_cases h2 : k < a + bs.length
    · rw [if_neg (by simpa using h1), if_pos (by omega), if_neg (by simp; omega), if_pos (by omega)]
      have h3 : k - a < bs.length := by omega
      simp [List.getElem?_eq_getElem h3]
    · rw [if_neg (by simpa using h1), if_pos (by omega), if_pos (by simp; omega), if_neg (by omega)]
      have h3 : bs.length ≤ k - a := by omega
      simp [List.getElem?_eq_none h3]

theorem read_writeBlock_inside {m : Memory} {a : Nat} {bs : List Byte} {k : Nat} (h1 : a ≤ k) (h2 : k < a + bs.length) :
    (m.writeBlock a bs).read k = bs[k - a]? := by rw [read_writeBlock, if_pos ⟨h1, h2⟩]

theorem read_writeBlock_outside {m : Memory} {a : Nat} {bs : List Byte} {k : Nat} (h : k < a ∨ a + bs.length ≤ k) :
    (m.writeBlock a bs).read k = m.read k := by rw [read_writeBlock, if_neg (by omega)]

theorem read_write (m : Memory) (a : Nat) (b : Byte) (k : Nat) :
    (m.write a b).read k = if k = a then some b else m.read k := by
  rw [Memory.write, read_writeBlock]
  by_cases h : k = a
  · subst h; simp
  · rw [if_neg h, if_neg (by simp only [List.length_cons, List.length_nil]; omega)]

@[simp] theorem writeBlock_nil (m : Memory) : m.writeBlock 0 [] = m := by
  simp [Memory.writeBlock, cellsFrom]

/-! ### The canonical form -/

theorem cellsFrom_wf (a : Nat) (bs : List Byte) : Memory.wf (cellsFrom a bs) := by
  induction bs generalizing a with
  | nil => exact List.Pairwise.nil
  | cons b bs ih =>
    refine List.Pairwise.cons (fun c hc => ?_) (ih (a + 1))
    have := cellsFrom_addr hc
    show a < c.1
    omega

/-- Every store keeps the canonical form. -/
theorem writeBlock_wf {m : Memory} (hm : m.wf) (a : Nat) (bs : List Byte) : (m.writeBlock a bs).wf := by
  unfold Memory.writeBlock
  refine List.pairwise_append.mpr ⟨List.pairwise_append.mpr ⟨hm.filter _, cellsFrom_wf a bs, ?_⟩, hm.filter _, ?_⟩
  · intro x hx y hy
    have h1 : x.1 < a := by simpa using (List.mem_filter.mp hx).2
    have h2 := cellsFrom_addr hy
    omega
  · intro x hx y hy
    have h2 : a + bs.length ≤ y.1 := by simpa using (List.mem_filter.mp hy).2
    rcases List.mem_append.mp hx with hx | hx
    · have h1 : x.1 < a := by simpa using (List.mem_filter.mp hx).2
      omega
    · have h1 := cellsFrom_addr hx
      omega

theorem write_wf {m : Memory} (hm : m.wf) (a : Nat) (b : Byte) : (m.write a b).wf := writeBlock_wf hm a [b]

/-- A store adds addresses of its own block only. -/
theorem writeBlock_addr {m : Memory} {a : Nat} {bs : List Byte} {c : Host.Cell} (h : c ∈ m.writeBlock a bs) :
    c ∈ m ∨ (a ≤ c.1 ∧ c.1 < a + bs.length) := by
  unfold Memory.writeBlock at h
  rcases List.mem_append.mp h with h | h
  · rcases List.mem_append.mp h with h | h
    · exact .inl (List.mem_filter.mp h).1
    · exact .inr (cellsFrom_addr h)
  · exact .inl (List.mem_filter.mp h).1

theorem bitMemAfter_wf {m : Memory} (hm : m.wf) (o : Option (List Bool)) : (bitMemAfter m o).wf := by
  cases o with
  | none => exact hm
  | some w => exact writeBlock_wf hm _ _

theorem smpMemAfter_wf {m : Memory} (hm : m.wf) (o : Option (List C64)) : (smpMemAfter m o).wf := by
  cases o with
  | none => exact hm
  | some w => exact writeBlock_wf hm _ _

/-- The reset machine's memories have the canonical form. -/
theorem reset_mem_wf (sp : MemSpace) : (State.reset.mem sp).wf := by cases sp <;> exact List.Pairwise.nil

/-! ### Storing bytes one by one (20_memory.md R85) -/

theorem storeBytes_wf (bytes : List (MemSpace × Nat × Byte)) (s : State) (h : ∀ sp, (s.mem sp).wf) (sp : MemSpace) :
    ((s.storeBytes bytes).mem sp).wf := by
  induction bytes generalizing s with
  | nil => exact h sp
  | cons x rest ih =>
    obtain ⟨sp', k, b⟩ := x
    refine ih _ fun sp'' => ?_
    by_cases hs : sp'' = sp'
    · subst hs; rw [setMem_mem_self]; exact write_wf (h _) k b
    · rw [setMem_mem_ne s _ hs]; exact h sp''

end Sys2Proof.Laws
end

