-- ==== Sys2Proof/Laws/Bits.lean ====
section
/-! SUPPORT. Packing bits and samples into bytes and reading them back (00_scope.md R14, 20_memory.md R83, R86, R90). -/

namespace Sys2Proof.Laws

open Sys2Proof.Machine

/-! ### Bit streams -/

theorem byteBit_byteOfBits (b0 b1 b2 b3 b4 b5 b6 b7 : Bool) :
    byteBit (byteOfBits b0 b1 b2 b3 b4 b5 b6 b7) 0 = b0 ∧ byteBit (byteOfBits b0 b1 b2 b3 b4 b5 b6 b7) 1 = b1 ∧
    byteBit (byteOfBits b0 b1 b2 b3 b4 b5 b6 b7) 2 = b2 ∧ byteBit (byteOfBits b0 b1 b2 b3 b4 b5 b6 b7) 3 = b3 ∧
    byteBit (byteOfBits b0 b1 b2 b3 b4 b5 b6 b7) 4 = b4 ∧ byteBit (byteOfBits b0 b1 b2 b3 b4 b5 b6 b7) 5 = b5 ∧
    byteBit (byteOfBits b0 b1 b2 b3 b4 b5 b6 b7) 6 = b6 ∧ byteBit (byteOfBits b0 b1 b2 b3 b4 b5 b6 b7) 7 = b7 := by
  cases b0 <;> cases b1 <;> cases b2 <;> cases b3 <;> cases b4 <;> cases b5 <;> cases b6 <;> cases b7 <;> decide

/-- Stream bit t of a byte made of eight bits is the t-th of them. -/
theorem byteBit_byteOfBits_get (b0 b1 b2 b3 b4 b5 b6 b7 : Bool) {t : Nat} (h : t < 8) :
    byteBit (byteOfBits b0 b1 b2 b3 b4 b5 b6 b7) t = [b0, b1, b2, b3, b4, b5, b6, b7].getD t false := by
  obtain ⟨h0, h1, h2, h3, h4, h5, h6, h7⟩ := byteBit_byteOfBits b0 b1 b2 b3 b4 b5 b6 b7
  match t, h with
  | 0, _ => exact h0
  | 1, _ => exact h1
  | 2, _ => exact h2
  | 3, _ => exact h3
  | 4, _ => exact h4
  | 5, _ => exact h5
  | 6, _ => exact h6
  | 7, _ => exact h7

theorem packBits_eight (b0 b1 b2 b3 b4 b5 b6 b7 : Bool) (rest : List Bool) :
    packBits (b0 :: b1 :: b2 :: b3 :: b4 :: b5 :: b6 :: b7 :: rest) =
      byteOfBits b0 b1 b2 b3 b4 b5 b6 b7 :: packBits rest := rfl

/-- A list that is not eight elements and more has fewer than eight. -/
theorem length_lt_eight {v : List Bool}
    (h : ∀ b0 b1 b2 b3 b4 b5 b6 b7 rest, v = b0 :: b1 :: b2 :: b3 :: b4 :: b5 :: b6 :: b7 :: rest → False) :
    v.length < 8 := by
  match v, h with
  | [], _ | [_], _ | [_, _], _ | [_, _, _], _ | [_, _, _, _], _ | [_, _, _, _, _], _
  | [_, _, _, _, _, _], _ | [_, _, _, _, _, _, _], _ => simp
  | _ :: _ :: _ :: _ :: _ :: _ :: _ :: _ :: _, h => exact absurd rfl (h _ _ _ _ _ _ _ _ _)

/-- A stream of n bits occupies ceil(n/8) bytes (20_memory.md R90). -/
theorem packBits_length (v : List Bool) : (packBits v).length = ceilDiv v.length 8 := by
  unfold ceilDiv
  fun_induction packBits v with
  | case1 b0 b1 b2 b3 b4 b5 b6 b7 rest ih => simp only [List.length_cons, ih]; omega
  | case2 => rfl
  | case3 part h1 h2 =>
    have h3 := length_lt_eight h1
    have h4 := List.length_pos_iff.mpr h2
    simp only [List.length_cons, List.length_nil]
    omega

/-- Stream bit i of the packed bytes is bit i of the stream, and 0 beyond its end in the last byte. -/
theorem packBits_bit (v : List Bool) (i : Nat) (h : i / 8 < ceilDiv v.length 8) :
    (packBits v)[i / 8]?.map (fun b => byteBit b (i % 8)) = some (v.getD i false) := by
  unfold ceilDiv at h
  fun_induction packBits v generalizing i with
  | case1 b0 b1 b2 b3 b4 b5 b6 b7 rest ih =>
    by_cases hi : i < 8
    · have h1 : i / 8 = 0 := by omega
      have h2 : i % 8 = i := by omega
      rw [h1, h2]
      simp only [List.getElem?_cons_zero, Option.map_some, byteBit_byteOfBits_get _ _ _ _ _ _ _ _ hi, Option.some.injEq]
      match i, hi with
      | 0, _ | 1, _ | 2, _ | 3, _ | 4, _ | 5, _ | 6, _ | 7, _ => rfl
    · obtain ⟨j, rfl⟩ : ∃ j, i = j + 8 := ⟨i - 8, by omega⟩
      have h1 : (j + 8) / 8 = j / 8 + 1 := by omega
      have h2 : (j + 8) % 8 = j % 8 := by omega
      rw [h1, h2, List.getElem?_cons_succ, ih j (by simp only [List.length_cons] at h; omega)]
      rfl
  | case2 => simp at h
  | case3 part h1 h2 b =>
    have hlen := length_lt_eight h1
    have hi : i < 8 := by omega
    have h3 : i / 8 = 0 := by omega
    have h4 : i % 8 = i := by omega
    rw [h3, h4]
    simp only [List.getElem?_cons_zero, Option.map_some, byteBit_byteOfBits_get _ _ _ _ _ _ _ _ hi, Option.some.injEq]
    match i, hi with
    | 0, _ | 1, _ | 2, _ | 3, _ | 4, _ | 5, _ | 6, _ | 7, _ => rfl

/-- Reading back a written bit stream. -/
theorem bit?_writeBits (m : Memory) (w : List Bool) (i : Nat) (h : i / 8 < ceilDiv w.length 8) :
    (m.writeBlock 0 (packBits w)).bit? i = some (w.getD i false) := by
  rw [Memory.bit?, read_writeBlock_inside (Nat.zero_le _) (by rw [packBits_length]; omega), Nat.sub_zero,
    packBits_bit w i h]

theorem bit?_writeBits_inside (m : Memory) (w : List Bool) (i : Nat) (h : i < w.length) :
    (m.writeBlock 0 (packBits w)).bit? i = w[i]? := by
  rw [bit?_writeBits m w i (by unfold ceilDiv; omega), List.getD_eq_getElem?_getD, List.getElem?_eq_getElem h]
  rfl

theorem bit?_writeBits_unused (m : Memory) (w : List Bool) (i : Nat) (h1 : w.length ≤ i)
    (h2 : i < 8 * ceilDiv w.length 8) : (m.writeBlock 0 (packBits w)).bit? i = some false := by
  rw [bit?_writeBits m w i (by omega), List.getD_eq_getElem?_getD, List.getElem?_eq_none h1]
  rfl

/-! ### Little-endian values and samples -/

@[simp] theorem leBytes_length (n v : Nat) : (leBytes n v).length = n := by simp [leBytes]

theorem leBytes_succ (n v : Nat) : leBytes (n + 1) v = BitVec.ofNat 8 v :: leBytes n (v / 256) := by
  unfold leBytes
  rw [List.range_succ_eq_map, List.map_cons, List.map_map]
  congr 1
  · simp
  · refine List.map_congr_left fun k _ => ?_
    show BitVec.ofNat 8 (v / 256 ^ (k + 1)) = BitVec.ofNat 8 (v / 256 / 256 ^ k)
    rw [Nat.pow_succ, Nat.mul_comm, Nat.div_div_eq_div_mul]

/-- The value of the n little-endian bytes of v is v modulo 256^n (20_memory.md R86). -/
theorem leValue_leBytes (n v : Nat) : leValue (leBytes n v) = v % 256 ^ n := by
  induction n generalizing v with
  | zero => simp [leBytes, leValue, Nat.mod_one]
  | succ n ih =>
    have h : v % 256 ^ (n + 1) = v % 256 + 256 * (v / 256 % 256 ^ n) := by
      rw [show 256 ^ (n + 1) = 256 * 256 ^ n by rw [Nat.pow_succ, Nat.mul_comm], Nat.mod_mul]
    rw [leBytes_succ, leValue, ih, BitVec.toNat_ofNat, h]

theorem sampleBytes_length (c : C64) : (sampleBytes c).length = 16 := by simp [sampleBytes]

/-- A sample is what its sixteen bytes hold (20_memory.md R83). -/
theorem sampleOfBytes_sampleBytes (c : C64) : sampleOfBytes (sampleBytes c) = c := by
  have h1 : (sampleBytes c).take 8 = leBytes 8 c.re.toNat := by
    rw [sampleBytes, List.take_append_of_le_length (by simp), List.take_of_length_le (by simp)]
  have h2 : ((sampleBytes c).drop 8).take 8 = leBytes 8 c.im.toNat := by
    rw [sampleBytes, List.drop_append_of_le_length (by simp), List.drop_of_length_le (by simp), List.nil_append,
      List.take_of_length_le (by simp)]
  obtain ⟨re, im⟩ := c
  rw [sampleOfBytes, h1, h2, leValue_leBytes, leValue_leBytes]
  have hr := re.isLt
  have hi := im.isLt
  congr 1 <;> apply BitVec.eq_of_toNat_eq <;> simp <;> omega

/-- Reading consecutive written bytes. -/
theorem bytes?_eq_some {m : Memory} {a n : Nat} {bs : List Byte} (hl : bs.length = n)
    (h : ∀ k, k < n → m.read (a + k) = bs[k]?) : m.bytes? a n = some bs := by
  induction n generalizing a bs with
  | zero => rw [List.length_eq_zero_iff.mp hl]; rfl
  | succ n ih =>
    match bs, hl with
    | b :: bs, hl =>
      have h0 : m.read a = some b := by simpa using h 0 (by omega)
      have hr : m.bytes? (a + 1) n = some bs := by
        refine ih (by simpa using hl) fun k hk => ?_
        have := h (k + 1) (by omega)
        rwa [List.getElem?_cons_succ, show a + (k + 1) = a + 1 + k by omega] at this
      rw [Memory.bytes?, h0, hr]

theorem flatMap_sampleBytes_length (w : List C64) : (w.flatMap sampleBytes).length = 16 * w.length := by
  induction w with
  | nil => rfl
  | cons c w ih => rw [List.flatMap_cons, List.length_append, sampleBytes_length, ih, List.length_cons]; omega

theorem flatMap_sampleBytes_get (w : List C64) (i k : Nat) (hi : i < w.length) (hk : k < 16) :
    (w.flatMap sampleBytes)[16 * i + k]? = (sampleBytes w[i])[k]? := by
  induction w generalizing i with
  | nil => simp at hi
  | cons c w ih =>
    rw [List.flatMap_cons]
    match i with
    | 0 =>
      rw [List.getElem?_append_left (by rw [sampleBytes_length]; omega)]
      simp
    | i + 1 =>
      rw [List.getElem?_append_right (by rw [sampleBytes_length]; omega), sampleBytes_length,
        show 16 * (i + 1) + k - 16 = 16 * i + k by omega, ih i (by simpa using hi)]
      rfl

/-- Reading back written samples (20_memory.md R83). -/
theorem sample?_writeSamples (m : Memory) (w : List C64) (i : Nat) (h : i < w.length) :
    (m.writeBlock 0 (w.flatMap sampleBytes)).sample? i = w[i]? := by
  have hb : (m.writeBlock 0 (w.flatMap sampleBytes)).bytes? (16 * i) 16 = some (sampleBytes w[i]) := by
    refine bytes?_eq_some (sampleBytes_length _) fun k hk => ?_
    rw [read_writeBlock_inside (Nat.zero_le _) (by rw [flatMap_sampleBytes_length]; omega), Nat.sub_zero,
      flatMap_sampleBytes_get w i k h hk]
  rw [Memory.sample?, hb, Option.map_some, sampleOfBytes_sampleBytes, List.getElem?_eq_getElem h]

end Sys2Proof.Laws
end

