-- ==== Sys2Proof/Laws/Ops.lean ====
section
/-! SUPPORT. What each shared operation of a command can do: the completion, the engine's reads, and the checked operands. -/

namespace Sys2Proof.Laws

open Sys2Proof.Machine

/-! ### Completion (60_exceptions.md R365, R372) -/

/-- Everything the completion transition can answer with a next state. -/
theorem finish_next_iff {s t : State} {r : Except Stop Effects} :
    s.finish r = .next t ↔
      (∃ e, r = .ok e ∧ t = s.succeedWith e) ∨ (∃ c, r = .error (.error c) ∧ t = s.failWith c) := by
  rcases r with (c | f) | e
  · simp [State.finish, eq_comm]
  · simp [State.finish]
  · simp [State.finish, eq_comm]

/-- A completion faults exactly when the command's reads do. -/
theorem finish_fault_iff {s : State} {r : Except Stop Effects} {f : Fault} :
    s.finish r = .fault f ↔ r = .error (.fault f) := by
  rcases r with (c | f') | e <;> simp [State.finish]

theorem finish_not_refused (s : State) (r : Except Stop Effects) (x : Refusal) : s.finish r ≠ .refused x := by
  rcases r with (c | f) | e <;> simp [State.finish]

/-! ### The Except plumbing -/

/-- A bind that succeeds. -/
theorem bind_eq_ok {α β : Type} {x : Except Stop α} {f : α → Except Stop β} {b : β} :
    (x >>= f) = .ok b ↔ ∃ a, x = .ok a ∧ f a = .ok b := by
  cases x with
  | error e => simp [bind, Except.bind]
  | ok a => simp [bind, Except.bind]

/-- A bind that stops. -/
theorem bind_eq_error {α β : Type} {x : Except Stop α} {f : α → Except Stop β} {e : Stop} :
    (x >>= f) = .error e ↔ x = .error e ∨ ∃ a, x = .ok a ∧ f a = .error e := by
  cases x with
  | error e => simp [bind, Except.bind]
  | ok a => simp [bind, Except.bind]

@[simp] theorem ok_bind {α β : Type} (a : α) (f : α → Except Stop β) : ((Except.ok a : Except Stop α) >>= f) = f a := rfl

@[simp] theorem error_bind {α β : Type} (e : Stop) (f : α → Except Stop β) :
    ((Except.error e : Except Stop α) >>= f) = .error e := rfl

@[simp] theorem require_ok {b : Bool} {c : ErrorCode} {u : Unit} : require b c = .ok u ↔ b = true := by
  cases b <;> simp [require]

@[simp] theorem require_error {b : Bool} {c : ErrorCode} {e : Stop} :
    require b c = .error e ↔ b = false ∧ e = .error c := by
  cases b <;> simp [require, eq_comm]

@[simp] theorem require_true (c : ErrorCode) : require true c = .ok () := rfl
@[simp] theorem require_false (c : ErrorCode) : require false c = .error (.error c) := rfl

/-! ### Engine reads (70_reset_and_hazards.md R391) -/

theorem engineByte_eq_ok {s : State} {sp : MemSpace} {k : Nat} {b : Byte} :
    s.engineByte sp k = .ok b ↔ (s.mem sp).read k = some b := by
  unfold State.engineByte
  cases (s.mem sp).read k <;> simp

theorem engineByte_eq_error {s : State} {sp : MemSpace} {k : Nat} {e : Stop} :
    s.engineByte sp k = .error e ↔ (s.mem sp).read k = none ∧ e = .fault (.unwrittenInput sp k) := by
  unfold State.engineByte
  cases (s.mem sp).read k <;> simp [eq_comm]

/-- The engine reads a block of bytes exactly when all of them are written. -/
theorem engineBytes_eq_ok {s : State} {sp : MemSpace} {a n : Nat} {bs : List Byte} :
    s.engineBytes sp a n = .ok bs ↔ bs.length = n ∧ ∀ k, k < n → (s.mem sp).read (a + k) = bs[k]? := by
  induction n generalizing a bs with
  | zero =>
    rw [State.engineBytes]
    constructor
    · intro h; simp only [Except.ok.injEq] at h; subst h; simp
    · intro h; rw [List.length_eq_zero_iff.mp h.1]
  | succ n ih =>
    rw [State.engineBytes]
    constructor
    · intro h
      split at h
      · cases h
      · rename_i b hb
        split at h
        · cases h
        · rename_i bs' hbs
          simp only [Except.ok.injEq] at h
          subst h
          obtain ⟨hl, hr⟩ := ih.mp hbs
          refine ⟨by simp [hl], fun k hk => ?_⟩
          match k with
          | 0 => simpa using engineByte_eq_ok.mp hb
          | k + 1 =>
            rw [List.getElem?_cons_succ, ← hr k (by omega), show a + 1 + k = a + (k + 1) by omega]
    · rintro ⟨hl, hr⟩
      match bs, hl with
      | b :: bs, hl =>
        have h0 : s.engineByte sp a = .ok b := engineByte_eq_ok.mpr (by simpa using hr 0 (by omega))
        have h1 : s.engineBytes sp (a + 1) n = .ok bs := by
          refine ih.mpr ⟨by simpa using hl, fun k hk => ?_⟩
          have := hr (k + 1) (by omega)
          rwa [List.getElem?_cons_succ, show a + (k + 1) = a + 1 + k by omega] at this
        rw [h0, h1]

/-- The engine stops a read of bytes only at an unwritten one of them. -/
theorem engineBytes_eq_error {s : State} {sp : MemSpace} {a n : Nat} {e : Stop} (h : s.engineBytes sp a n = .error e) :
    ∃ k, a ≤ k ∧ k < a + n ∧ (s.mem sp).read k = none ∧ e = .fault (.unwrittenInput sp k) := by
  induction n generalizing a with
  | zero => simp [State.engineBytes] at h
  | succ n ih =>
    rw [State.engineBytes] at h
    split at h
    · rename_i e' he
      simp only [Except.error.injEq] at h
      subst h
      obtain ⟨h1, h2⟩ := engineByte_eq_error.mp he
      exact ⟨a, le_refl _, by omega, h1, h2⟩
    · split at h
      · rename_i e' he
        simp only [Except.error.injEq] at h
        subst h
        obtain ⟨k, h1, h2, h3, h4⟩ := ih he
        exact ⟨k, by omega, by omega, h3, h4⟩
      · cases h

theorem bit?_eq_some {m : Memory} {i : Nat} {v : Bool} :
    m.bit? i = some v ↔ ∃ b, m.read (i / 8) = some b ∧ byteBit b (i % 8) = v := by
  simp [Memory.bit?]

theorem bit?_eq_none {m : Memory} {i : Nat} : m.bit? i = none ↔ m.read (i / 8) = none := by simp [Memory.bit?]

/-- The engine reads stream bits of IN_MEM exactly when the bytes that hold them are written. -/
theorem engineBits_eq_ok {s : State} {i n : Nat} {v : List Bool} :
    s.engineBits i n = .ok v ↔ v.length = n ∧ ∀ k, k < n → s.inMem.bit? (i + k) = v[k]? := by
  induction n generalizing i v with
  | zero =>
    rw [State.engineBits]
    constructor
    · intro h; simp only [Except.ok.injEq] at h; subst h; simp
    · intro h; rw [List.length_eq_zero_iff.mp h.1]
  | succ n ih =>
    rw [State.engineBits]
    constructor
    · intro h
      split at h
      · cases h
      · rename_i b hb
        split at h
        · cases h
        · rename_i v' hv
          simp only [Except.ok.injEq] at h
          subst h
          obtain ⟨hl, hr⟩ := ih.mp hv
          refine ⟨by simp [hl], fun k hk => ?_⟩
          match k with
          | 0 =>
            have h0 : s.inMem.bit? i = some (byteBit b (i % 8)) := bit?_eq_some.mpr ⟨b, engineByte_eq_ok.mp hb, rfl⟩
            simpa using h0
          | k + 1 =>
            rw [List.getElem?_cons_succ, ← hr k (by omega), show i + 1 + k = i + (k + 1) by omega]
    · rintro ⟨hl, hr⟩
      match v, hl with
      | x :: v, hl =>
        obtain ⟨b, hb, hx⟩ := bit?_eq_some.mp (show s.inMem.bit? i = some x by simpa using hr 0 (by omega))
        have h0 : s.engineByte .inMem (i / 8) = .ok b := engineByte_eq_ok.mpr hb
        have h1 : s.engineBits (i + 1) n = .ok v := by
          refine ih.mpr ⟨by simpa using hl, fun k hk => ?_⟩
          have := hr (k + 1) (by omega)
          rwa [List.getElem?_cons_succ, show i + (k + 1) = i + 1 + k by omega] at this
        rw [h0, h1, ← hx]

theorem engineBits_eq_error {s : State} {i n : Nat} {e : Stop} (h : s.engineBits i n = .error e) :
    ∃ j, i ≤ j ∧ j < i + n ∧ s.inMem.read (j / 8) = none ∧ e = .fault (.unwrittenInput .inMem (j / 8)) := by
  induction n generalizing i with
  | zero => simp [State.engineBits] at h
  | succ n ih =>
    rw [State.engineBits] at h
    split at h
    · rename_i e' he
      simp only [Except.error.injEq] at h
      subst h
      obtain ⟨h1, h2⟩ := engineByte_eq_error.mp he
      exact ⟨i, le_refl _, by omega, h1, h2⟩
    · split at h
      · rename_i e' he
        simp only [Except.error.injEq] at h
        subst h
        obtain ⟨j, h1, h2, h3, h4⟩ := ih he
        exact ⟨j, by omega, by omega, h3, h4⟩
      · cases h

theorem bytes?_eq_engineBytes {s : State} {sp : MemSpace} {a n : Nat} {bs : List Byte} :
    (s.mem sp).bytes? a n = some bs ↔ s.engineBytes sp a n = .ok bs := by
  induction n generalizing a bs with
  | zero => simp [Memory.bytes?, State.engineBytes]
  | succ n ih =>
    rw [Memory.bytes?, State.engineBytes]
    cases h1 : s.engineByte sp a with
    | error e => rw [(engineByte_eq_error.mp h1).1]; simp
    | ok b =>
      rw [engineByte_eq_ok.mp h1]
      cases h2 : s.engineBytes sp (a + 1) n with
      | error e =>
        have : (s.mem sp).bytes? (a + 1) n = none := by
          cases h3 : (s.mem sp).bytes? (a + 1) n with
          | none => rfl
          | some bs' => rw [ih.mp h3] at h2; cases h2
        rw [this]; simp
      | ok bs' => rw [ih.mpr h2]; simp

/-- The engine reads samples of SMP_MEM exactly when all their bytes are written. -/
theorem engineSamples_eq_ok {s : State} {i n : Nat} {w : List C64} :
    s.engineSamples i n = .ok w ↔ w.length = n ∧ ∀ k, k < n → s.smpMem.sample? (i + k) = w[k]? := by
  induction n generalizing i w with
  | zero =>
    rw [State.engineSamples]
    constructor
    · intro h; simp only [Except.ok.injEq] at h; subst h; simp
    · intro h; rw [List.length_eq_zero_iff.mp h.1]
  | succ n ih =>
    rw [State.engineSamples]
    constructor
    · intro h
      split at h
      · cases h
      · rename_i bs hb
        split at h
        · cases h
        · rename_i w' hw
          simp only [Except.ok.injEq] at h
          subst h
          obtain ⟨hl, hr⟩ := ih.mp hw
          refine ⟨by simp [hl], fun k hk => ?_⟩
          match k with
          | 0 =>
            have : s.smpMem.bytes? (16 * i) 16 = some bs := bytes?_eq_engineBytes (sp := .smpMem).mpr hb
            simp [Memory.sample?, this]
          | k + 1 =>
            rw [List.getElem?_cons_succ, ← hr k (by omega), show i + 1 + k = i + (k + 1) by omega]
    · rintro ⟨hl, hr⟩
      match w, hl with
      | x :: w, hl =>
        have hx : s.smpMem.sample? i = some x := by simpa using hr 0 (by omega)
        obtain ⟨bs, hb, hbx⟩ := Option.map_eq_some_iff.mp hx
        have h0 : s.engineBytes .smpMem (16 * i) 16 = .ok bs := bytes?_eq_engineBytes (sp := .smpMem).mp hb
        have h1 : s.engineSamples (i + 1) n = .ok w := by
          refine ih.mpr ⟨by simpa using hl, fun k hk => ?_⟩
          have := hr (k + 1) (by omega)
          rwa [List.getElem?_cons_succ, show i + (k + 1) = i + 1 + k by omega] at this
        rw [h0, h1, ← hbx]

theorem engineSamples_eq_error {s : State} {i n : Nat} {e : Stop} (h : s.engineSamples i n = .error e) :
    ∃ k, 16 * i ≤ k ∧ k < 16 * (i + n) ∧ s.smpMem.read k = none ∧ e = .fault (.unwrittenInput .smpMem k) := by
  induction n generalizing i with
  | zero => simp [State.engineSamples] at h
  | succ n ih =>
    rw [State.engineSamples] at h
    split at h
    · rename_i e' he
      simp only [Except.error.injEq] at h
      subst h
      obtain ⟨k, h1, h2, h3, h4⟩ := engineBytes_eq_error he
      exact ⟨k, h1, by omega, h3, h4⟩
    · split at h
      · rename_i e' he
        simp only [Except.error.injEq] at h
        subst h
        obtain ⟨k, h1, h2, h3, h4⟩ := ih he
        exact ⟨k, by omega, by omega, h3, h4⟩
      · cases h

/-! ### Operands (30_encoding.md R111) -/

theorem argProfile_eq_ok {s : State} {p : RateProfile} :
    s.argProfile = .ok p ↔ profile s.snap.bw s.snap.rate = some p := by
  unfold State.argProfile
  cases profile s.snap.bw s.snap.rate <;> simp

theorem argProfile_eq_error {s : State} {e : Stop} :
    s.argProfile = .error e ↔ profile s.snap.bw s.snap.rate = none ∧ e = .error .invalidDataRate := by
  unfold State.argProfile
  cases profile s.snap.bw s.snap.rate <;> simp [eq_comm]

theorem argPsduLen_eq_ok {s : State} {n : Nat} :
    s.argPsduLen = .ok n ↔ s.snap.psduLen.toNat = n ∧ n ≤ s.params.maxPsdu := by
  unfold State.argPsduLen
  split <;> rename_i h
  · simp only [reduceCtorEq, false_iff]; omega
  · simp only [Except.ok.injEq]; omega

theorem argPsduLen_eq_error {s : State} {e : Stop} :
    s.argPsduLen = .error e ↔ s.params.maxPsdu < s.snap.psduLen.toNat ∧ e = .error .psduTooLarge := by
  unfold State.argPsduLen
  split <;> simp_all [eq_comm]

/-- The profile of a valid selector is a row of the rate table (40_rate_sizing.md R142). -/
theorem profile_eq_some {bw : BitVec 2} {rate : BitVec 4} {p : RateProfile} :
    profile bw rate = some p ↔ bw.toNat ≤ 1 ∧ rateRow rate.toNat = some p := by
  unfold profile
  split <;> simp_all

theorem argsEncodeFrame_eq_ok {s : State} {p : RateProfile} {n : Nat} :
    s.argsEncodeFrame = .ok (p, n) ↔
      profile s.snap.bw s.snap.rate = some p ∧ (s.snap.psduLen.toNat = n ∧ n ≤ s.params.maxPsdu) ∧
        frameLen (sizing p n).nSym ≤ s.params.smpMemSamples := by
  simp only [State.argsEncodeFrame, bind_eq_ok, argProfile_eq_ok, argPsduLen_eq_ok, require_ok, decide_eq_true_eq,
    pure, Except.pure, Except.ok.injEq, Prod.mk.injEq]
  constructor
  · rintro ⟨p', h1, n', h2, -, h3, rfl, rfl⟩; exact ⟨h1, h2, h3⟩
  · rintro ⟨h1, h2, h3⟩; exact ⟨p, h1, n, h2, (), h3, rfl, rfl⟩

theorem argsSizing_eq_ok {s : State} {p : RateProfile} {n : Nat} :
    s.argsSizing = .ok (p, n) ↔
      profile s.snap.bw s.snap.rate = some p ∧ (s.snap.psduLen.toNat = n ∧ n ≤ s.params.maxPsdu) := by
  simp only [State.argsSizing, bind_eq_ok, argProfile_eq_ok, argPsduLen_eq_ok, pure, Except.pure, Except.ok.injEq,
    Prod.mk.injEq]
  constructor
  · rintro ⟨p', h1, n', h2, rfl, rfl⟩; exact ⟨h1, h2⟩
  · rintro ⟨h1, h2⟩; exact ⟨p, h1, n, h2, rfl, rfl⟩

theorem argsBuildDataField_eq_ok {s : State} {p : RateProfile} {n : Nat} :
    s.argsBuildDataField = .ok (p, n) ↔
      profile s.snap.bw s.snap.rate = some p ∧ (s.snap.psduLen.toNat = n ∧ n ≤ s.params.maxPsdu) ∧
        dataFieldBytes (sizing p n) ≤ s.params.bitMemBytes := by
  simp only [State.argsBuildDataField, bind_eq_ok, argProfile_eq_ok, argPsduLen_eq_ok, require_ok, decide_eq_true_eq,
    pure, Except.pure, Except.ok.injEq, Prod.mk.injEq]
  constructor
  · rintro ⟨p', h1, n', h2, -, h3, rfl, rfl⟩; exact ⟨h1, h2, h3⟩
  · rintro ⟨h1, h2, h3⟩; exact ⟨p, h1, n, h2, (), h3, rfl, rfl⟩

theorem argsScramble_eq_ok {s : State} {n : Nat} :
    s.argsScramble = .ok n ↔
      s.stageBits = n ∧ n ≤ 8 * s.params.inMemBytes ∧ n ≤ 8 * s.params.bitMemBytes := by
  simp only [State.argsScramble, bind_eq_ok, require_ok, Bool.and_eq_true, decide_eq_true_eq, pure, Except.pure,
    Except.ok.injEq, exists_const]
  constructor
  · rintro ⟨⟨h1, h2⟩, rfl⟩; exact ⟨rfl, h1, h2⟩
  · rintro ⟨rfl, h1, h2⟩; exact ⟨⟨h1, h2⟩, rfl⟩

theorem argsConvEncode_eq_ok {s : State} {n : Nat} :
    s.argsConvEncode = .ok n ↔
      s.stageBits = n ∧ n ≤ 8 * s.params.inMemBytes ∧ 2 * n ≤ 8 * s.params.bitMemBytes := by
  simp only [State.argsConvEncode, bind_eq_ok, require_ok, Bool.and_eq_true, decide_eq_true_eq, pure, Except.pure,
    Except.ok.injEq, exists_const]
  constructor
  · rintro ⟨⟨h1, h2⟩, rfl⟩; exact ⟨rfl, h1, h2⟩
  · rintro ⟨rfl, h1, h2⟩; exact ⟨⟨h1, h2⟩, rfl⟩

theorem argsPuncture_eq_ok {s : State} {p : RateProfile} {n : Nat} :
    s.argsPuncture = .ok (p, n) ↔
      profile s.snap.bw s.snap.rate = some p ∧ s.stageBits = n ∧ n ≤ 8 * s.params.inMemBytes ∧
        n % p.codingRate.period = 0 := by
  simp only [State.argsPuncture, bind_eq_ok, argProfile_eq_ok, require_ok, decide_eq_true_eq, pure, Except.pure,
    Except.ok.injEq, Prod.mk.injEq, exists_const]
  constructor
  · rintro ⟨p', h1, h2, h3, rfl, rfl⟩; exact ⟨h1, rfl, h2, h3⟩
  · rintro ⟨h1, rfl, h2, h3⟩; exact ⟨p, h1, h2, h3, rfl, rfl⟩

theorem argsInterleave_eq_ok {s : State} {p : RateProfile} {n : Nat} :
    s.argsInterleave = .ok (p, n) ↔
      profile s.snap.bw s.snap.rate = some p ∧ s.stageBits = n ∧ n ≤ 8 * s.params.inMemBytes ∧ n % p.nCbps = 0 := by
  simp only [State.argsInterleave, bind_eq_ok, argProfile_eq_ok, require_ok, Bool.and_eq_true, decide_eq_true_eq, pure,
    Except.pure, Except.ok.injEq, Prod.mk.injEq, exists_const]
  constructor
  · rintro ⟨p', h1, ⟨h2, h3⟩, rfl, rfl⟩; exact ⟨h1, rfl, h2, h3⟩
  · rintro ⟨h1, rfl, h2, h3⟩; exact ⟨p, h1, ⟨h2, h3⟩, rfl, rfl⟩

theorem argsSymbol_eq_ok {s : State} {p : RateProfile} :
    s.argsSymbol = .ok p ↔ profile s.snap.bw s.snap.rate = some p ∧ s.stageBits = p.nCbps := by
  simp only [State.argsSymbol, bind_eq_ok, argProfile_eq_ok, require_ok, decide_eq_true_eq, pure, Except.pure,
    Except.ok.injEq, exists_const]
  constructor
  · rintro ⟨p', h1, h2, rfl⟩; exact ⟨h1, h2⟩
  · rintro ⟨h1, h2⟩; exact ⟨p, h1, h2, rfl⟩

end Sys2Proof.Laws
end

