-- ==== Sys2Proof/Laws/Stages.lean ====
section
/-! SUPPORT. The lengths of what the stage functions give, and what the parts of a frame carry (40_rate_sizing.md to 47_frame.md). -/

namespace Sys2Proof.Laws

open Sys2Proof.Machine

/-! ### Rate table and sizing (40_rate_sizing.md R141, R143, R144) -/

/-- A row of the rate table is one of the eight. -/
theorem rateRow_cases {r : Nat} {p : RateProfile} (h : rateRow r = some p) :
    (r = 0 ∧ p = ⟨.bpsk, .half, 1, 48, 24, 0xB#4⟩) ∨ (r = 1 ∧ p = ⟨.bpsk, .threeQuarters, 1, 48, 36, 0xF#4⟩) ∨
    (r = 2 ∧ p = ⟨.qpsk, .half, 2, 96, 48, 0xA#4⟩) ∨ (r = 3 ∧ p = ⟨.qpsk, .threeQuarters, 2, 96, 72, 0xE#4⟩) ∨
    (r = 4 ∧ p = ⟨.qam16, .half, 4, 192, 96, 0x9#4⟩) ∨ (r = 5 ∧ p = ⟨.qam16, .threeQuarters, 4, 192, 144, 0xD#4⟩) ∨
    (r = 6 ∧ p = ⟨.qam64, .twoThirds, 6, 288, 192, 0x8#4⟩) ∨
    (r = 7 ∧ p = ⟨.qam64, .threeQuarters, 6, 288, 216, 0xC#4⟩) := by
  match r, h with
  | 0, h | 1, h | 2, h | 3, h | 4, h | 5, h | 6, h | 7, h =>
    simp only [rateRow, Option.some.injEq] at h
    simp [← h]

/-- A selected profile is a row of the rate table. -/
theorem profile_row {bw : BitVec 2} {rate : BitVec 4} {p : RateProfile} (h : profile bw rate = some p) :
    ∃ r, rateRow r = some p := ⟨_, (profile_eq_some.mp h).2⟩

theorem nCbps_pos {r : Nat} {p : RateProfile} (h : rateRow r = some p) : 0 < p.nCbps := by
  rcases rateRow_cases h with h | h | h | h | h | h | h | h <;> rw [h.2] <;> decide

theorem nDbps_bounds {r : Nat} {p : RateProfile} (h : rateRow r = some p) : 24 ≤ p.nDbps ∧ p.nDbps ≤ 216 := by
  rcases rateRow_cases h with h | h | h | h | h | h | h | h <;> rw [h.2] <;> decide

/-- The data field holds SERVICE, PSDU, TAIL and PAD (R144). -/
theorem sizing_nData {r : Nat} {p : RateProfile} (h : rateRow r = some p) (len : Nat) :
    (sizing p len).nData = 16 + 8 * len + 6 + (sizing p len).nPad ∧ (sizing p len).nPad < p.nDbps := by
  have h1 := nDbps_bounds h
  simp only [sizing, nBits, ceilDiv]
  have h2 := Nat.div_add_mod (16 + 8 * len + 6 + p.nDbps - 1) p.nDbps
  have h3 := Nat.mod_lt (16 + 8 * len + 6 + p.nDbps - 1) (show 0 < p.nDbps by omega)
  rw [Nat.mul_comm] at h2
  omega

/-- A frame has at least one data symbol. -/
theorem sizing_nSym_pos {r : Nat} {p : RateProfile} (h : rateRow r = some p) (len : Nat) : 0 < (sizing p len).nSym := by
  have h1 := sizing_nData h len
  rcases Nat.eq_zero_or_pos (sizing p len).nSym with h2 | h2
  · have : (sizing p len).nData = 0 := by
      show (sizing p len).nSym * p.nDbps = 0
      rw [h2, Nat.zero_mul]
    omega
  · exact h2

/-! ### Scrambler and data field (41_scrambler.md) -/

@[simp] theorem scramble_length (s : BitVec 7) (v : List Bool) : (scramble s v).length = v.length := by
  induction v generalizing s with
  | nil => rfl
  | cons b v ih => simp [scramble, ih]

@[simp] theorem zeros_length (n : Nat) : (zeros n).length = n := by simp [zeros]

@[simp] theorem octetBits_length (m : Bool) (b : Byte) : (octetBits m b).length = 8 := by simp [octetBits]

@[simp] theorem psduBits_length (m : Bool) (psdu : List Byte) : (psduBits m psdu).length = 8 * psdu.length := by
  unfold psduBits
  induction psdu with
  | nil => rfl
  | cons b psdu ih => rw [List.flatMap_cons, List.length_append, octetBits_length, ih, List.length_cons]; omega

theorem rawDataField_length (m : Bool) (psdu : List Byte) (n : Nat) :
    (rawDataField m psdu n).length = 16 + 8 * psdu.length + 6 + n := by
  simp only [rawDataField, List.length_append, zeros_length, psduBits_length]

theorem foldl_set_length {α β : Type} (f : β → Nat) (g : β → α) (l : List β) (out : List α) :
    (l.foldl (fun o k => o.set (f k) (g k)) out).length = out.length := by
  induction l generalizing out with
  | nil => rfl
  | cons k l ih => rw [List.foldl_cons, ih, List.length_set]

/-- The data field has n_data bits (R167). -/
theorem dataField_length {r : Nat} {p : RateProfile} (h : rateRow r = some p) (seed : BitVec 7) (m : Bool)
    (psdu : List Byte) : (dataField p seed m psdu).length = (sizing p psdu.length).nData := by
  simp only [dataField, tailReset]
  rw [foldl_set_length (fun k => _ + k) (fun _ => false), scramble_length, rawDataField_length, (sizing_nData h _).1]

/-! ### Encoder and puncturer (42_encoder_puncturer.md) -/

theorem convEncodeFrom_length (r : BitVec 7) (v : List Bool) : (convEncodeFrom r v).length = 2 * v.length := by
  induction v generalizing r with
  | nil => rfl
  | cons b v ih => simp only [convEncodeFrom, List.length_append, ih, encOut, List.length_cons, List.length_nil]; omega

@[simp] theorem convEncode_length (v : List Bool) : (convEncode v).length = 2 * v.length := convEncodeFrom_length 0 v

theorem punctureFrom_length_le (r : CodingRate) (i : Nat) (c : List Bool) : (punctureFrom r i c).length ≤ c.length := by
  induction c generalizing i with
  | nil => simp [punctureFrom]
  | cons b c ih =>
    rw [punctureFrom]
    have := ih (i + 1)
    split <;> (try simp only [List.length_cons]) <;> omega

/-- The number of kept bits among positions i, ..., i + n - 1 (R196). -/
theorem punctureFrom_length (r : CodingRate) (i : Nat) (c : List Bool) :
    (punctureFrom r i c).length + puncturedLen r i = puncturedLen r (i + c.length) := by
  induction c generalizing i with
  | nil => simp [punctureFrom]
  | cons b c ih =>
    have h := ih (i + 1)
    rw [List.length_cons, show i + (c.length + 1) = i + 1 + c.length by omega, ← h, punctureFrom]
    cases r with
    | half => simp only [CodingRate.drops, Bool.false_eq_true, if_false, List.length_cons, puncturedLen]; omega
    | twoThirds =>
      have : i % 4 < 4 := Nat.mod_lt _ (by decide)
      simp only [CodingRate.drops, CodingRate.period, beq_iff_eq, puncturedLen]
      split <;> (try simp only [List.length_cons]) <;> omega
    | threeQuarters =>
      have : i % 6 < 6 := Nat.mod_lt _ (by decide)
      simp only [CodingRate.drops, CodingRate.period, Bool.or_eq_true, beq_iff_eq, puncturedLen]
      split <;> (try simp only [List.length_cons]) <;> omega

/-- The output length of the puncturer (R196). -/
theorem puncture_length (r : CodingRate) (c : List Bool) : (puncture r c).length = puncturedLen r c.length := by
  have h := punctureFrom_length r 0 c
  have h0 : puncturedLen r 0 = 0 := by cases r <;> rfl
  rw [h0, Nat.zero_add, Nat.add_zero] at h
  exact h

theorem puncturedLen_le (r : CodingRate) (n : Nat) : puncturedLen r n ≤ n := by
  cases r <;> simp only [puncturedLen] <;> omega

/-! ### Blocks and the interleaver (43_interleaver.md) -/

@[simp] theorem blocks_length {α : Type} (n k : Nat) (l : List α) : (blocks n k l).length = k := by
  induction k generalizing l with
  | zero => rfl
  | succ k ih => simp [blocks, ih]

@[simp] theorem interleaveBlock_length (n b : Nat) (c : List Bool) : (interleaveBlock n b c).length = n := by
  unfold interleaveBlock
  rw [foldl_set_length (fun k => perm n b k) (fun k => c.getD k false), List.length_replicate]

@[simp] theorem deinterleaveBlock_length (n b : Nat) (c : List Bool) : (deinterleaveBlock n b c).length = n := by
  simp [deinterleaveBlock]

theorem flatMap_length_const {α β : Type} (f : α → List β) (n : Nat) (h : ∀ a, (f a).length = n) (l : List α) :
    (l.flatMap f).length = l.length * n := by
  induction l with
  | nil => simp
  | cons a l ih => rw [List.flatMap_cons, List.length_append, h, ih, List.length_cons, Nat.succ_mul, Nat.add_comm]

/-- As many bits come out as go in (R226). -/
theorem interleave_length {n b : Nat} {c : List Bool} (h : c.length % n = 0) : (interleave n b c).length = c.length := by
  rw [interleave, flatMap_length_const _ n (interleaveBlock_length n b), blocks_length, Nat.div_mul_cancel (Nat.dvd_of_mod_eq_zero h)]

theorem deinterleave_length {n b : Nat} {c : List Bool} (h : c.length % n = 0) : (deinterleave n b c).length = c.length := by
  rw [deinterleave, flatMap_length_const _ n (deinterleaveBlock_length n b), blocks_length, Nat.div_mul_cancel (Nat.dvd_of_mod_eq_zero h)]

/-! ### Symbols, preamble and frame (44_mapper.md to 47_frame.md) -/

@[simp] theorem mapBlock_length {α : Type} (A : Arith α) (p : RateProfile) (b : List Bool) : (mapBlock A p b).length = 48 := by
  simp [mapBlock]

@[simp] theorem extend_length {α : Type} (x : Vector α 64) (cp n : Nat) : (extend x cp n).length = n := by simp [extend]

@[simp] theorem window_length {α : Type} (A : Arith α) (w : List α) : (window A w).length = w.length := by simp [window]

@[simp] theorem ofdmSymbol_length {α : Type} (A : Arith α) (d : List α) (i : Nat) : (ofdmSymbol A d i).length = 81 := by
  simp [ofdmSymbol]

@[simp] theorem shortTraining_length {α : Type} (A : Arith α) : (shortTraining A).length = 161 := by simp [shortTraining]

@[simp] theorem longTraining_length {α : Type} (A : Arith α) : (longTraining A).length = 161 := by simp [longTraining]

@[simp] theorem signalSymbol_length {α : Type} (A : Arith α) (p : RateProfile) (len : Nat) :
    (signalSymbol A p len).length = 81 := by simp [signalSymbol]

/-- An overlap-sum inside the output keeps its length (R322). -/
theorem addAt_length {α : Type} (A : Arith α) {out w : List α} {off : Nat} (h : off + w.length ≤ out.length) :
    (addAt A out off w).length = out.length := by
  simp only [addAt, List.length_append, List.length_take, List.length_zipWith, List.length_drop]; omega

theorem addSymbols_length {α : Type} (A : Arith α) (ys : List (List α)) (out : List α) (m : Nat)
    (hy : ∀ y ∈ ys, y.length = 81) (h : frameLen (m + ys.length) ≤ out.length) :
    (addSymbols A out m ys).length = out.length := by
  induction ys generalizing out m with
  | nil => rfl
  | cons y ys ih =>
    have h1 : y.length = 81 := hy y (by simp)
    have h2 : (addAt A out ((5 + m) * 80) y).length = out.length := by
      refine addAt_length A ?_
      simp only [frameLen, List.length_cons] at h
      omega
    rw [addSymbols, ih _ _ (fun y' h' => hy y' (by simp [h'])) ?_, h2]
    rw [h2]
    simp only [frameLen, List.length_cons] at h ⊢
    omega

/-- A frame of n_sym symbols has FRAME_LEN samples (R321). -/
theorem assembleFrame_length {α : Type} (A : Arith α) {sig : List α} {ys : List (List α)} (hs : sig.length = 81)
    (hy : ∀ y ∈ ys, y.length = 81) : (assembleFrame A sig ys).length = frameLen ys.length := by
  unfold assembleFrame
  have h0 : (List.replicate (frameLen ys.length) A.zero).length = frameLen ys.length := List.length_replicate
  have hf : frameLen ys.length ≥ 401 := by unfold frameLen; omega
  have h1 := addAt_length A (out := List.replicate (frameLen ys.length) A.zero) (w := shortTraining A) (off := 0)
    (by rw [h0, shortTraining_length]; omega)
  have h2 := addAt_length A (out := addAt A (List.replicate (frameLen ys.length) A.zero) 0 (shortTraining A))
    (w := longTraining A) (off := 160) (by rw [h1, h0, longTraining_length]; omega)
  have h3 := addAt_length A
    (out := addAt A (addAt A (List.replicate (frameLen ys.length) A.zero) 0 (shortTraining A)) 160 (longTraining A))
    (w := sig) (off := 320) (by rw [h2, h1, h0, hs]; omega)
  dsimp only
  rw [addSymbols_length A ys _ 0 hy, h3, h2, h1, h0]
  rw [h3, h2, h1, h0, Nat.zero_add]

@[simp] theorem dataSymbols_length {α : Type} (A : Arith α) (p : RateProfile) (m : Nat) (bs : List (List Bool)) :
    (dataSymbols A p m bs).length = bs.length := by
  induction bs generalizing m with
  | nil => rfl
  | cons b bs ih => simp [dataSymbols, ih]

theorem dataSymbols_each {α : Type} (A : Arith α) (p : RateProfile) (m : Nat) (bs : List (List Bool)) :
    ∀ y ∈ dataSymbols A p m bs, y.length = 81 := by
  induction bs generalizing m with
  | nil => simp [dataSymbols]
  | cons b bs ih =>
    intro y hy
    rcases List.mem_cons.mp hy with rfl | hy
    · exact ofdmSymbol_length A _ _
    · exact ih _ y hy

/-- An encoded frame has FRAME_LEN samples (R321, R325). -/
theorem encodeFrame_length {α : Type} (A : Arith α) (p : RateProfile) (seed : BitVec 7) (m : Bool) (psdu : List Byte) :
    (encodeFrame A p seed m psdu).length = frameLen (sizing p psdu.length).nSym := by
  unfold encodeFrame
  dsimp only
  rw [assembleFrame_length A (signalSymbol_length A _ _) (dataSymbols_each A _ _ _), dataSymbols_length, blocks_length]

/-! ### What the parts of a frame carry -/

/-- Block m of a sequence (43_interleaver.md R220). -/
theorem blocks_getElem? {α : Type} (n k : Nat) (l : List α) {m : Nat} (h : m < k) :
    (blocks n k l)[m]? = some ((l.drop (m * n)).take n) := by
  induction k generalizing l m with
  | zero => omega
  | succ k ih =>
    cases m with
    | zero => simp [blocks]
    | succ m =>
      rw [blocks, List.getElem?_cons_succ, ih (l.drop n) (by omega), List.drop_drop, Nat.succ_mul, Nat.add_comm]

/-- Data symbol m, counted from `m0`, carries block m with the symbol index one more than its number (47_frame.md R324, R325). -/
theorem dataSymbols_getElem? {α : Type} (A : Arith α) (p : RateProfile) (m0 : Nat) (bs : List (List Bool)) (m : Nat) :
    (dataSymbols A p m0 bs)[m]? = bs[m]?.map fun b => ofdmSymbol A (mapBlock A p b) (m0 + m + 1) := by
  induction bs generalizing m0 m with
  | nil => simp [dataSymbols]
  | cons b bs ih =>
    cases m with
    | zero => simp [dataSymbols]
    | succ m =>
      have h : m0 + 1 + m + 1 = m0 + (m + 1) + 1 := by omega
      rw [dataSymbols, List.getElem?_cons_succ, ih, List.getElem?_cons_succ]
      simp only [h]

/-- The coded, punctured, interleaved data field fills the symbols (42_encoder_puncturer.md R197). -/
theorem encodeBits_length {r : Nat} {p : RateProfile} (h : rateRow r = some p) (seed : BitVec 7) (m : Bool) (psdu : List Byte) :
    (encodeBits p seed m psdu).length = (sizing p psdu.length).nSym * p.nCbps := by
  have h1 : (puncture p.codingRate (convEncode (dataField p seed m psdu))).length =
      (sizing p psdu.length).nSym * p.nCbps := by
    rw [puncture_length, convEncode_length, dataField_length h,
      show (sizing p psdu.length).nData = (sizing p psdu.length).nSym * p.nDbps from rfl]
    generalize (sizing p psdu.length).nSym = k
    rcases rateRow_cases h with h | h | h | h | h | h | h | h <;> obtain ⟨-, rfl⟩ := h <;>
      simp only [puncturedLen] <;> omega
  rw [encodeBits, interleave_length (by rw [h1]; exact Nat.mul_mod_left _ _), h1]

@[simp] theorem signalCoded_length (p : RateProfile) (len : Nat) : (signalCoded p len).length = 48 := by
  have h : (convEncode (signalBits p len)).length = 48 := by
    rw [convEncode_length]; simp [signalBits, signalHead, bitsLsbFirst]
  rw [signalCoded, interleave_length (by rw [h]), h]

/-- The data values of a SIGNAL block are the BPSK points of its bits (44_mapper.md R242). -/
theorem mapBlock_signal {α : Type} (A : Arith α) {v : List Bool} (h : v.length = 48) :
    mapBlock A signalProfile v = v.map fun b => A.point .bpsk (if b then 1 else -1) 0 := by
  refine List.ext_getElem (by simp [h]) fun m h1 h2 => ?_
  have hm : m < v.length := by simpa using h2
  have hI : levelI signalProfile v m = if v[m] then 1 else -1 := by
    simp only [levelI, signalProfile, groupMsb, halfSize, Nat.mul_one, show max (1 / 2) 1 = 1 from rfl,
      List.drop_eq_getElem_cons hm, List.take_succ_cons, List.take_zero, List.foldl_cons, List.foldl_nil]
    cases v[m] <;> rfl
  simp only [mapBlock, List.getElem_map, List.getElem_range, hI]
  rfl

/-- A bin of a spectrum (45_symbol_assembler.md R264). -/
theorem spectrum64_get {α : Type} (A : Arith α) (a : List α) (b : Fin 64) :
    (spectrum64 A a).get b =
      if b.val = 0 then A.zero
      else if b.val ≤ 26 then a.getD (b.val + 26) A.zero
      else if b.val ≤ 37 then A.zero
      else a.getD (b.val - 38) A.zero := by
  have h : ∀ f : Fin 64 → α, (Vector.ofFn f).get b = f b := fun f => by
    rw [Vector.get_eq_getElem, Vector.getElem_ofFn]
  rw [spectrum64, h]

end Sys2Proof.Laws
end

