-- ==== Sys2Proof/Laws/Commands.lean ====
section
/-! SUPPORT. What each command's rule computes, said once: when it gives outputs, and which (files 40 to 48). -/

namespace Sys2Proof.Laws

open Sys2Proof.Machine

theorem runFrameSizing_eq_ok {s : State} {e : Effects} :
    runFrameSizing s = .ok e ↔ ∃ p n, s.argsSizing = .ok (p, n) ∧
      e = { Effects.nothing with sizing := some (s.sizingResult p n) } := by
  simp only [runFrameSizing, pure, Except.pure, bind_eq_ok, Prod.exists, Except.ok.injEq, @eq_comm _ e]

theorem runGenSignal_eq_ok {s : State} {e : Effects} :
    runGenSignal s = .ok e ↔ ∃ p n, s.argsSizing = .ok (p, n) ∧ e = Effects.ofSamples (signalSymbol hw p n) := by
  simp only [runGenSignal, pure, Except.pure, bind_eq_ok, Prod.exists, Except.ok.injEq, @eq_comm _ e]

theorem runScramble_eq_ok {s : State} {e : Effects} :
    runScramble s = .ok e ↔ ∃ n, s.argsScramble = .ok n ∧ ∃ v, s.engineBits 0 n = .ok v ∧
      e = Effects.ofBits (scramble s.snap.seed v) := by
  simp only [runScramble, pure, Except.pure, bind_eq_ok, Except.ok.injEq, @eq_comm _ e]

theorem runConvEncode_eq_ok {s : State} {e : Effects} :
    runConvEncode s = .ok e ↔ ∃ n, s.argsConvEncode = .ok n ∧ ∃ v, s.engineBits 0 n = .ok v ∧
      e = Effects.ofBits (convEncode v) := by
  simp only [runConvEncode, pure, Except.pure, bind_eq_ok, Except.ok.injEq, @eq_comm _ e]

theorem runPuncture_eq_ok {s : State} {e : Effects} :
    runPuncture s = .ok e ↔ ∃ p n, s.argsPuncture = .ok (p, n) ∧ ∃ v, s.engineBits 0 n = .ok v ∧
      e = Effects.ofBits (puncture p.codingRate v) := by
  simp only [runPuncture, pure, Except.pure, bind_eq_ok, Prod.exists, Except.ok.injEq, @eq_comm _ e]

theorem runInterleave_eq_ok {s : State} {e : Effects} :
    runInterleave s = .ok e ↔ ∃ p n, s.argsInterleave = .ok (p, n) ∧ ∃ v, s.engineBits 0 n = .ok v ∧
      e = Effects.ofBits (interleave p.nCbps p.nBpsc v) := by
  simp only [runInterleave, pure, Except.pure, bind_eq_ok, Prod.exists, Except.ok.injEq, @eq_comm _ e]

theorem runDeinterleave_eq_ok {s : State} {e : Effects} :
    runDeinterleave s = .ok e ↔ ∃ p n, s.argsInterleave = .ok (p, n) ∧ ∃ v, s.engineBits 0 n = .ok v ∧
      e = Effects.ofBits (deinterleave p.nCbps p.nBpsc v) := by
  simp only [runDeinterleave, pure, Except.pure, bind_eq_ok, Prod.exists, Except.ok.injEq, @eq_comm _ e]

theorem runMapSymbol_eq_ok {s : State} {e : Effects} :
    runMapSymbol s = .ok e ↔ ∃ p, s.argsSymbol = .ok p ∧ ∃ v, s.engineBits 0 p.nCbps = .ok v ∧
      e = Effects.ofSamples (mapBlock hw p v) := by
  simp only [runMapSymbol, pure, Except.pure, bind_eq_ok, Except.ok.injEq, @eq_comm _ e]

theorem runModulateSymbol_eq_ok {s : State} {e : Effects} :
    runModulateSymbol s = .ok e ↔ ∃ p, s.argsSymbol = .ok p ∧ ∃ v, s.engineBits 0 p.nCbps = .ok v ∧
      e = Effects.ofSamples (ofdmSymbol hw (mapBlock hw p v) s.snap.symIndex.toNat) := by
  simp only [runModulateSymbol, pure, Except.pure, bind_eq_ok, Except.ok.injEq, @eq_comm _ e]

theorem runBuildDataField_eq_ok {s : State} {e : Effects} :
    runBuildDataField s = .ok e ↔ ∃ p n, s.argsBuildDataField = .ok (p, n) ∧ ∃ psdu, s.engineBytes .inMem 0 n = .ok psdu ∧
      e = { Effects.ofBits (dataField p s.snap.seed s.snap.psduMsbFirst psdu) with
            sizing := some (s.sizingResult p n) } := by
  simp only [runBuildDataField, pure, Except.pure, bind_eq_ok, Prod.exists, Except.ok.injEq, @eq_comm _ e]

theorem runEncodeFrame_eq_ok {s : State} {e : Effects} :
    runEncodeFrame s = .ok e ↔ ∃ p n, s.argsEncodeFrame = .ok (p, n) ∧ ∃ psdu, s.engineBytes .inMem 0 n = .ok psdu ∧
      e = { Effects.nothing with
            samples := some (encodeFrame hw p s.snap.seed s.snap.psduMsbFirst psdu)
            sizing := some (s.sizingResult p n)
            outLen := some (frameLen (sizing p n).nSym) } := by
  simp only [runEncodeFrame, pure, Except.pure, bind_eq_ok, Prod.exists, Except.ok.injEq, @eq_comm _ e]

/-- The scanned buffer: nothing when no window fits, else the first DET_LEN samples, clamped (48_frame_detector.md R342, R349). -/
theorem scanBuffer_eq_ok {s : State} {n : Nat} {r : List C64} :
    s.scanBuffer n = .ok r ↔
      if s.scanLen < n then r = [] else r.length = s.scanLen ∧ ∀ k, k < s.scanLen → s.smpMem.sample? k = r[k]? := by
  unfold State.scanBuffer
  split
  · simp only [Except.ok.injEq, eq_comm]
  · rw [engineSamples_eq_ok]; simp only [Nat.zero_add]

theorem runDetectShort_eq_ok {s : State} {e : Effects} :
    runDetectShort s = .ok e ↔ ∃ r, s.scanBuffer 48 = .ok r ∧
      e = Effects.ofScan (shortScan r s.snap.detMaxScan.toNat (f32ToF64 s.snap.detThrShort)) := by
  simp only [runDetectShort, pure, Except.pure, bind_eq_ok, Except.ok.injEq, @eq_comm _ e]

theorem runDetectLong_eq_ok {s : State} {e : Effects} :
    runDetectLong s = .ok e ↔ ∃ r, s.scanBuffer 64 = .ok r ∧
      e = Effects.ofScan (longScan r s.snap.detMaxScan.toNat (f32ToF64 s.snap.detThrLong)) := by
  simp only [runDetectLong, pure, Except.pure, bind_eq_ok, Except.ok.injEq, @eq_comm _ e]

/-- A scan answers the first qualifying position among its candidates, or nothing (R345, R348). -/
theorem scanFrom_spec (q : Nat → Bool) (k n : Nat) :
    (∃ m, scanFrom q k n = some m ∧ n ≤ m ∧ m < n + k ∧ q m = true ∧ ∀ j, n ≤ j → j < m → q j = false) ∨
    (scanFrom q k n = none ∧ ∀ j, n ≤ j → j < n + k → q j = false) := by
  induction k generalizing n with
  | zero => exact .inr ⟨rfl, fun j h1 h2 => by omega⟩
  | succ k ih =>
    by_cases hq : q n = true
    · exact .inl ⟨n, by simp [scanFrom, hq], by omega, by omega, hq, fun j h1 h2 => by omega⟩
    · have hq' : q n = false := by simpa using hq
      have he : scanFrom q (k + 1) n = scanFrom q k (n + 1) := by simp [scanFrom, hq']
      rw [he]
      rcases ih (n + 1) with ⟨m, h1, h2, h3, h4, h5⟩ | ⟨h1, h2⟩
      · refine .inl ⟨m, h1, by omega, by omega, h4, fun j hj1 hj2 => ?_⟩
        rcases Nat.eq_or_lt_of_le hj1 with rfl | hj
        · exact hq'
        · exact h5 j hj hj2
      · refine .inr ⟨h1, fun j hj1 hj2 => ?_⟩
        rcases Nat.eq_or_lt_of_le hj1 with rfl | hj
        · exact hq'
        · exact h2 j hj (by omega)

end Sys2Proof.Laws
end

