-- ==== Sys2Proof/Laws/Host.lean ====
section
/-! SUPPORT. What a step can do, said once: who moves, what a host write can do, and what stores and resets leave alone. -/

namespace Sys2Proof.Laws

open Sys2Proof.Machine Sys2Proof.Safety

/-! ### Who moves (70_reset_and_hazards.md R408) -/

/-- On the host's turn the step is its operation. -/
theorem step_host {s : State} {op : HostOp} {rest : List HostOp} (h : HostTurn s op rest) :
    step s = s.hostStep op rest := by
  obtain ⟨h1, h2⟩ := h
  show s.advance = _
  unfold State.advance State.mover
  rw [h1]
  cases hp : s.phase with
  | idle => rfl
  | busy =>
    have h3 : s.delay ≠ 0 := by
      rcases h2 with h2 | h2
      · rw [hp] at h2; cases h2
      · exact h2
    simp [h3]

/-- On the engine's turn the step is the completion of the latched word. -/
theorem step_engine {s : State} (h : EngineTurn s) : step s = s.completeCommand := by
  obtain ⟨h1, h2⟩ := h
  have hm : s.mover = .engine := by
    unfold State.mover
    rw [h1]
    cases hp : s.pending with
    | nil => rfl
    | cons op rest =>
      rcases h2 with h2 | h2
      · rw [hp] at h2; cases h2
      · simp [h2]
  show s.advance = _
  rw [State.advance, hm]

/-- Everything a step that goes on can be. -/
inductive StepCase (s t : State) : Prop
  | engine (turn : EngineTurn s) (eq : s.completeCommand = .next t)
  | host (op : HostOp) (rest : List HostOp) (turn : HostTurn s op rest) (eq : s.hostStep op rest = .next t)
  | nobody (phase : s.phase = .idle) (pending : s.pending = []) (eq : t = s)

theorem step_cases {s t : State} (h : step s = .next t) : StepCase s t := by
  change s.advance = _ at h
  unfold State.advance State.mover at h
  cases hp : s.phase with
  | idle =>
    cases hq : s.pending with
    | nil => rw [hp, hq] at h; exact .nobody hp hq (by simpa using h.symm)
    | cons op rest => rw [hp, hq] at h; exact .host op rest ⟨hq, .inl hp⟩ h
  | busy =>
    cases hq : s.pending with
    | nil => rw [hp, hq] at h; exact .engine ⟨hp, .inl hq⟩ h
    | cons op rest =>
      rw [hp, hq] at h
      by_cases hd : s.delay = 0
      · exact .engine ⟨hp, .inr hd⟩ (by simpa [hd] using h)
      · exact .host op rest ⟨hq, .inr hd⟩ (by simpa [hd] using h)

/-- A run of one more step after a step that goes on. -/
theorem run_succ_next (M : Host.Core) (k : Nat) {s t : M.State} (h : M.step s = .next t) : M.run (k + 1) s = M.run k t := by
  simp only [Host.Core.run, h]

theorem run_succ_fault (M : Host.Core) (k : Nat) {s : M.State} {f : M.Fault} (h : M.step s = .fault f) :
    M.run (k + 1) s = .fault f := by
  simp only [Host.Core.run, h]

/-! ### Addresses (20_memory.md R80, R85, R88) -/

theorem offsetOf_base (p : Params) (o : Nat) : offsetOf p (p.base + o) = some o := by simp [offsetOf]

theorem locate_csr {p : Params} {o : Nat} (h : o < 0x100) : locate p o = .csr o := by rw [locate, if_pos h]

theorem locate_unimplemented {p : Params} {o : Nat}
    (h : (0x100 ≤ o ∧ o < 0x100000) ∨ (0x300000 ≤ o ∧ o < 0x400000) ∨ 0x800000 ≤ o) : locate p o = .unimplemented := by
  unfold locate
  rw [if_neg (by omega)]
  rcases h with h | h | h
  · rw [if_pos (by omega)]
  · rw [if_neg (by omega), if_neg (by omega), if_neg (by omega), if_pos (by omega)]
  · rw [if_neg (by omega), if_neg (by omega), if_neg (by omega), if_neg (by omega), if_neg (by omega)]

/-- A byte of a memory window beyond its implemented size is unimplemented (20_memory.md R88). -/
theorem locate_beyond {p : Params} {sp : MemSpace} {k : Nat} (h1 : windowOffset sp + k < windowEnd sp)
    (h2 : memBytes p sp ≤ k) : locate p (windowOffset sp + k) = .unimplemented := by
  have hw : ∀ j, j = k → inWindow p sp j = .unimplemented := fun j hj => by
    unfold inWindow
    rw [if_neg (by omega)]
  have ho : ∀ o, o = windowOffset sp + k → locate p o = .unimplemented := by
    intro o ho
    unfold locate
    cases sp <;> simp only [windowOffset, windowEnd] at h1 ho
    · rw [if_neg (by omega), if_neg (by omega), if_pos (by omega)]
      exact hw _ (by omega)
    · rw [if_neg (by omega), if_neg (by omega), if_neg (by omega), if_pos (by omega)]
      exact hw _ (by omega)
    · rw [if_neg (by omega), if_neg (by omega), if_neg (by omega), if_neg (by omega), if_neg (by omega), if_pos (by omega)]
      exact hw _ (by omega)
  exact ho _ rfl

/-- A located memory byte is implemented. -/
theorem locate_mem_lt {p : Params} {o k : Nat} {sp : MemSpace} (h : locate p o = .mem sp k) : k < memBytes p sp := by
  have hw : ∀ {sp' : MemSpace} {j : Nat}, inWindow p sp' j = .mem sp k → k < memBytes p sp := by
    intro sp' j h'
    unfold inWindow at h'
    split at h'
    · rename_i hj
      obtain ⟨rfl, rfl⟩ := Location.mem.inj h'
      exact hj
    · cases h'
  unfold locate at h
  split at h
  · cases h
  split at h
  · cases h
  split at h
  · exact hw h
  split at h
  · exact hw h
  split at h
  · cases h
  split at h
  · exact hw h
  · cases h

/-- The windows of a well-formed block hold its memories (R9, R80). -/
theorem locate_window {p : Params} (hp : p.wellFormed = true) {sp : MemSpace} {k : Nat} (hk : k < memBytes p sp) :
    locate p (windowOffset sp + k) = .mem sp k := by
  simp only [Params.wellFormed, Params.psduOk, Params.inMemOk, Params.bitMemOk, Params.smpMemOk, Bool.and_eq_true,
    decide_eq_true_eq] at hp
  cases sp <;> simp only [memBytes] at hk <;> unfold locate windowOffset inWindow <;> dsimp only
  · rw [if_neg (by omega), if_neg (by omega), if_pos (by omega), if_pos (by simp only [memBytes]; omega),
      Nat.add_sub_cancel_left]
  · rw [if_neg (by omega), if_neg (by omega), if_neg (by omega), if_pos (by omega),
      if_pos (by simp only [memBytes]; omega), Nat.add_sub_cancel_left]
  · rw [if_neg (by omega), if_neg (by omega), if_neg (by omega), if_neg (by omega), if_neg (by omega),
      if_pos (by omega), if_pos (by simp only [memBytes]; omega), Nat.add_sub_cancel_left]

/-! ### Host writes -/

/-- Everything a host write that goes on can be: nothing, a 32-bit CSR write, or stores to implemented bytes outside the running
command's ranges. -/
theorem hostWrite_cases {s t : State} {addr : Nat} {w : Width} {data : Word} (h : s.hostWrite addr w data = .next t) :
    t = s ∨
    (∃ off, w = .w32 ∧ s.params.base ≤ addr ∧ off = alignDown (addr - s.params.base) 4 ∧ off < 0x100 ∧
      t = s.csrWriteAt off data) ∨
    (∃ bytes, (∀ x ∈ bytes, x.2.1 < memBytes s.params x.1 ∧ s.inRunningRange x.1 x.2.1 = false) ∧
      t = s.storeBytes bytes) := by
  unfold State.hostWrite at h
  cases ho : offsetOf s.params addr with
  | none => rw [ho] at h; exact .inl (by simpa using h.symm)
  | some off =>
    rw [ho] at h
    have hb : s.params.base ≤ addr ∧ off = addr - s.params.base := by
      unfold offsetOf at ho
      split at ho
      · cases ho
      · have := Option.some.inj ho; omega
    dsimp only at h
    split at h
    · rename_i hlt
      cases w
      · exact .inl (by simpa using h.symm)
      · exact .inl (by simpa using h.symm)
      · exact .inr (.inl ⟨_, rfl, hb.1, rfl, by rw [← hb.2]; exact hlt, by rw [← hb.2]; exact (Host.Outcome.next.inj h).symm⟩)
    · unfold State.writeMem at h
      split at h
      · cases h
      · rename_i hf
        refine .inr (.inr ⟨_, fun x hx => ⟨?_, ?_⟩, by simpa using h.symm⟩)
        · simp only [storedBytes, List.mem_filterMap, List.mem_range] at hx
          obtain ⟨j, -, hx⟩ := hx
          split at hx
          · rename_i hl
            obtain rfl := Option.some.inj hx
            exact locate_mem_lt hl
          · cases hx
        · simpa using List.find?_eq_none.mp hf x hx

/-- A 32-bit host write at any of the four byte addresses of the CSR word at `r` is a write of that CSR (20_memory.md R84, R85). -/
theorem step_csrWrite {s : State} {r j : Nat} {w : Word} {rest : List HostOp} (hr : r % 4 = 0) (hj : j < 4) (hl : r < 0x100)
    (h : HostTurn s (.write (s.params.base + r + j) .w32 w) rest) : step s = .next ((Issued s rest).csrWriteAt r w) := by
  have ha : alignDown (r + j) 4 = r := by unfold alignDown; omega
  rw [step_host h]
  simp only [State.hostStep, State.hostWrite, Nat.add_assoc, offsetOf_base, Width.bytes, ha]
  rw [if_pos hl]
  rfl

/-- Storing bytes changes the memories only. -/
theorem storeBytes_rest (bytes : List (MemSpace × Nat × Byte)) (s : State) :
    { s.storeBytes bytes with inMem := s.inMem, bitMem := s.bitMem, smpMem := s.smpMem } = s := by
  induction bytes generalizing s with
  | nil => rfl
  | cons x bytes ih =>
    obtain ⟨sp, k, b⟩ := x
    have h := ih (s.setMem sp ((s.mem sp).write k b))
    simp only [State.storeBytes]
    cases sp <;> (simp only [State.setMem] at h ⊢; injection h; simp_all)

/-- A byte that is not stored keeps its value. -/
theorem read_storeBytes {bytes : List (MemSpace × Nat × Byte)} {s : State} {sp : MemSpace} {a : Nat}
    (h : ∀ x ∈ bytes, ¬ (x.1 = sp ∧ x.2.1 = a)) : ((s.storeBytes bytes).mem sp).read a = (s.mem sp).read a := by
  induction bytes generalizing s with
  | nil => rfl
  | cons y bytes ih =>
    obtain ⟨sp', k, b⟩ := y
    have hy := h (sp', k, b) (by simp)
    rw [State.storeBytes, ih fun x hx => h x (by simp [hx])]
    by_cases hs : sp = sp'
    · subst hs
      rw [setMem_mem_self, read_write, if_neg (by rintro rfl; exact hy ⟨rfl, rfl⟩)]
    · rw [setMem_mem_ne s _ hs]

/-- Storing to one memory leaves the others. -/
theorem mem_storeBytes_ne {bytes : List (MemSpace × Nat × Byte)} {s : State} {sp sp' : MemSpace} (hne : sp' ≠ sp)
    (h : ∀ x ∈ bytes, x.1 = sp) : (s.storeBytes bytes).mem sp' = s.mem sp' := by
  induction bytes generalizing s with
  | nil => rfl
  | cons y bytes ih =>
    obtain ⟨sp'', k, b⟩ := y
    obtain rfl : sp'' = sp := h (sp'', k, b) (by simp)
    rw [State.storeBytes, ih fun x hx => h x (by simp [hx]), setMem_mem_ne s _ hne]

theorem storeBytes_append (xs ys : List (MemSpace × Nat × Byte)) (s : State) :
    s.storeBytes (xs ++ ys) = (s.storeBytes xs).storeBytes ys := by
  induction xs generalizing s with
  | nil => rfl
  | cons x xs ih => obtain ⟨sp, k, b⟩ := x; simp only [List.cons_append, State.storeBytes, ih]

/-- Each byte of a stored unit reads as stored. -/
theorem read_storeBytes_unit (sp : MemSpace) (a n : Nat) (f : Nat → Byte) (s : State) {j : Nat} (hj : j < n) :
    ((s.storeBytes ((List.range n).map fun j => (sp, a + j, f j))).mem sp).read (a + j) = some (f j) := by
  induction n with
  | zero => omega
  | succ n ih =>
    rw [List.range_succ, List.map_append, storeBytes_append]
    simp only [List.map_cons, List.map_nil, State.storeBytes]
    rw [setMem_mem_self, read_write]
    by_cases h : j = n
    · subst h; simp
    · rw [if_neg (by omega), ih (by omega)]

/-- A byte of a written word, as a number (20_memory.md R86). -/
theorem wordByte_eq (w : Word) (j : Nat) : wordByte w j = BitVec.ofNat 8 (w.toNat / 256 ^ j) := by
  apply BitVec.eq_of_toNat_eq
  simp only [wordByte, BitVec.extractLsb'_toNat, Nat.shiftRight_eq_div_pow, BitVec.toNat_ofNat]
  rw [show (2 : Nat) ^ (8 * j) = 256 ^ j by rw [Nat.pow_mul]]

/-- The aligned unit of an access to a memory window lies in the window, past the CSRs (20_memory.md R80, R85). -/
theorem alignDown_window (sp : MemSpace) (k : Nat) (width : Width) :
    alignDown (windowOffset sp + k) width.bytes = windowOffset sp + (k - k % width.bytes) ∧
      ¬ alignDown (windowOffset sp + k) width.bytes < 0x100 := by
  cases sp <;> cases width <;> simp only [alignDown, windowOffset, Width.bytes] <;> omega

/-- The bytes a write of an implemented unit stores (20_memory.md R85, R86). -/
theorem storedBytes_window {p : Params} (hp : p.wellFormed = true) {sp : MemSpace} {u n : Nat} (h : u + n ≤ memBytes p sp)
    (w : Word) : storedBytes p (windowOffset sp + u) n w = (List.range n).map fun j => (sp, u + j, wordByte w j) := by
  unfold storedBytes
  rw [← List.filterMap_eq_map]
  refine List.filterMap_congr fun j hj => ?_
  rw [List.mem_range] at hj
  rw [Nat.add_assoc, locate_window hp (by omega)]
  rfl

/-- Abandoning a command changes the memories and the draw counter only (70_reset_and_hazards.md R392). -/
theorem abandonOutput_rest (s : State) :
    { s.abandonOutput with inMem := s.inMem, bitMem := s.bitMem, smpMem := s.smpMem, draws := s.draws } = s := by
  unfold State.abandonOutput
  split
  · rfl
  · split
    · rfl
    · rename_i e _
      cases e.space <;> rfl

/-! ### The CSR map (10_state.md R32) -/

/-- The offset of each CSR. -/
def csrOffset : Csr → Nat
  | .cmd => 0x00
  | .status => 0x04
  | .txcfg => 0x08
  | .seed => 0x0C
  | .psduLen => 0x10
  | .stageLen => 0x14
  | .symIndex => 0x18
  | .detLen => 0x1C
  | .detMaxScan => 0x20
  | .detThrShort => 0x24
  | .detThrLong => 0x28
  | .nSym => 0x30
  | .nPad => 0x34
  | .nData => 0x38
  | .outLen => 0x3C
  | .txTime => 0x40
  | .detIndex => 0x44
  | .caps => 0x48

/-- No two CSRs share an offset: "No register is banked or aliased" (R32). -/
theorem csrAt_eq_some {off : Nat} {c : Csr} (h : csrAt off = some c) : off = csrOffset c := by
  unfold csrAt at h
  split at h <;> first | (obtain rfl := Option.some.inj h; rfl) | cases h

end Sys2Proof.Laws
end

