-- ==== Sys2Proof/Laws/PerInstr.lean ====
section
/-! SUPPORT. What holds of every command's encoding, one lemma per constructor of Instr (30_encoding.md R110, R112, R114). -/

namespace Sys2Proof.Laws

/-- The opcode selects the command, the rest of its word is 0, and a block with the detector decodes the word. -/
def OpcodeRoundTrip.Statement (i : Instr) : Prop :=
  decodeOp (opcode i) = some i ∧ (encode i).extractLsb' 0 8 = opcode i ∧ (encode i).extractLsb' 8 24 = 0#24 ∧
    (decode true (encode i)).toOption = some i

theorem OpcodeRoundTrip.nop : OpcodeRoundTrip.Statement .nop := by unfold OpcodeRoundTrip.Statement; decide
theorem OpcodeRoundTrip.encodeFrame : OpcodeRoundTrip.Statement .encodeFrame := by unfold OpcodeRoundTrip.Statement; decide
theorem OpcodeRoundTrip.genPreamble : OpcodeRoundTrip.Statement .genPreamble := by unfold OpcodeRoundTrip.Statement; decide
theorem OpcodeRoundTrip.genSignal : OpcodeRoundTrip.Statement .genSignal := by unfold OpcodeRoundTrip.Statement; decide
theorem OpcodeRoundTrip.frameSizing : OpcodeRoundTrip.Statement .frameSizing := by unfold OpcodeRoundTrip.Statement; decide
theorem OpcodeRoundTrip.scramble : OpcodeRoundTrip.Statement .scramble := by unfold OpcodeRoundTrip.Statement; decide
theorem OpcodeRoundTrip.buildDataField : OpcodeRoundTrip.Statement .buildDataField := by
  unfold OpcodeRoundTrip.Statement; decide
theorem OpcodeRoundTrip.convEncode : OpcodeRoundTrip.Statement .convEncode := by unfold OpcodeRoundTrip.Statement; decide
theorem OpcodeRoundTrip.puncture : OpcodeRoundTrip.Statement .puncture := by unfold OpcodeRoundTrip.Statement; decide
theorem OpcodeRoundTrip.interleave : OpcodeRoundTrip.Statement .interleave := by unfold OpcodeRoundTrip.Statement; decide
theorem OpcodeRoundTrip.deinterleave : OpcodeRoundTrip.Statement .deinterleave := by unfold OpcodeRoundTrip.Statement; decide
theorem OpcodeRoundTrip.mapSymbol : OpcodeRoundTrip.Statement .mapSymbol := by unfold OpcodeRoundTrip.Statement; decide
theorem OpcodeRoundTrip.modulateSymbol : OpcodeRoundTrip.Statement .modulateSymbol := by
  unfold OpcodeRoundTrip.Statement; decide
theorem OpcodeRoundTrip.detectShort : OpcodeRoundTrip.Statement .detectShort := by unfold OpcodeRoundTrip.Statement; decide
theorem OpcodeRoundTrip.detectLong : OpcodeRoundTrip.Statement .detectLong := by unfold OpcodeRoundTrip.Statement; decide

end Sys2Proof.Laws
end

