-- ==== Sys2Proof/Machine/Script.lean ====
section
/-! DEFINITION. The host-script notation: its bus operations and pseudo-instructions (30_encoding.md R117 to R119). -/

namespace Sys2Proof.Machine

/-- The script forms of R117 and the pseudo-instructions of R118. Offsets are relative to BASE. -/
inductive ScriptLine where
  | wr (off : Nat) (v : Word)
  | wrb (off : Nat) (b : Byte)
  | rd (off : Nat)
  | rdb (off : Nat)
  | cmd (i : Instr)
  | poll
  | cfg (bw rate msb : Nat)
  | seed (v : Word)
  | len (v : Word)
  | stage (v : Word)
  | symidx (v : Word)
  | clrdrop
  | wrbytes (off : Nat) (bs : List Byte)
  deriving DecidableEq, Repr

/-- `wrb OFF, b0`; `wrb OFF+1, b1`; ... (R118). -/
def byteWrites (addr : Nat) : List Byte → List HostOp
  | [] => []
  | b :: bs => .write addr .w8 (b.setWidth 32) :: byteWrites (addr + 1) bs

/-- The bus operations of a script line, for a block at `base` (R117, R118). -/
def ScriptLine.expand (base : Nat) : ScriptLine → List HostOp
  | .wr off v => [.write (base + off) .w32 v]
  | .wrb off b => [.write (base + off) .w8 (b.setWidth 32)]
  | .rd off => [.read (base + off) .w32]
  | .rdb off => [.read (base + off) .w8]
  | .cmd i => [.write (base + 0x00) .w32 (encode i)]
  | .poll => [.poll]
  | .cfg bw rate msb => [.write (base + 0x08) .w32 (BitVec.ofNat 32 (msb <<< 8 ||| bw <<< 4 ||| rate))]
  | .seed v => [.write (base + 0x0C) .w32 v]
  | .len v => [.write (base + 0x10) .w32 v]
  | .stage v => [.write (base + 0x14) .w32 v]
  | .symidx v => [.write (base + 0x18) .w32 v]
  | .clrdrop => [.write (base + 0x04) .w32 0x00000010#32]
  | .wrbytes off bs => byteWrites (base + off) bs

/-- The state whose host goes on to issue a script (R117). -/
def State.withScript (s : State) (lines : List ScriptLine) : State :=
  { s with pending := s.pending ++ lines.flatMap (ScriptLine.expand s.params.base) }

end Sys2Proof.Machine
end

