-- ==== Sys2Proof/Tests/Slice0.lean ====
section
/-! SUPPORT. Small tests with values of 30_encoding.md and 95_test_vectors.md, and a witness for the hypotheses of every statement. -/

namespace Sys2Proof.Tests

open Sys2Proof.Machine Sys2Proof.Safety

/-! ### Helpers -/

/-- The configuration CSRs after reset, in a block with the detector. -/
def cfg : ConfigRegs := ConfigRegs.reset true

/-- A block in the middle of a command: the word is latched, the snapshot is `r`, IN_MEM holds `input`, SMP_MEM holds `smp`. -/
def busyAt (w : Word) (r : ConfigRegs) (input : List Byte) (smp : List C64) : State :=
  { State.reset with cmd := w, snap := r, regs := r, phase := .busy, inMem := cellsFrom 0 input,
                     smpMem := Memory.writeBlock [] 0 (smp.flatMap sampleBytes) }

/-- A block about to complete command `i`. -/
def atCommand (i : Instr) (r : ConfigRegs) (input : List Byte) : State := busyAt (encode i) r input []

/-- The host has one operation to issue; the block is IDLE. -/
def hostIdle (op : HostOp) : State := { State.reset with pending := [op] }

/-- The host has one operation to issue before the block completes command `i`. -/
def hostBusy (op : HostOp) (i : Instr) (r : ConfigRegs) (input : List Byte) : State :=
  { atCommand i r input with pending := [op], delay := 1 }

/-- The next state, if there is one. -/
def next? : Host.Outcome State Fault Refusal → Option State
  | .next s => some s
  | _ => none

/-- The bits of a string of 0 and 1, first bit first. -/
def bitsOf (x : String) : List Bool := x.toList.map fun c => c == '1'

/-- The bytes of BIT_MEM, OUT_LEN and the STATUS word after a command. -/
def bitsAfter (i : Instr) (r : ConfigRegs) (input : List Byte) : Option (List Byte × Nat × Word) :=
  (next? (exec i (atCommand i r input))).map fun t =>
    (t.bitMem.map Prod.snd, t.results.outLen.toNat, t.csrRead 0x04)

/-- The STATUS word after the step that completes a latched word, with IN_MEM unwritten. -/
def statusAfter (w : Word) (r : ConfigRegs) : Option Word :=
  (next? (step (busyAt w r [] []))).map fun t => t.csrRead 0x04

/-- N_SYM, N_DATA, N_PAD, TXTIME and OUT_LEN after a command. -/
def countsAfter (i : Instr) (r : ConfigRegs) (input : List Byte) : Option (List Nat) :=
  (next? (exec i (atCommand i r input))).map fun t =>
    [t.results.nSym.toNat, t.results.nData.toNat, t.results.nPad.toNat, t.results.txTime.toNat, t.results.outLen.toNat]

/-! ### Decode: every command word written out from 30_encoding.md R110, R112, and the illegal words of R116 -/

theorem test_decode_nop : decode true 0b00000000000000000000000000000000#32 = .ok .nop := by decide
theorem test_decode_encodeFrame : decode true 0b00000000000000000000000000000001#32 = .ok .encodeFrame := by decide
theorem test_decode_genPreamble : decode true 0b00000000000000000000000000000010#32 = .ok .genPreamble := by decide
theorem test_decode_genSignal : decode true 0b00000000000000000000000000000011#32 = .ok .genSignal := by decide
theorem test_decode_frameSizing : decode true 0b00000000000000000000000000000100#32 = .ok .frameSizing := by decide
theorem test_decode_scramble : decode true 0b00000000000000000000000000010000#32 = .ok .scramble := by decide
theorem test_decode_buildDataField : decode true 0b00000000000000000000000000010001#32 = .ok .buildDataField := by decide
theorem test_decode_convEncode : decode true 0b00000000000000000000000000010010#32 = .ok .convEncode := by decide
theorem test_decode_puncture : decode true 0b00000000000000000000000000010011#32 = .ok .puncture := by decide
theorem test_decode_interleave : decode true 0b00000000000000000000000000010100#32 = .ok .interleave := by decide
theorem test_decode_deinterleave : decode true 0b00000000000000000000000000010101#32 = .ok .deinterleave := by decide
theorem test_decode_mapSymbol : decode true 0b00000000000000000000000000010110#32 = .ok .mapSymbol := by decide
theorem test_decode_modulateSymbol : decode true 0b00000000000000000000000000010111#32 = .ok .modulateSymbol := by decide
theorem test_decode_detectShort : decode true 0b00000000000000000000000000100000#32 = .ok .detectShort := by decide
theorem test_decode_detectLong : decode true 0b00000000000000000000000000100001#32 = .ok .detectLong := by decide

theorem test_decode_reserved_bits :
    decode true 0x00000101#32 = .error .reservedBits ∧ decode true 0x80000000#32 = .error .reservedBits ∧
    decode true 0x00000105#32 = .error .reservedBits := by decide

theorem test_decode_unassigned :
    decode true 0x05#32 = .error .unassignedOpcode ∧ decode true 0x0F#32 = .error .unassignedOpcode ∧
    decode true 0x18#32 = .error .unassignedOpcode ∧ decode true 0x22#32 = .error .unassignedOpcode ∧
    decode true 0xFF#32 = .error .unassignedOpcode := by decide

theorem test_decode_no_detector :
    decode false 0x20#32 = .error .noDetector ∧ decode false 0x21#32 = .error .noDetector ∧
    decode false 0x17#32 = .ok .modulateSymbol := by decide

theorem test_decodeTableWord :
    decodeTableWord 32 0x14 = some .interleave ∧ decodeTableWord 8 0x21 = some .detectLong ∧
    decodeTableWord 32 0x06 = none ∧ decodeTableWord 32 0x80000010 = none := by decide

/-- A word placed where the next step runs it is run by the first step after reset. -/
theorem test_withFetchWord : step (State.reset.withFetchWord 32 0x10) = exec .scramble (State.reset.present 0x10#32) := by
  have hc : (State.reset.present 0x10#32).completeCommand = exec .scramble (State.reset.present 0x10#32) := by
    have hd : decode (State.reset.present 0x10#32).params.hasDetector (State.reset.present 0x10#32).cmd = .ok .scramble := by
      decide
    unfold State.completeCommand
    rw [hd]
  exact (Laws.step_engine ⟨rfl, .inl rfl⟩).trans hc

/-! ### WellFormed refuses ill-formed terms (30_encoding.md R113, 00_scope.md R8, R9) -/

theorem test_wellFormed_default : Params.default.wellFormed = true := by decide
theorem test_detector_commands_need_detector :
    Instr.wellFormed false .detectShort = false ∧ Instr.wellFormed false .detectLong = false ∧
    Instr.wellFormed true .detectShort = true ∧ Instr.wellFormed false .nop = true := by decide
theorem test_psduOk_refuses :
    ({ Params.default with maxPsdu := 0 } : Params).psduOk = false ∧
    ({ Params.default with maxPsdu := 4096 } : Params).psduOk = false := by decide
theorem test_inMemOk_refuses :
    ({ Params.default with inMemBytes := 4094 } : Params).inMemOk = false ∧
    ({ Params.default with inMemBytes := 2 ^ 20 + 1 } : Params).inMemOk = false := by decide
theorem test_bitMemOk_refuses :
    ({ Params.default with bitMemBytes := 16383 } : Params).bitMemOk = false ∧
    ({ Params.default with bitMemBytes := 2 ^ 20 + 1 } : Params).bitMemOk = false := by decide
theorem test_smpMemOk_refuses :
    ({ Params.default with smpMemSamples := 109680 } : Params).smpMemOk = false ∧
    ({ Params.default with smpMemSamples := 109681 } : Params).smpMemOk = true ∧
    ({ Params.default with smpMemSamples := 2 ^ 18 + 1 } : Params).smpMemOk = false := by decide

/-! ### One command at a time, against 95_test_vectors.md -/

-- F5
theorem test_nop : statusAfter 0x00 cfg = some 0x00000002#32 := by decide
-- section 2.1, and X9
theorem test_frameSizing :
    countsAfter .frameSizing { cfg with rate := 5, psduLen := 100 } [] = some [6, 864, 42, 44, 0] ∧
    countsAfter .frameSizing { cfg with rate := 0, bw := 1, psduLen := 4095 } [] = some [1366, 32784, 2, 2 * 5484, 0] := by
  decide
-- Z4, Z6
theorem test_scramble :
    bitsAfter .scramble { cfg with seed := 0x7F, stageLen := 16 } [0, 0] = some ([0x0E, 0xF2], 16, 0x00000002#32) ∧
    bitsAfter .scramble { cfg with stageLen := 16 } [0xCA, 0xF0] = some ([0xA6, 0xE9], 16, 0x00000002#32) := by decide
-- Z7
theorem test_scramble_empty : bitsAfter .scramble cfg [] = some ([], 0, 0x00000002#32) := by decide
-- D1, D2
theorem test_buildDataField :
    bitsAfter .buildDataField { cfg with psduLen := 1 } [0x01] =
      some ([0x6C, 0x19, 0x29, 0x03, 0x68, 0x55], 48, 0x00000002#32) ∧
    bitsAfter .buildDataField { cfg with psduLen := 1, psduMsbFirst := true } [0x01] =
      some ([0x6C, 0x19, 0xA8, 0x03, 0x68, 0x55], 48, 0x00000002#32) := by decide
-- D4
theorem test_buildDataField_partial_byte :
    bitsAfter .buildDataField { cfg with rate := 1, psduLen := 1 } [0xA5] =
      some ([0x6C, 0x19, 0x0C, 0x03, 0x60], 36, 0x00000002#32) ∧
    countsAfter .buildDataField { cfg with rate := 1, psduLen := 1 } [0xA5] = some [1, 36, 6, 24, 36] := by decide
-- E1, E4
theorem test_convEncode :
    convEncode (bitsOf "1000000") = bitsOf "11011111001011" ∧
    convEncode (bitsOf "1111111") = bitsOf "11100110100011" := by decide
-- program 3
theorem test_convEncode_command :
    bitsAfter .convEncode { cfg with stageLen := 6 } [0xB0] = some ([0xD1, 0xA0], 12, 0x00000002#32) := by decide
-- P2, P3
theorem test_puncture :
    puncture .threeQuarters (bitsOf "101101110010") = bitsOf "10111100" ∧
    puncture .twoThirds (bitsOf "101101110010") = bitsOf "101011001" := by decide
-- program 3
theorem test_puncture_command :
    bitsAfter .puncture { cfg with rate := 7, stageLen := 12 } [0xD1, 0xA0] = some ([0xC6], 8, 0x00000002#32) := by decide
-- I6
theorem test_interleave :
    interleave 48 1 (bitsOf "110100011010000100000010001111100111000000000000") =
      bitsOf "100101001101000000010100100000110010010010010100" := by decide
-- I5 at RATE 4: bit 1 moves to bit 13
theorem test_interleave_command :
    bitsAfter .interleave { cfg with rate := 4, stageLen := 192 } (0x40 :: List.replicate 23 0) =
      some (0x00 :: 0x04 :: List.replicate 22 0, 192, 0x00000002#32) := by decide +kernel
-- I7
theorem test_deinterleave_command :
    bitsAfter .deinterleave { cfg with rate := 4, stageLen := 192 } (0x00 :: 0x04 :: List.replicate 22 0) =
      some (0x40 :: List.replicate 23 0, 192, 0x00000002#32) := by decide +kernel
-- M3: chunk 1011 is 3/sqrt(10), 1/sqrt(10); chunk 0000 is -3/sqrt(10) twice
theorem test_mapSymbol :
    (next? (exec .mapSymbol (atCommand .mapSymbol { cfg with rate := 4, stageLen := 192 } (0xB0 :: List.replicate 23 0)))).map
      (fun t => (t.smpMem.sample? 0, t.smpMem.sample? 1, t.smpMem.sample? 48, t.results.outLen.toNat)) =
      some (some ⟨0x3FEE5B9D136C6D96#64, 0x3FD43D136248490F#64⟩,
            some ⟨0xBFEE5B9D136C6D96#64, 0xBFEE5B9D136C6D96#64⟩, none, 48) := by decide +kernel
-- section 2.6: OUT_LEN, and polarity by index (Y1, Y3, Y5)
theorem test_modulateSymbol :
    (next? (exec .modulateSymbol (atCommand .modulateSymbol { cfg with stageLen := 48 } (List.replicate 6 0)))).map
      (fun t => t.results.outLen.toNat) = some 81 ∧
    polarity 0 = 1 ∧ polarity 4 = -1 ∧ polarity 127 = 1 ∧ polarity 131 = -1 := by
  refine ⟨rfl, ?_⟩
  decide
-- section 2.7: OUT_LEN 322
theorem test_genPreamble :
    (next? (exec .genPreamble (atCommand .genPreamble cfg []))).map (fun t => t.results.outLen.toNat) = some 322 := by decide +kernel
-- R291: the nonzero slots its sentence names
theorem test_shortPattern :
    ((List.range 53).filter fun t => shortPattern.getD t 0 ≠ 0) = [2, 6, 10, 14, 18, 22, 30, 34, 38, 42, 46, 50] ∧
    shortPattern.length = 53 ∧ longPattern.length = 53 := by decide
-- section 2.7: OUT_LEN 81; G3
theorem test_genSignal :
    (next? (exec .genSignal (atCommand .genSignal cfg []))).map (fun t => t.results.outLen.toNat) = some 81 := rfl
theorem test_signalBits :
    (rateRow 7).map (fun p => signalBits p 4095) = some (bitsOf "001101111111111110000000") ∧
    (rateRow 7).map (fun p => signalCoded p 4095) =
      some (bitsOf "011011000010100101111010110011110111011111110110") := by decide
-- F3's interleaved bits I
theorem test_encodeBits :
    (rateRow 0).map (fun p => encodeBits p 0x5D#7 false [0x01]) =
      some (bitsOf ("001001111100101011100001111100010101001001001100" ++
        "111001010111001010000000111000100110100110111001")) := by decide
-- T3, T4
theorem test_detect_no_window :
    statusAfter 0x20 { cfg with detLen := 47 } = some 0x00000002#32 ∧
    statusAfter 0x21 { cfg with detLen := 63 } = some 0x00000002#32 := by decide

/-! ### Host reads (10_state.md R47, 20_memory.md R84, R86; 30_encoding.md R118) -/

theorem test_read_caps :
    (next? (step (hostIdle (.read 0x48 .w32)))).map (fun t => t.responses) = some [0x00010FFF#32] ∧
    (next? (step (hostIdle (.read 0x4A .w8)))).map (fun t => t.responses) = some [0x01#32] := by decide
-- R40 to R45 after FRAME_SIZING and BUILD_DATA_FIELD (95_test_vectors.md section 2.1, D4): N_SYM, N_PAD, N_DATA, OUT_LEN, TXTIME
theorem test_read_results :
    (next? (exec .frameSizing (atCommand .frameSizing { cfg with rate := 5, psduLen := 100 } []))).map
      (fun t => [0x30, 0x34, 0x38, 0x3C, 0x40, 0x44].map t.csrRead) =
      some [6#32, 42#32, 864#32, 0#32, 44#32, 0xFFFFFFFF#32] ∧
    (next? (exec .buildDataField (atCommand .buildDataField { cfg with rate := 1, psduLen := 1 } [0xA5]))).map
      (fun t => [0x30, 0x34, 0x38, 0x3C, 0x40, 0x44].map t.csrRead) =
      some [1#32, 6#32, 36#32, 36#32, 24#32, 0xFFFFFFFF#32] := by decide
-- R84, R85: a 32-bit write to the last byte address of SEED
theorem test_misaligned_csr_write :
    (next? (step (hostIdle (.write 0x0F .w32 0xFFFFFF7F)))).map (fun t => t.csrRead 0x0C) = some 0x7F#32 := by decide
theorem test_poll :
    (next? (step (hostBusy .poll .nop cfg []))).map (fun t => (t.responses, t.pending)) = some ([1#32], [.poll]) ∧
    (next? (step (hostIdle .poll))).map (fun t => (t.responses, t.pending)) = some ([0#32], []) := by decide

/-! ### Errors (section 2.10) -/

theorem test_invalid_rate :
    statusAfter 0x01 { cfg with rate := 9 } = some 0x00000206#32 ∧
    statusAfter 0x01 { cfg with bw := 2 } = some 0x00000206#32 := by decide
theorem test_psdu_too_large :
    statusAfter 0x01 { cfg with psduLen := 4096 } = some 0x00000306#32 ∧
    statusAfter 0x01 { cfg with rate := 9, psduLen := 5000 } = some 0x00000206#32 := by decide
theorem test_illegal_words :
    statusAfter 0x00000005 cfg = some 0x00000106#32 ∧ statusAfter 0x00000101 cfg = some 0x00000106#32 := by decide
theorem test_buffer_size :
    statusAfter 0x12 { cfg with stageLen := 65537 } = some 0x00000406#32 ∧
    statusAfter 0x16 { cfg with stageLen := 47 } = some 0x00000406#32 := by decide
-- P6, P7, I8
theorem test_whole_periods :
    statusAfter 0x13 { cfg with rate := 7, stageLen := 8 } = some 0x00000406#32 ∧
    statusAfter 0x13 { cfg with rate := 6, stageLen := 6 } = some 0x00000406#32 ∧
    statusAfter 0x14 { cfg with stageLen := 50 } = some 0x00000406#32 := by decide

/-! ### Witnesses: states and operands that meet the hypotheses of each statement -/

/-- A block without the detector. -/
def noDetector (w : Word) : State :=
  { busyAt w cfg [] [] with params := { Params.default with hasDetector := false } }

theorem witness_StepRunsTheDecodedCommand :
    EngineTurn (busyAt 0x10 cfg [] []) ∧
    decode (busyAt 0x10 cfg [] []).params.hasDetector (busyAt 0x10 cfg [] []).cmd = .ok .scramble :=
  ⟨⟨rfl, .inl rfl⟩, by decide⟩

theorem witness_IllegalWords_reserved :
    EngineTurn (busyAt 0x100 cfg [] []) ∧ (busyAt 0x100 cfg [] []).cmd.extractLsb' 8 24 ≠ 0 ∧
    EngineTurn (busyAt 0x80000000 cfg [] []) ∧ (busyAt 0x80000000 cfg [] []).cmd.extractLsb' 8 24 ≠ 0 :=
  ⟨⟨rfl, .inl rfl⟩, by decide, ⟨rfl, .inl rfl⟩, by decide⟩

theorem witness_IllegalWords_unassigned :
    EngineTurn (busyAt 0x05 cfg [] []) ∧ (∀ i, (busyAt 0x05 cfg [] []).cmd.extractLsb' 0 8 ≠ opcode i) ∧
    (∀ i, (busyAt 0x22 cfg [] []).cmd.extractLsb' 0 8 ≠ opcode i) :=
  ⟨⟨rfl, .inl rfl⟩, fun i => by cases i <;> decide, fun i => by cases i <;> decide⟩

theorem witness_IllegalWords_noDetector :
    EngineTurn (noDetector 0x20) ∧ (noDetector 0x20).params.hasDetector = false ∧
    (noDetector 0x20).cmd.extractLsb' 0 8 = 0x20#8 ∧ (noDetector 0x21).cmd.extractLsb' 0 8 = 0x21#8 :=
  ⟨⟨rfl, .inl rfl⟩, rfl, by decide, by decide⟩

/-- The first and the last byte address of CMD. -/
theorem witness_AcceptanceLatches :
    HostTurn (hostIdle (.write 0 .w32 0x10)) (.write ((hostIdle (.write 0 .w32 0x10)).params.base + 0x00 + 0) .w32 0x10) [] ∧
    HostTurn (hostIdle (.write 3 .w32 0x10)) (.write ((hostIdle (.write 3 .w32 0x10)).params.base + 0x00 + 3) .w32 0x10) [] ∧
    (hostIdle (.write 0 .w32 0x10)).phase = .idle ∧ (hostIdle (.write 3 .w32 0x10)).phase = .idle ∧
    (∃ t, exec .nop State.reset = .next t) :=
  ⟨⟨rfl, .inl rfl⟩, ⟨rfl, .inl rfl⟩, rfl, rfl, ⟨_, rfl⟩⟩

theorem witness_BusyCommandIsDropped :
    HostTurn (hostBusy (.write 0 .w32 0x01) .nop cfg [])
      (.write ((hostBusy (.write 0 .w32 0x01) .nop cfg []).params.base + 0x00 + 0) .w32 0x01) [] ∧
    HostTurn (hostBusy (.write 3 .w32 0x01) .nop cfg [])
      (.write ((hostBusy (.write 3 .w32 0x01) .nop cfg []).params.base + 0x00 + 3) .w32 0x01) [] ∧
    (hostBusy (.write 0 .w32 0x01) .nop cfg []).phase = .busy ∧ (hostBusy (.write 3 .w32 0x01) .nop cfg []).phase = .busy :=
  ⟨⟨rfl, .inr (by decide)⟩, ⟨rfl, .inr (by decide)⟩, rfl, rfl⟩

/-- A block whose CMD_DROPPED is 1. -/
def droppedThen (op : HostOp) : State := { hostIdle op with status := Status.reset.dropped }

theorem witness_CmdDroppedIsCleared :
    (droppedThen (.write 4 .w32 0x10)).status.cmdDropped = true ∧
    (next? (step (droppedThen (.write 4 .w32 0x10)))).map (fun t => t.status.cmdDropped) = some false ∧
    (next? (step (droppedThen .reset))).map (fun t => t.status.cmdDropped) = some false ∧
    (next? (step (droppedThen (.write 4 .w32 0xFFFFFFEF)))).map (fun t => t.status.cmdDropped) = some true := by decide

theorem witness_EveryCommandCompletesOrFailsWhole :
    (∃ t, exec .nop State.reset = .next t) ∧
    (∃ t, exec .mapSymbol (atCommand .mapSymbol cfg []) = .next t ∧ t.status.errCode = .bufferSizeMismatch) :=
  ⟨⟨_, rfl⟩, ⟨_, rfl, rfl⟩⟩

theorem witness_CommandsFaultOnlyOnUnwrittenInput :
    exec .scramble (atCommand .scramble { cfg with stageLen := 9 } [0]) = .fault (.unwrittenInput .inMem 1) := rfl

theorem witness_InvalidSelector :
    NeedsProfile .puncture ∧ (atCommand .puncture { cfg with rate := 8 } []).snap.rate.toNat > 7 ∧
    (atCommand .puncture { cfg with bw := 2 } []).snap.bw.toNat > 1 ∧
    (∃ t, exec .puncture (atCommand .puncture { cfg with rate := 8 } []) = .next t ∧
      t.status.errCode = .invalidDataRate) :=
  ⟨trivial, by decide, by decide, ⟨_, rfl, rfl⟩⟩

/-- RATE 7, BW 1 and one octet more than MAX_PSDU. -/
def longPsdu : ConfigRegs := { cfg with rate := 7, bw := 1, psduLen := 4096 }

theorem witness_LongPsdu :
    ChecksPsduLen .genSignal ∧ (atCommand .genSignal longPsdu []).snap.rate.toNat ≤ 7 ∧
    (atCommand .genSignal longPsdu []).snap.bw.toNat ≤ 1 ∧
    (atCommand .genSignal longPsdu []).snap.psduLen.toNat > (atCommand .genSignal longPsdu []).params.maxPsdu ∧
    (∃ t, exec .genSignal (atCommand .genSignal longPsdu []) = .next t ∧ t.status.errCode = .psduTooLarge) :=
  ⟨trivial, by decide, by decide, by decide, ⟨_, rfl, rfl⟩⟩

/-- The profile of RATE 0. -/
def rate0 : RateProfile := ⟨.bpsk, .half, 1, 48, 24, 0xB#4⟩

/-- A block with small memories. -/
def tinyBlock (i : Instr) (r : ConfigRegs) : State :=
  { atCommand i r [] with params := { Params.default with bitMemBytes := 2, smpMemSamples := 480 } }

theorem witness_WrongSizes_frame :
    profile (tinyBlock .encodeFrame cfg).snap.bw (tinyBlock .encodeFrame cfg).snap.rate = some rate0 ∧
    (tinyBlock .encodeFrame cfg).snap.psduLen.toNat ≤ (tinyBlock .encodeFrame cfg).params.maxPsdu ∧
    SizeMismatch (tinyBlock .encodeFrame cfg) rate0 .encodeFrame ∧
    SizeMismatch (tinyBlock .buildDataField cfg) rate0 .buildDataField :=
  ⟨rfl, by decide, by unfold SizeMismatch; decide, by unfold SizeMismatch; decide⟩

theorem witness_WrongSizes_bits :
    SizeMismatch (atCommand .scramble { cfg with stageLen := 65537 } []) rate0 .scramble ∧
    SizeMismatch (atCommand .convEncode { cfg with stageLen := 65537 } []) rate0 .convEncode ∧
    SizeMismatch (atCommand .puncture { cfg with stageLen := 65537 } []) rate0 .puncture ∧
    SizeMismatch (atCommand .interleave { cfg with stageLen := 47 } []) rate0 .interleave ∧
    SizeMismatch (atCommand .deinterleave { cfg with stageLen := 49 } []) rate0 .deinterleave ∧
    SizeMismatch (atCommand .mapSymbol { cfg with stageLen := 47 } []) rate0 .mapSymbol ∧
    SizeMismatch (atCommand .modulateSymbol { cfg with stageLen := 96 } []) rate0 .modulateSymbol ∧
    (∃ t, exec .mapSymbol (atCommand .mapSymbol { cfg with stageLen := 47 } []) = .next t ∧
      t.status.errCode = .bufferSizeMismatch) := by
  refine ⟨?_, ?_, ?_, ?_, ?_, ?_, ?_, ⟨_, rfl, rfl⟩⟩ <;> unfold SizeMismatch <;> decide

theorem witness_FrameSizing :
    profile { cfg with rate := 8 }.bw { cfg with rate := 8 }.rate = none ∧
    profile cfg.bw cfg.rate = some rate0 ∧
    (atCommand .frameSizing { cfg with psduLen := 4096 } []).snap.psduLen.toNat >
      (atCommand .frameSizing { cfg with psduLen := 4096 } []).params.maxPsdu ∧
    (atCommand .frameSizing { cfg with psduLen := 4095 } []).snap.psduLen.toNat ≤
      (atCommand .frameSizing { cfg with psduLen := 4095 } []).params.maxPsdu :=
  ⟨rfl, rfl, by decide, by decide⟩

/-- Nine bits in two bytes of IN_MEM. -/
def nineBits : List Bool := bitsOf "110010101"

/-- A block with those nine bits. -/
def atNineBits (i : Instr) : State := atCommand i { cfg with stageLen := 9 } [0xCA, 0x80]

theorem witness_ScrambleWritesScrambledBits :
    (atNineBits .scramble).snap.stageLen.toNat = nineBits.length ∧
    nineBits.length ≤ 8 * (atNineBits .scramble).params.inMemBytes ∧
    nineBits.length ≤ 8 * (atNineBits .scramble).params.bitMemBytes ∧ HoldsBits (atNineBits .scramble).inMem nineBits := by
  refine ⟨by decide, by decide, by decide, ?_⟩
  unfold HoldsBits
  decide

theorem witness_BuildDataField :
    profile (atCommand .buildDataField { cfg with psduLen := 1 } [0x01]).snap.bw
      (atCommand .buildDataField { cfg with psduLen := 1 } [0x01]).snap.rate = some rate0 ∧
    (atCommand .buildDataField { cfg with psduLen := 1 } [0x01]).snap.psduLen.toNat = [0x01#8].length ∧
    [0x01#8].length ≤ (atCommand .buildDataField { cfg with psduLen := 1 } [0x01]).params.maxPsdu ∧
    ceilDiv (sizing rate0 [0x01#8].length).nData 8 ≤
      (atCommand .buildDataField { cfg with psduLen := 1 } [0x01]).params.bitMemBytes ∧
    HoldsBytes (atCommand .buildDataField { cfg with psduLen := 1 } [0x01]).inMem [0x01#8] := by
  refine ⟨rfl, by decide, by decide, by decide, ?_⟩
  unfold HoldsBytes
  decide

theorem witness_ConvEncode :
    (atNineBits .convEncode).snap.stageLen.toNat = nineBits.length ∧
    nineBits.length ≤ 8 * (atNineBits .convEncode).params.inMemBytes ∧
    2 * nineBits.length ≤ 8 * (atNineBits .convEncode).params.bitMemBytes ∧
    HoldsBits (atNineBits .convEncode).inMem nineBits := by
  refine ⟨by decide, by decide, by decide, ?_⟩
  unfold HoldsBits
  decide

theorem witness_Puncture :
    profile (atNineBits .puncture).snap.bw (atNineBits .puncture).snap.rate = some rate0 ∧
    (atNineBits .puncture).snap.stageLen.toNat = nineBits.length ∧
    nineBits.length ≤ 8 * (atNineBits .puncture).params.inMemBytes ∧
    (rate0.codingRate = .twoThirds → nineBits.length % 4 = 0) ∧
    (rate0.codingRate = .threeQuarters → nineBits.length % 6 = 0) ∧ HoldsBits (atNineBits .puncture).inMem nineBits := by
  refine ⟨rfl, by decide, by decide, by decide, by decide, ?_⟩
  unfold HoldsBits
  decide

/-- One block of 48 bits, the first of them 1. -/
def oneBlock : List Bool := true :: List.replicate 47 false

/-- A block of the hardware with that block of bits. -/
def atOneBlock (i : Instr) : State := atCommand i { cfg with stageLen := 48 } [0x80, 0, 0, 0, 0, 0]

theorem oneBlock_held (i : Instr) : HoldsBits (atOneBlock i).inMem oneBlock := by
  show HoldsBits (cellsFrom 0 [0x80, 0, 0, 0, 0, 0]) oneBlock
  unfold HoldsBits
  decide +kernel

theorem witness_InterleaverCommands :
    profile (atOneBlock .interleave).snap.bw (atOneBlock .interleave).snap.rate = some rate0 ∧
    (atOneBlock .interleave).snap.stageLen.toNat = oneBlock.length ∧
    oneBlock.length ≤ 8 * (atOneBlock .interleave).params.inMemBytes ∧ oneBlock.length % rate0.nCbps = 0 ∧
    HoldsBits (atOneBlock .interleave).inMem oneBlock :=
  ⟨rfl, by decide, by decide, by decide, oneBlock_held _⟩

theorem witness_SymbolCommands :
    profile (atOneBlock .mapSymbol).snap.bw (atOneBlock .mapSymbol).snap.rate = some rate0 ∧
    (atOneBlock .mapSymbol).snap.stageLen.toNat = rate0.nCbps ∧ oneBlock.length = rate0.nCbps ∧
    HoldsBits (atOneBlock .mapSymbol).inMem oneBlock :=
  ⟨rfl, by decide, by decide, oneBlock_held _⟩

theorem witness_GenSignal :
    profile (atCommand .genSignal { cfg with psduLen := 4095 } []).snap.bw
      (atCommand .genSignal { cfg with psduLen := 4095 } []).snap.rate = some rate0 ∧
    (atCommand .genSignal { cfg with psduLen := 4095 } []).snap.psduLen.toNat ≤
      (atCommand .genSignal { cfg with psduLen := 4095 } []).params.maxPsdu := ⟨rfl, by decide⟩

theorem witness_EncodeFrame :
    profile (atCommand .encodeFrame { cfg with psduLen := 1 } [0x01]).snap.bw
      (atCommand .encodeFrame { cfg with psduLen := 1 } [0x01]).snap.rate = some rate0 ∧
    (atCommand .encodeFrame { cfg with psduLen := 1 } [0x01]).snap.psduLen.toNat = [0x01#8].length ∧
    [0x01#8].length ≤ (atCommand .encodeFrame { cfg with psduLen := 1 } [0x01]).params.maxPsdu ∧
    (5 + (sizing rate0 [0x01#8].length).nSym) * 80 + 1 ≤
      (atCommand .encodeFrame { cfg with psduLen := 1 } [0x01]).params.smpMemSamples ∧
    HoldsBytes (atCommand .encodeFrame { cfg with psduLen := 1 } [0x01]).inMem [0x01#8] := by
  refine ⟨rfl, by decide, by decide, by decide, ?_⟩
  unfold HoldsBytes
  decide

/-- A block whose SMP_MEM holds the short training sequence. -/
def atPreamble (i : Instr) (r : ConfigRegs) : State := busyAt (encode i) r [] (shortTraining hw)

theorem preamble_held (i : Instr) (r : ConfigRegs) : HoldsSamples (atPreamble i r).smpMem (shortTraining hw) :=
  fun k hk => Laws.sample?_writeSamples [] (shortTraining hw) k hk

theorem preamble_length (i : Instr) (r : ConfigRegs) (h : r.detLen = 161) :
    (shortTraining hw).length = min (atPreamble i r).snap.detLen.toNat (atPreamble i r).params.smpMemSamples := by
  rw [Laws.shortTraining_length]
  show 161 = min r.detLen.toNat 131072
  rw [h]
  decide

theorem witness_DetectShort_hypotheses :
    (shortTraining hw).length = min (atPreamble .detectShort { cfg with detLen := 161 }).snap.detLen.toNat
      (atPreamble .detectShort { cfg with detLen := 161 }).params.smpMemSamples ∧
    (48 ≤ (shortTraining hw).length →
      HoldsSamples (atPreamble .detectShort { cfg with detLen := 161 }).smpMem (shortTraining hw)) :=
  ⟨preamble_length _ _ rfl, fun _ => preamble_held _ _⟩

/-- A buffer one sample short of a window needs no written memory. -/
theorem witness_DetectShort_no_window :
    (List.replicate 47 C64.zero).length = min (atCommand .detectShort { cfg with detLen := 47 } []).snap.detLen.toNat
      (atCommand .detectShort { cfg with detLen := 47 } []).params.smpMemSamples ∧
    ¬ 48 ≤ (List.replicate 47 C64.zero).length := by decide

/-- The first clause: position 0 of a fresh preamble qualifies (48_frame_detector.md R343, property 3). -/
theorem witness_DetectShort_found :
    0 + 48 ≤ (shortTraining hw).length ∧ qualifies (shortMetric (shortTraining hw) 0) (f32ToF64 0x3F99999A#32) = true := by
  have hlen : 0 + 48 ≤ (shortTraining hw).length := by rw [Laws.shortTraining_length]; decide
  refine ⟨hlen, ?_⟩
  have hex : ∀ m, resetThreshold < m → exceeds m (f32ToF64 0x3F99999A#32) = true := by
    intro m hm
    have h1 : f64IsNaN (f32ToF64 0x3F99999A#32) = false := by decide +kernel
    have h2 : f64IsInf (f32ToF64 0x3F99999A#32) = false := by decide +kernel
    rw [exceeds, h1, h2]
    simpa [resetThreshold] using hm
  have hlt : resetThreshold < resetThreshold + 1 := lt_add_one _
  simp only [shortMetric, Nat.zero_add, and_self, if_true]
  cases Config.shortMetricFree (List.take 48 (shortTraining hw)) 0 with
  | none => exact hex _ hlt
  | some m =>
    simp only [qualifies]
    split
    · exact hex _ ‹_›
    · exact hex _ hlt

/-- The second clause: a NaN threshold qualifies no position (R344, R347), in either scan. -/
theorem witness_Detect_not_found (metric : Option Rat) : qualifies metric (f32ToF64 0x7FC00000#32) = false := by
  have h1 : f64IsNaN (f32ToF64 0x7FC00000#32) = true := by decide +kernel
  cases metric with
  | none => rfl
  | some m => rw [qualifies, exceeds, h1]; rfl

theorem witness_DetectLong_hypotheses :
    (shortTraining hw).length = min (atPreamble .detectLong { cfg with detLen := 161 }).snap.detLen.toNat
      (atPreamble .detectLong { cfg with detLen := 161 }).params.smpMemSamples ∧
    (64 ≤ (shortTraining hw).length →
      HoldsSamples (atPreamble .detectLong { cfg with detLen := 161 }).smpMem (shortTraining hw)) :=
  ⟨preamble_length _ _ rfl, fun _ => preamble_held _ _⟩

theorem witness_DetectShortFindsAFreshPreambleAtZero :
    (shortTraining hw).length = min (atPreamble .detectShort { cfg with detLen := 161 }).snap.detLen.toNat
      (atPreamble .detectShort { cfg with detLen := 161 }).params.smpMemSamples ∧
    161 ≤ (shortTraining hw).length ∧ (shortTraining hw).take 161 = shortTraining hw ∧
    HoldsSamples (atPreamble .detectShort { cfg with detLen := 161 }).smpMem (shortTraining hw) ∧
    (atPreamble .detectShort { cfg with detLen := 161 }).snap.detThrShort = 0x3F99999A#32 :=
  ⟨preamble_length _ _ rfl, by rw [Laws.shortTraining_length],
    List.take_of_length_le (by rw [Laws.shortTraining_length]), preamble_held _ _, rfl⟩

theorem witness_ScramblerPeriod : 0 + 127 < 128 := by decide

theorem witness_DataField : rateRow 0 = some rate0 ∧ 23 < (sizing rate0 [0x01#8].length).nData := by decide

theorem witness_ConvEncoderTaps : 6 < (bitsOf "1000000").length := by decide

theorem witness_Interleaver :
    rateRow 0 = some rate0 ∧ oneBlock.length = 1 * rate0.nCbps ∧ 0 < 1 ∧ 47 < rate0.nCbps ∧
    oneBlock.length % rate0.nCbps = 0 := by decide

theorem witness_Mapper : rateRow 0 = some rate0 ∧ oneBlock.length = rate0.nCbps ∧ 47 < 48 := by decide

theorem witness_SignalBits : 4095 ≤ 4095 ∧ 18 ≤ 23 ∧ 23 < 24 := by decide

theorem witness_SymbolSpectrum : (List.replicate 48 C64.zero).length = 48 ∧ (27 ≤ (27 : Fin 64).val ∧ (37 : Fin 64).val ≤ 37) := by
  decide

theorem witness_SymbolEdges : 16 ≤ 16 ∧ 79 ≤ 79 ∧ 1 ≤ 15 ∧ 15 ≤ 15 := by decide

theorem witness_FrameIsTheOverlapSum :
    (List.replicate 81 C64.zero).length = 81 ∧
    (∀ y ∈ [List.replicate 81 C64.zero, List.replicate 81 C64.zero], y.length = 81) ∧
    (∀ y ∈ ([] : List (List C64)), y.length = 81) := by decide

/-- 1.0 and 2^-53: their sum lies midway between 1.0, which is the result, and the next value. -/
theorem witness_Addition_tie :
    f64IsFinite 0x3FF0000000000000#64 = true ∧ f64IsFinite 0x3CA0000000000000#64 = true ∧
    f64Add 0x3FF0000000000000#64 0x3CA0000000000000#64 = 0x3FF0000000000000#64 ∧
    f64IsFinite 0x3FF0000000000001#64 = true ∧ f64ToRat 0x3FF0000000000001#64 ≠ f64ToRat 0x3FF0000000000000#64 ∧
    |f64ToRat 0x3FF0000000000000#64 - (f64ToRat 0x3FF0000000000000#64 + f64ToRat 0x3CA0000000000000#64)| =
      |f64ToRat 0x3FF0000000000001#64 - (f64ToRat 0x3FF0000000000000#64 + f64ToRat 0x3CA0000000000000#64)| := by
  decide +kernel

/-- The largest finite value and half of its last place: the sum is the midpoint from which it is an infinity. -/
theorem witness_Addition_overflow :
    f64IsFinite 0x7FEFFFFFFFFFFFFF#64 = true ∧ f64IsFinite 0x7C90000000000000#64 = true ∧
    f64Add 0x7FEFFFFFFFFFFFFF#64 0x7C90000000000000#64 = 0x7FF0000000000000#64 ∧
    f64IsFinite (f64Add 0x7FEFFFFFFFFFFFFF#64 0x7C8FFFFFFFFFFFFF#64) = true := by decide +kernel

theorem witness_Halving :
    f64IsFinite 0x0020000000000000#64 = true ∧ 2 ≤ f64Exp 0x0020000000000000#64 ∧
    f64IsFinite 0x0000000000000002#64 = true ∧ f64Frac 0x0000000000000002#64 % 2 = 0 ∧
    f64IsNaN 0x8000000000000000#64 = false := by decide

/-- Half of 3 and of 5 units of 2^-1074 is 2 units, and half of 1 unit is +0.0: each lies midway between two values. -/
theorem witness_Halving_tie :
    f64Half 0x0000000000000003#64 = 0x0000000000000002#64 ∧ f64Half 0x0000000000000005#64 = 0x0000000000000002#64 ∧
    f64Half 0x8000000000000001#64 = 0x8000000000000000#64 ∧ f64Half 0x001FFFFFFFFFFFFF#64 = 0x0010000000000000#64 ∧
    f64IsFinite 0x0000000000000001#64 = true ∧
    f64ToRat 0x0000000000000001#64 ≠ f64ToRat (f64Half 0x0000000000000003#64) ∧
    |f64ToRat (f64Half 0x0000000000000003#64) - f64ToRat 0x0000000000000003#64 / 2| =
      |f64ToRat 0x0000000000000001#64 - f64ToRat 0x0000000000000003#64 / 2| := by decide +kernel

theorem witness_Threshold :
    (0x3F99999A#32).extractLsb' 23 8 ≠ 255#8 ∧ (0x00000001#32).extractLsb' 23 8 ≠ 255#8 ∧
    (0x7FC00000#32).extractLsb' 23 8 = 255#8 ∧ (0x7FC00000#32).extractLsb' 0 23 ≠ 0 := by decide

/-- A metric of 2 exceeds the reset threshold, and one equal to the threshold 2.0 does not (strictly greater). -/
theorem witness_Threshold_strict :
    qualifies (some 2) (f32ToF64 0x3F99999A#32) = true ∧ qualifies (some 2) (f32ToF64 0x40000000#32) = false := by
  decide +kernel

theorem witness_ConstellationConstants : level .bpsk 0 ≠ 0 ∧ level .qam64 7 ≠ 0 := by decide

theorem witness_ConfigCsr :
    HostTurn (hostBusy (.write 0x08 .w32 0xFFFFFFFF) .nop cfg [])
      (.write ((hostBusy (.write 0x08 .w32 0xFFFFFFFF) .nop cfg []).params.base + 0x08 + 0) .w32 0xFFFFFFFF) [] ∧
    HostTurn (hostIdle (.write 0x2B .w32 0))
      (.write ((hostIdle (.write 0x2B .w32 0)).params.base + 0x28 + 3) .w32 0) [] :=
  ⟨⟨rfl, .inr (by decide)⟩, ⟨rfl, .inl rfl⟩⟩

/-- The boundary offsets of each clause: reserved and read-only CSRs, and narrow CSR writes. -/
theorem witness_IgnoredCsrWrites :
    HostTurn (hostIdle (.write 0x4C .w32 1)) (.write ((hostIdle (.write 0x4C .w32 1)).params.base + 0x4C) .w32 1) [] ∧
    HostTurn (hostIdle (.write 0xFF .w32 1)) (.write ((hostIdle (.write 0xFF .w32 1)).params.base + 0xFF) .w32 1) [] ∧
    HostTurn (hostIdle (.write 0x2C .w32 1)) (.write ((hostIdle (.write 0x2C .w32 1)).params.base + 0x2C) .w32 1) [] ∧
    HostTurn (hostIdle (.write 0x4B .w32 1)) (.write ((hostIdle (.write 0x4B .w32 1)).params.base + 0x4B) .w32 1) [] ∧
    0x4B = 0x48 + 3 ∧ (hostIdle (.write 0x4B .w32 1)).params.wellFormed = true ∧
    HostTurn (hostIdle (.write 0xFF .w8 1)) (.write ((hostIdle (.write 0xFF .w8 1)).params.base + 0xFF) .w8 1) [] ∧
    HostTurn (hostIdle (.write 0x00 .w16 1)) (.write ((hostIdle (.write 0x00 .w16 1)).params.base + 0x00) .w16 1) [] :=
  ⟨⟨rfl, .inl rfl⟩, ⟨rfl, .inl rfl⟩, ⟨rfl, .inl rfl⟩, ⟨rfl, .inl rfl⟩, rfl, by decide, ⟨rfl, .inl rfl⟩, ⟨rfl, .inl rfl⟩⟩

/-- The boundary offsets of the three kinds of unimplemented address; the last is one byte past the implemented IN_MEM. -/
theorem witness_UnimplementedAddresses :
    HostTurn (hostIdle (.write 0x100 .w16 1)) (.write ((hostIdle (.write 0x100 .w16 1)).params.base + 0x100) .w16 1) [] ∧
    HostTurn (hostIdle (.write 0x3FFFFF .w32 1))
      (.write ((hostIdle (.write 0x3FFFFF .w32 1)).params.base + 0x3FFFFF) .w32 1) [] ∧
    HostTurn (hostIdle (.write 0x800000 .w8 1))
      (.write ((hostIdle (.write 0x800000 .w8 1)).params.base + 0x800000) .w8 1) [] ∧
    HostTurn (hostIdle (.write 0x102000 .w8 1))
      (.write ((hostIdle (.write 0x102000 .w8 1)).params.base + 0x102000) .w8 1) [] ∧
    0x102000 = windowOffset .inMem + 8192 ∧ 0x102000 < windowEnd .inMem ∧
    memBytes (hostIdle (.write 0x102000 .w8 1)).params .inMem ≤ 8192 - 8192 % Width.w8.bytes :=
  ⟨⟨rfl, .inl rfl⟩, ⟨rfl, .inl rfl⟩, ⟨rfl, .inl rfl⟩, ⟨rfl, .inl rfl⟩, rfl, by decide, by decide⟩

theorem witness_StatusWrite :
    HostTurn (hostIdle (.write 0x04 .w32 0x10)) (.write ((hostIdle (.write 0x04 .w32 0x10)).params.base + 0x04 + 0) .w32 0x10) [] ∧
    HostTurn (hostIdle (.write 0x07 .w32 0x10)) (.write ((hostIdle (.write 0x07 .w32 0x10)).params.base + 0x04 + 3) .w32 0x10) [] :=
  ⟨⟨rfl, .inl rfl⟩, ⟨rfl, .inl rfl⟩⟩

theorem witness_HostReads :
    HostTurn (hostIdle (.read 0x44 .w16)) (.read 0x44 .w16) [] ∧ 0xFF < 0x100 ∧ HostTurn (hostIdle .poll) .poll [] ∧
    HostTurn (hostBusy .poll .nop cfg []) .poll [] :=
  ⟨⟨rfl, .inl rfl⟩, by decide, ⟨rfl, .inl rfl⟩, ⟨rfl, .inr (by decide)⟩⟩

/-- The last 32-bit unit of IN_MEM, through a misaligned address. -/
theorem witness_HostMemoryWrites :
    (hostIdle (.write 0x101FFF .w32 5)).params.wellFormed = true ∧ (hostIdle (.write 0x101FFF .w32 5)).phase = .idle ∧
    0x1FFF - 0x1FFF % Width.w32.bytes + Width.w32.bytes ≤ memBytes (hostIdle (.write 0x101FFF .w32 5)).params .inMem ∧
    HostTurn (hostIdle (.write 0x101FFF .w32 5))
      (.write ((hostIdle (.write 0x101FFF .w32 5)).params.base + windowOffset .inMem + 0x1FFF) .w32 5) [] :=
  ⟨by decide, rfl, by decide, ⟨rfl, .inl rfl⟩⟩

/-- Both cases of a byte read: in the running command's output range, and outside it. -/
theorem witness_HostMemoryReads :
    (atNineBits .scramble).params.wellFormed = true ∧ 0 - 0 % Width.w8.bytes + Width.w8.bytes ≤ memBytes (atNineBits .scramble).params .bitMem ∧
    (atNineBits .scramble).inRunningOutput .bitMem 1 = true ∧ (atNineBits .scramble).inRunningOutput .bitMem 2 = false := by
  decide

/-- A block running SCRAMBLE on nine bits: its input range is bytes 0 and 1 of IN_MEM. The host writes next. -/
def hazard (op : HostOp) : State := hostBusy op .scramble { cfg with stageLen := 9 } []

/-- Inside: the last byte of the range at 8 bits, and a misaligned 32-bit write whose unit begins in it. -/
theorem witness_BusyMemoryWriteHazard_inside :
    (hazard (.write 0x100001 .w8 5)).params.wellFormed = true ∧
    HostTurn (hazard (.write 0x100001 .w8 5))
      (.write ((hazard (.write 0x100001 .w8 5)).params.base + windowOffset .inMem + 1) .w8 5) [] ∧
    HostTurn (hazard (.write 0x100003 .w32 5))
      (.write ((hazard (.write 0x100003 .w32 5)).params.base + windowOffset .inMem + 3) .w32 5) [] ∧
    decode true (encode .scramble) = .ok .scramble ∧
    inExtent ((hazard (.write 0x100001 .w8 5)).inputRange .scramble) .inMem 1 = true ∧
    inExtent ((hazard (.write 0x100003 .w32 5)).inputRange .scramble) .inMem (3 - 3 % Width.w32.bytes) = true :=
  ⟨by decide, ⟨rfl, .inr (by decide)⟩, ⟨rfl, .inr (by decide)⟩, by decide, by decide, by decide⟩

/-- Outside: the first 16-bit unit past the range. -/
theorem witness_BusyMemoryWriteHazard_outside :
    HostTurn (hazard (.write 0x100002 .w16 5))
      (.write ((hazard (.write 0x100002 .w16 5)).params.base + windowOffset .inMem + 2) .w16 5) [] ∧
    (∀ a, 2 ≤ a → inExtent ((hazard (.write 0x100002 .w16 5)).inputRange .scramble) .inMem a = false) ∧
    (∀ a, inExtent ((hazard (.write 0x100002 .w16 5)).outputRange .scramble) .inMem a = false) := by
  refine ⟨⟨rfl, .inr (by decide)⟩, fun a ha => ?_, fun a => rfl⟩
  have h : decide (a < 2) = false := by simp; omega
  exact h

theorem witness_CommandsWriteOnlyTheirOutputRange :
    (next? (exec .scramble (atNineBits .scramble))).isSome = true ∧
    inExtent ((atNineBits .scramble).outputRange .scramble) .bitMem 2 = false := by decide

theorem witness_ResetInput :
    HostTurn (hostBusy .reset .scramble { cfg with stageLen := 9 } []) .reset [] ∧
    decode true (encode .scramble) = .ok .scramble ∧
    inExtent ((hostBusy .reset .scramble { cfg with stageLen := 9 } []).outputRange .scramble) .bitMem 2 = false :=
  ⟨⟨rfl, .inr (by decide)⟩, by decide, by decide⟩

/-- A state in which a command runs and a memory holds bytes has the invariant, and steps. -/
theorem witness_EveryStepKeepsTheInvariant :
    Inv (atNineBits .scramble) ∧ (next? (step (atNineBits .scramble))).isSome = true := by
  refine ⟨⟨by decide, by decide, by decide, ?_, ?_, ?_, ?_, ?_, ?_⟩, by decide⟩
  · show Memory.wf []
    exact List.Pairwise.nil
  · show Within [(0, 0xCA), (1, 0x80)] 8192
    unfold Within
    decide
  · show Within [] 16384
    unfold Within
    decide
  · show Within [] (16 * 131072)
    unfold Within
    simp
  · exact ⟨by decide, by decide, by decide, by decide⟩
  · intro h
    exact absurd h (by decide)

theorem witness_PowerOn : Params.default.wellFormed = true := by decide

theorem witness_BusyBlockCompletes : (atNineBits .scramble).phase = .busy := rfl

theorem witness_ResultsStandStill :
    (hostBusy (.read 0x44 .w32) .nop cfg []).phase = .busy ∧
    (next? (step (hostBusy (.read 0x44 .w32) .nop cfg []))).map (fun t => t.phase) = some .busy := by decide

theorem witness_IdleBlock :
    (hostIdle (.write 0x0C .w32 1)).phase = .idle ∧
    (next? (step (hostIdle (.write 0x0C .w32 1)))).map (fun t => t.phase) = some .idle ∧
    (next? (step (hostIdle (.write 0x00 .w32 1)))).map (fun t => t.phase) = some .busy := by decide

theorem witness_CommandsReadOnlyTheirInputRange :
    (atNineBits .scramble).snap = (atCommand .scramble { cfg with stageLen := 9 } [0xCA, 0x80, 0x77]).snap ∧
    (∀ sp k, inExtent ((atNineBits .scramble).inputRange .scramble) sp k = true →
      ((atCommand .scramble { cfg with stageLen := 9 } [0xCA, 0x80, 0x77]).mem sp).read k =
        ((atNineBits .scramble).mem sp).read k) ∧
    (next? (exec .scramble (atNineBits .scramble))).isSome = true := by
  refine ⟨rfl, fun sp k h => ?_, by decide⟩
  have h2 : sp = .inMem ∧ k < 2 := by
    have h3 : (decide (MemSpace.inMem = sp) && decide (k < 2)) = true := h
    simp only [Bool.and_eq_true, decide_eq_true_eq] at h3
    exact ⟨h3.1.symm, h3.2⟩
  obtain ⟨rfl, hk⟩ := h2
  interval_cases k <;> rfl

end Sys2Proof.Tests
end

section
/-! PROOFS. The invariant of the machine: what a completed command can write, what each kind of step keeps, and the statements that
power-on has the invariant and every step keeps it. -/

namespace Sys2Proof.Scope

open Sys2Proof.Machine Sys2Proof.Safety Sys2Proof.Laws

/-! ### The outputs of a command (20_memory.md R89) -/

/-- What the rule of each command computes. -/
def effectsOf (i : Instr) (s : State) : Except Stop Effects :=
  match i with
  | .nop => .ok Effects.nothing
  | .encodeFrame => runEncodeFrame s
  | .genPreamble => runGenPreamble
  | .genSignal => runGenSignal s
  | .frameSizing => runFrameSizing s
  | .scramble => runScramble s
  | .buildDataField => runBuildDataField s
  | .convEncode => runConvEncode s
  | .puncture => runPuncture s
  | .interleave => runInterleave s
  | .deinterleave => runDeinterleave s
  | .mapSymbol => runMapSymbol s
  | .modulateSymbol => runModulateSymbol s
  | .detectShort => runDetectShort s
  | .detectLong => runDetectLong s

/-- Every command is the shared completion of what its rule computes. -/
theorem exec_eq_finish (i : Instr) (s : State) : exec i s = s.finish (effectsOf i s) := by cases i <;> rfl

/-- The outputs are those of R89: the memory written is exactly the command's output range, and only the detect commands have a
scan result. -/
structure OutputsOf (i : Instr) (s : State) (e : Effects) : Prop where
  bits      : ∀ w, e.bits = some w → s.outputRange i = some (.outBits w.length)
  samples   : ∀ w, e.samples = some w → s.outputRange i = some (.samples w.length)
  detection : i.needsDetector = false → e.detection = none

theorem outputsOf_sizing (i : Instr) (s : State) (z : Option SizingResult) :
    OutputsOf i s { Effects.nothing with sizing := z } :=
  ⟨by simp [Effects.nothing], by simp [Effects.nothing], fun _ => rfl⟩

theorem outputsOf_ofScan {i : Instr} (s : State) (res : Option Nat) (hi : i.needsDetector = true) :
    OutputsOf i s (Effects.ofScan res) :=
  ⟨by simp [Effects.ofScan, Effects.nothing], by simp [Effects.ofScan, Effects.nothing], by simp [hi]⟩

theorem outputsOf_bits {i : Instr} {s : State} {w : List Bool} (h : s.outputRange i = some (.outBits w.length))
    (z : Option SizingResult) (o : Option Nat) :
    OutputsOf i s { Effects.nothing with bits := some w, sizing := z, outLen := o } :=
  ⟨by rintro w' ⟨⟩; exact h, by simp [Effects.nothing], fun _ => rfl⟩

theorem outputsOf_samples {i : Instr} {s : State} {w : List C64} (h : s.outputRange i = some (.samples w.length))
    (z : Option SizingResult) (o : Option Nat) :
    OutputsOf i s { Effects.nothing with samples := some w, sizing := z, outLen := o } :=
  ⟨by simp [Effects.nothing], by rintro w' ⟨⟩; exact h, fun _ => rfl⟩

theorem runGenPreamble_eq_ok {e : Effects} :
    runGenPreamble = .ok e ↔ e = Effects.ofSamples (shortTraining hw ++ longTraining hw) := by
  simp only [runGenPreamble, Except.ok.injEq, @eq_comm _ e]

/-- The output range that checked operands give. -/
theorem extentOf_ok {α : Type} {r : Except Stop α} {f : α → Extent} {a : α} {x : Extent} (h : r = .ok a) (hx : f a = x) :
    extentOf r f = some x := by
  rw [h, ← hx]; rfl

theorem extentOf_eq_some {α : Type} {r : Except Stop α} {f : α → Extent} {e : Extent} :
    extentOf r f = some e ↔ ∃ a, r = .ok a ∧ f a = e := by
  cases r <;> simp [extentOf]

/-- Every successful command's outputs are those of R89. -/
theorem effectsOf_outputs {i : Instr} {s : State} {e : Effects} (h : effectsOf i s = .ok e) : OutputsOf i s e := by
  cases i with
  | nop => cases h; exact outputsOf_sizing _ _ none
  | genPreamble =>
    obtain rfl := runGenPreamble_eq_ok.mp h
    exact outputsOf_samples (by rw [List.length_append, shortTraining_length, longTraining_length]; rfl) none _
  | encodeFrame =>
    obtain ⟨p, n, ha, psdu, hr, rfl⟩ := runEncodeFrame_eq_ok.mp h
    obtain ⟨rfl, -⟩ := engineBytes_eq_ok.mp hr
    exact outputsOf_samples (by rw [encodeFrame_length]; exact extentOf_ok ha rfl) _ _
  | genSignal =>
    obtain ⟨p, n, ha, rfl⟩ := runGenSignal_eq_ok.mp h
    exact outputsOf_samples (by rw [signalSymbol_length]; exact extentOf_ok ha rfl) none _
  | frameSizing =>
    obtain ⟨p, n, -, rfl⟩ := runFrameSizing_eq_ok.mp h
    exact outputsOf_sizing _ _ _
  | scramble =>
    obtain ⟨n, ha, v, hr, rfl⟩ := runScramble_eq_ok.mp h
    obtain ⟨rfl, -⟩ := engineBits_eq_ok.mp hr
    exact outputsOf_bits (by rw [scramble_length]; exact extentOf_ok ha rfl) none _
  | buildDataField =>
    obtain ⟨p, n, ha, psdu, hr, rfl⟩ := runBuildDataField_eq_ok.mp h
    obtain ⟨rfl, -⟩ := engineBytes_eq_ok.mp hr
    obtain ⟨r, hrow⟩ := profile_row (argsBuildDataField_eq_ok.mp ha).1
    exact outputsOf_bits (by rw [dataField_length hrow]; exact extentOf_ok ha rfl) _ _
  | convEncode =>
    obtain ⟨n, ha, v, hr, rfl⟩ := runConvEncode_eq_ok.mp h
    obtain ⟨rfl, -⟩ := engineBits_eq_ok.mp hr
    exact outputsOf_bits (by rw [convEncode_length]; exact extentOf_ok ha rfl) none _
  | puncture =>
    obtain ⟨p, n, ha, v, hr, rfl⟩ := runPuncture_eq_ok.mp h
    obtain ⟨rfl, -⟩ := engineBits_eq_ok.mp hr
    exact outputsOf_bits (by rw [puncture_length]; exact extentOf_ok ha rfl) none _
  | interleave =>
    obtain ⟨p, n, ha, v, hr, rfl⟩ := runInterleave_eq_ok.mp h
    obtain ⟨rfl, -⟩ := engineBits_eq_ok.mp hr
    obtain ⟨-, -, -, hblocks⟩ := argsInterleave_eq_ok.mp ha
    exact outputsOf_bits (by rw [interleave_length hblocks]; exact extentOf_ok ha rfl) none _
  | deinterleave =>
    obtain ⟨p, n, ha, v, hr, rfl⟩ := runDeinterleave_eq_ok.mp h
    obtain ⟨rfl, -⟩ := engineBits_eq_ok.mp hr
    obtain ⟨-, -, -, hblocks⟩ := argsInterleave_eq_ok.mp ha
    exact outputsOf_bits (by rw [deinterleave_length hblocks]; exact extentOf_ok ha rfl) none _
  | mapSymbol =>
    obtain ⟨p, ha, v, -, rfl⟩ := runMapSymbol_eq_ok.mp h
    exact outputsOf_samples (by rw [mapBlock_length]; exact extentOf_ok ha rfl) none _
  | modulateSymbol =>
    obtain ⟨p, ha, v, -, rfl⟩ := runModulateSymbol_eq_ok.mp h
    exact outputsOf_samples (by rw [ofdmSymbol_length]; exact extentOf_ok ha rfl) none _
  | detectShort =>
    obtain ⟨r, -, rfl⟩ := runDetectShort_eq_ok.mp h
    exact outputsOf_ofScan _ _ rfl
  | detectLong =>
    obtain ⟨r, -, rfl⟩ := runDetectLong_eq_ok.mp h
    exact outputsOf_ofScan _ _ rfl

/-! ### Output ranges fit their memories (00_scope.md R9, 60_exceptions.md R363) -/

/-- What the parameter constraints of R8 and R9 leave for the outputs whose size no command checks. -/
theorem wellFormed_sizes {p : Params} (h : p.wellFormed = true) :
    2 * p.inMemBytes ≤ p.bitMemBytes ∧ 561 ≤ p.smpMemSamples := by
  simp only [Params.wellFormed, Params.psduOk, Params.inMemOk, Params.bitMemOk, Params.smpMemOk, Bool.and_eq_true,
    decide_eq_true_eq] at h
  simp only [Params.nsampMin] at h
  omega

theorem outBits_fits {p : Params} {n : Nat} (h : n ≤ 8 * p.bitMemBytes) :
    (Extent.outBits n).bytes ≤ memBytes p (Extent.outBits n).space := by
  simp only [Extent.outBits, memBytes, ceilDiv]; omega

theorem samples_fits {p : Params} {n : Nat} (h : n ≤ p.smpMemSamples) :
    (Extent.samples n).bytes ≤ memBytes p (Extent.samples n).space := by
  simp only [Extent.samples, memBytes]; omega

/-- In a well-formed block no output range reaches past the implemented memory. -/
theorem outputRange_fits {i : Instr} {s : State} {e : Extent} (hp : s.params.wellFormed = true)
    (h : s.outputRange i = some e) : e.bytes ≤ memBytes s.params e.space := by
  obtain ⟨hbit, hsmp⟩ := wellFormed_sizes hp
  cases i with
  | nop | frameSizing | detectShort | detectLong => cases h
  | genPreamble => cases h; exact samples_fits (by omega)
  | encodeFrame =>
    obtain ⟨⟨p, n⟩, ha, rfl⟩ := extentOf_eq_some.mp h
    obtain ⟨-, -, hlen⟩ := argsEncodeFrame_eq_ok.mp ha
    exact samples_fits hlen
  | genSignal | mapSymbol | modulateSymbol =>
    obtain ⟨_, -, rfl⟩ := extentOf_eq_some.mp h
    exact samples_fits (by omega)
  | scramble =>
    obtain ⟨n, ha, rfl⟩ := extentOf_eq_some.mp h
    obtain ⟨-, -, hn⟩ := argsScramble_eq_ok.mp ha
    exact outBits_fits hn
  | buildDataField =>
    obtain ⟨⟨p, n⟩, ha, rfl⟩ := extentOf_eq_some.mp h
    obtain ⟨-, -, hn⟩ := argsBuildDataField_eq_ok.mp ha
    exact hn
  | convEncode =>
    obtain ⟨n, ha, rfl⟩ := extentOf_eq_some.mp h
    obtain ⟨-, -, hn⟩ := argsConvEncode_eq_ok.mp ha
    exact outBits_fits hn
  | puncture =>
    obtain ⟨⟨p, n⟩, ha, rfl⟩ := extentOf_eq_some.mp h
    obtain ⟨-, -, hn, -⟩ := argsPuncture_eq_ok.mp ha
    have hkept := puncturedLen_le p.codingRate n
    exact outBits_fits (by omega)
  | interleave | deinterleave =>
    obtain ⟨⟨p, n⟩, ha, rfl⟩ := extentOf_eq_some.mp h
    obtain ⟨-, -, hn, -⟩ := argsInterleave_eq_ok.mp ha
    exact outBits_fits (by omega)

/-! ### The error codes a command raises (60_exceptions.md R360) -/

/-- If the computation ends in an error, the error has a code other than NONE. -/
def NamesItsError {α : Type} (r : Except Stop α) : Prop := ∀ c, r = .error (.error c) → c ≠ .none

theorem namesItsError_ok {α : Type} (a : α) : NamesItsError (.ok a : Except Stop α) := nofun

theorem NamesItsError.bind {α β : Type} {x : Except Stop α} {f : α → Except Stop β} (hx : NamesItsError x)
    (hf : ∀ a, NamesItsError (f a)) : NamesItsError (x >>= f) := by
  intro c h
  rcases bind_eq_error.mp h with h | ⟨a, -, h⟩
  · exact hx c h
  · exact hf a c h

theorem require_namesItsError {b : Bool} {c : ErrorCode} (hc : c ≠ .none) : NamesItsError (require b c) := by
  intro c' h
  obtain ⟨-, h⟩ := require_error.mp h
  rwa [Stop.error.inj h]

theorem argProfile_namesItsError (s : State) : NamesItsError s.argProfile := by
  intro c h
  obtain ⟨-, h⟩ := argProfile_eq_error.mp h
  simp [Stop.error.inj h]

theorem argPsduLen_namesItsError (s : State) : NamesItsError s.argPsduLen := by
  intro c h
  obtain ⟨-, h⟩ := argPsduLen_eq_error.mp h
  simp [Stop.error.inj h]

theorem engineBytes_namesItsError (s : State) (sp : MemSpace) (a n : Nat) : NamesItsError (s.engineBytes sp a n) := by
  intro c h
  obtain ⟨k, -, -, -, h⟩ := engineBytes_eq_error h
  cases h

theorem engineBits_namesItsError (s : State) (a n : Nat) : NamesItsError (s.engineBits a n) := by
  intro c h
  obtain ⟨k, -, -, -, h⟩ := engineBits_eq_error h
  cases h

theorem scanBuffer_namesItsError (s : State) (n : Nat) : NamesItsError (s.scanBuffer n) := by
  unfold State.scanBuffer
  split
  · exact namesItsError_ok _
  · intro c h
    obtain ⟨k, -, -, -, h⟩ := engineSamples_eq_error h
    cases h

theorem argsEncodeFrame_namesItsError (s : State) : NamesItsError s.argsEncodeFrame :=
  (argProfile_namesItsError s).bind fun _ => (argPsduLen_namesItsError s).bind fun _ =>
    (require_namesItsError (by decide)).bind fun _ => namesItsError_ok _

theorem argsSizing_namesItsError (s : State) : NamesItsError s.argsSizing :=
  (argProfile_namesItsError s).bind fun _ => (argPsduLen_namesItsError s).bind fun _ => namesItsError_ok _

theorem argsBuildDataField_namesItsError (s : State) : NamesItsError s.argsBuildDataField :=
  (argProfile_namesItsError s).bind fun _ => (argPsduLen_namesItsError s).bind fun _ =>
    (require_namesItsError (by decide)).bind fun _ => namesItsError_ok _

theorem argsScramble_namesItsError (s : State) : NamesItsError s.argsScramble :=
  (require_namesItsError (by decide)).bind fun _ => namesItsError_ok _

theorem argsConvEncode_namesItsError (s : State) : NamesItsError s.argsConvEncode :=
  (require_namesItsError (by decide)).bind fun _ => namesItsError_ok _

theorem argsPuncture_namesItsError (s : State) : NamesItsError s.argsPuncture :=
  (argProfile_namesItsError s).bind fun _ => (require_namesItsError (by decide)).bind fun _ =>
    (require_namesItsError (by decide)).bind fun _ => namesItsError_ok _

theorem argsInterleave_namesItsError (s : State) : NamesItsError s.argsInterleave :=
  (argProfile_namesItsError s).bind fun _ => (require_namesItsError (by decide)).bind fun _ => namesItsError_ok _

theorem argsSymbol_namesItsError (s : State) : NamesItsError s.argsSymbol :=
  (argProfile_namesItsError s).bind fun _ => (require_namesItsError (by decide)).bind fun _ => namesItsError_ok _

/-- No command ends in an error with the code NONE. -/
theorem effectsOf_namesItsError (i : Instr) (s : State) : NamesItsError (effectsOf i s) := by
  have hbits := engineBits_namesItsError s 0
  have hbytes := engineBytes_namesItsError s .inMem 0
  cases i with
  | nop | genPreamble => exact namesItsError_ok _
  | encodeFrame => exact (argsEncodeFrame_namesItsError s).bind fun _ => (hbytes _).bind fun _ => namesItsError_ok _
  | genSignal | frameSizing => exact (argsSizing_namesItsError s).bind fun _ => namesItsError_ok _
  | scramble => exact (argsScramble_namesItsError s).bind fun _ => (hbits _).bind fun _ => namesItsError_ok _
  | buildDataField => exact (argsBuildDataField_namesItsError s).bind fun _ => (hbytes _).bind fun _ => namesItsError_ok _
  | convEncode => exact (argsConvEncode_namesItsError s).bind fun _ => (hbits _).bind fun _ => namesItsError_ok _
  | puncture => exact (argsPuncture_namesItsError s).bind fun _ => (hbits _).bind fun _ => namesItsError_ok _
  | interleave | deinterleave =>
    exact (argsInterleave_namesItsError s).bind fun _ => (hbits _).bind fun _ => namesItsError_ok _
  | mapSymbol | modulateSymbol =>
    exact (argsSymbol_namesItsError s).bind fun _ => (hbits _).bind fun _ => namesItsError_ok _
  | detectShort | detectLong => exact (scanBuffer_namesItsError s _).bind fun _ => namesItsError_ok _

/-! ### The parts of the invariant -/

/-- A memory is in canonical form and inside its implemented size. -/
structure MemOk (p : Params) (sp : MemSpace) (m : Memory) : Prop where
  wf   : m.wf
  size : Within m (memBytes p sp)

theorem memOk_nil (p : Params) (sp : MemSpace) : MemOk p sp [] := ⟨List.Pairwise.nil, nofun⟩

/-- A store inside the implemented size keeps a memory in order. -/
theorem MemOk.writeBlock {p : Params} {sp : MemSpace} {m : Memory} {a : Nat} {bs : List Byte} (hm : MemOk p sp m)
    (h : a + bs.length ≤ memBytes p sp) : MemOk p sp (m.writeBlock a bs) := by
  refine ⟨writeBlock_wf hm.wf a bs, fun c hc => ?_⟩
  rcases writeBlock_addr hc with hc | ⟨-, hc⟩
  · exact hm.size c hc
  · omega

/-- The invariant, with the three memories taken together. -/
theorem inv_iff {s : State} :
    Inv s ↔ s.params.wellFormed = true ∧ (∀ sp, MemOk s.params sp (s.mem sp)) ∧ StatusOk s.status s.phase ∧
      (s.params.hasDetector = false → DetectorCsrsZero s.regs s.results.detIndex) := by
  constructor
  · intro h
    refine ⟨h.params, fun sp => ?_, h.status, h.noDetector⟩
    cases sp with
    | inMem => exact ⟨h.inWf, h.inSize⟩
    | bitMem => exact ⟨h.bitWf, h.bitSize⟩
    | smpMem => exact ⟨h.smpWf, h.smpSize⟩
  · rintro ⟨hp, hm, hs, hd⟩
    exact ⟨hp, (hm .inMem).wf, (hm .bitMem).wf, (hm .smpMem).wf,
      (hm .inMem).size, (hm .bitMem).size, (hm .smpMem).size, hs, hd⟩

theorem memOk_of_inv {s : State} (h : Inv s) (sp : MemSpace) : MemOk s.params sp (s.mem sp) := (inv_iff.mp h).2.1 sp

/-- A state that differs only where the invariant does not look has it as well. -/
theorem inv_congr {s t : State} (h : Inv s) (hp : t.params = s.params) (hm : t.mem = s.mem)
    (hs : StatusOk t.status t.phase)
    (hd : t.params.hasDetector = false → DetectorCsrsZero t.regs t.results.detIndex) : Inv t :=
  inv_iff.mpr ⟨hp ▸ h.params, fun sp => by rw [hp, hm]; exact memOk_of_inv h sp, hs, hd⟩

/-- Replacing one memory by one in order keeps the invariant. -/
theorem inv_setMem {s : State} (h : Inv s) {sp : MemSpace} {m : Memory} (hm : MemOk s.params sp m) : Inv (s.setMem sp m) := by
  refine inv_iff.mpr ⟨by simpa using h.params, fun sp' => ?_, by simpa using h.status, by simpa using h.noDetector⟩
  rw [setMem_params]
  by_cases hsp : sp' = sp
  · subst hsp; rw [setMem_mem_self]; exact hm
  · rw [setMem_mem_ne s m hsp]; exact memOk_of_inv h sp'

theorem statusOk_reset : StatusOk Status.reset .idle := ⟨by decide, by decide, by decide, by decide⟩

theorem statusOk_accepted (st : Status) (ph : Phase) : StatusOk st.accepted ph := ⟨by simp, by simp, by simp, by simp⟩

theorem statusOk_succeeded (st : Status) (f : Bool) : StatusOk (st.succeeded f) .idle := ⟨by simp, by simp, by simp, nofun⟩

theorem statusOk_failed (st : Status) {c : ErrorCode} (hc : c ≠ .none) : StatusOk (st.failed c) .idle :=
  ⟨by simp [hc], by simp, by simp, nofun⟩

theorem statusOk_dropped {st : Status} {ph : Phase} (h : StatusOk st ph) : StatusOk st.dropped ph :=
  ⟨h.errCode, h.errDone, h.foundOk, h.busy⟩

theorem statusOk_hostWrite {st : Status} {ph : Phase} (h : StatusOk st ph) (w : Word) : StatusOk (st.hostWrite w) ph := by
  unfold Status.hostWrite
  split
  · exact ⟨h.errCode, h.errDone, h.foundOk, h.busy⟩
  · exact h

theorem detectorCsrsZero_reset : DetectorCsrsZero (ConfigRegs.reset false) (ResultRegs.reset false).detIndex :=
  ⟨rfl, rfl, rfl, rfl, rfl⟩

/-! ### The engine's step -/

/-- An error completion with a code keeps the invariant. -/
theorem inv_failWith {s : State} (h : Inv s) {c : ErrorCode} (hc : c ≠ .none) : Inv (s.failWith c) :=
  inv_congr h rfl rfl (statusOk_failed _ hc) h.noDetector

/-- A command the block has, completing with its outputs, keeps the invariant. -/
theorem inv_succeedWith {s : State} {i : Instr} {e : Effects} (h : Inv s) (hi : i.wellFormed s.params.hasDetector = true)
    (he : OutputsOf i s e) : Inv (s.succeedWith e) := by
  refine inv_iff.mpr ⟨h.params, fun sp => ?_, statusOk_succeeded _ _, fun hd => ?_⟩
  · cases sp with
    | inMem => exact memOk_of_inv h .inMem
    | bitMem =>
      show MemOk s.params .bitMem (bitMemAfter s.bitMem e.bits)
      cases hb : e.bits with
      | none => exact memOk_of_inv h .bitMem
      | some w =>
        refine (memOk_of_inv h .bitMem).writeBlock ?_
        rw [packBits_length, Nat.zero_add]
        exact outputRange_fits h.params (he.bits w hb)
    | smpMem =>
      show MemOk s.params .smpMem (smpMemAfter s.smpMem e.samples)
      cases hb : e.samples with
      | none => exact memOk_of_inv h .smpMem
      | some w =>
        refine (memOk_of_inv h .smpMem).writeBlock ?_
        rw [flatMap_sampleBytes_length, Nat.zero_add]
        exact outputRange_fits h.params (he.samples w hb)
  · have hnone : s.params.hasDetector = false := hd
    have hdet : e.detection = none := he.detection (by simpa [Instr.wellFormed, hnone] using hi)
    have hindex : (s.succeedWith e).results.detIndex = s.results.detIndex := by
      simp only [succeedWith_results, ResultRegs.apply, hdet]
    rw [hindex]
    exact h.noDetector hd

/-- A block decodes only commands it has (30_encoding.md R113). -/
theorem decode_wellFormed {d : Bool} {w : Word} {i : Instr} (h : decode d w = .ok i) : i.wellFormed d = true := by
  unfold decode at h
  split at h
  · cases h
  · split at h
    · cases h
    · split at h
      · cases h; assumption
      · cases h

theorem completeCommand_keeps_inv {s t : State} (h : Inv s) (hstep : s.completeCommand = .next t) : Inv t := by
  unfold State.completeCommand at hstep
  split at hstep
  · cases hstep
    exact inv_failWith h (by decide)
  · rename_i i hi
    rw [exec_eq_finish] at hstep
    rcases finish_next_iff.mp hstep with ⟨e, he, rfl⟩ | ⟨c, hc, rfl⟩
    · exact inv_succeedWith h (decode_wellFormed hi) (effectsOf_outputs he)
    · exact inv_failWith h (effectsOf_namesItsError i s c hc)

/-! ### The host's step -/

/-- A write to the configuration CSRs that, without a detector, leaves the detector's alone keeps the invariant. -/
theorem inv_setRegs {s : State} (h : Inv s) {r : ConfigRegs}
    (hr : s.params.hasDetector = false → DetectorCsrsZero r s.results.detIndex) : Inv { s with regs := r } :=
  inv_congr h rfl rfl h.status hr

/-- Without a detector a host write to a detector CSR is ignored (10_state.md R46, R48). -/
theorem inv_setDetectorReg {s : State} (h : Inv s) (r : ConfigRegs) :
    Inv { s with regs := s.regs.ifDetector s.params.hasDetector r } := by
  refine inv_setRegs h fun hd => ?_
  rw [hd]
  exact h.noDetector hd

/-- A write to the other configuration CSRs leaves the detector's alone. -/
theorem inv_setOtherReg {s : State} (h : Inv s) {r : ConfigRegs} (hlen : r.detLen = s.regs.detLen)
    (hscan : r.detMaxScan = s.regs.detMaxScan) (hshort : r.detThrShort = s.regs.detThrShort)
    (hlong : r.detThrLong = s.regs.detThrLong) : Inv { s with regs := r } := by
  refine inv_setRegs h fun hd => ?_
  have hz := h.noDetector hd
  exact ⟨hlen.trans hz.len, hscan.trans hz.maxScan, hshort.trans hz.thrShort, hlong.trans hz.thrLong, hz.index⟩

theorem inv_csrWrite {s : State} (h : Inv s) (c : Csr) (w : Word) : Inv (s.csrWrite c w) := by
  cases c with
  | cmd =>
    simp only [State.csrWrite]
    split
    · exact inv_congr h rfl rfl (statusOk_accepted _ _) h.noDetector
    · exact inv_congr h rfl rfl (statusOk_dropped h.status) h.noDetector
  | status => exact inv_congr h rfl rfl (statusOk_hostWrite h.status w) h.noDetector
  | txcfg | seed | psduLen | stageLen | symIndex => exact inv_setOtherReg h rfl rfl rfl rfl
  | detLen | detMaxScan | detThrShort | detThrLong => exact inv_setDetectorReg h _
  | nSym | nPad | nData | outLen | txTime | detIndex | caps => exact h

theorem inv_csrWriteAt {s : State} (h : Inv s) (off : Nat) (w : Word) : Inv (s.csrWriteAt off w) := by
  unfold State.csrWriteAt
  split
  · exact inv_csrWrite h _ w
  · exact h

/-- Stores to implemented bytes keep the invariant. -/
theorem inv_storeBytes {bytes : List (MemSpace × Nat × Byte)} {s : State} (h : Inv s)
    (hb : ∀ x ∈ bytes, x.2.1 < memBytes s.params x.1) : Inv (s.storeBytes bytes) := by
  induction bytes generalizing s with
  | nil => exact h
  | cons x rest ih =>
    obtain ⟨sp, k, b⟩ := x
    have hk : k < memBytes s.params sp := hb (sp, k, b) (by simp)
    refine ih (inv_setMem h ((memOk_of_inv h sp).writeBlock (bs := [b]) hk)) fun y hy => ?_
    rw [setMem_params]
    exact hb y (by simp [hy])

theorem hostWrite_keeps_inv {s t : State} {addr : Nat} {w : Width} {data : Word} (h : Inv s)
    (hstep : s.hostWrite addr w data = .next t) : Inv t := by
  rcases hostWrite_cases hstep with rfl | ⟨off, -, -, -, -, rfl⟩ | ⟨bytes, hb, rfl⟩
  · exact h
  · exact inv_csrWriteAt h off data
  · exact inv_storeBytes h fun x hx => (hb x hx).1

/-- The free bytes a reset leaves lie in the abandoned command's output range, hence in the implemented memory (R392). -/
theorem inv_abandonOutput {s : State} (h : Inv s) : Inv s.abandonOutput := by
  unfold State.abandonOutput
  split
  · exact h
  · split
    · exact h
    · rename_i e he
      have hfits : 0 + (freeBytes s.draws e.bytes).length ≤ memBytes s.params e.space := by
        simpa [freeBytes] using outputRange_fits h.params he
      have hset := inv_setMem h ((memOk_of_inv h e.space).writeBlock hfits)
      exact inv_congr hset rfl rfl hset.status hset.noDetector

theorem abandonOutput_params (s : State) : s.abandonOutput.params = s.params := by
  simpa using congrArg State.params (abandonOutput_rest s)

theorem inv_applyReset {s : State} (h : Inv s) : Inv s.applyReset := by
  refine inv_congr (inv_abandonOutput h) rfl rfl statusOk_reset fun hd => ?_
  have hd' : s.params.hasDetector = false := by rw [← abandonOutput_params]; exact hd
  show DetectorCsrsZero (ConfigRegs.reset s.params.hasDetector) (ResultRegs.reset s.params.hasDetector).detIndex
  rw [hd']
  exact detectorCsrsZero_reset

theorem hostStep_keeps_inv {s t : State} {op : HostOp} {rest : List HostOp} (h : Inv s)
    (hstep : s.hostStep op rest = .next t) : Inv t := by
  have hissued : Inv (Issued s rest) := inv_congr h rfl rfl h.status h.noDetector
  cases op with
  | write addr w data => exact hostWrite_keeps_inv hissued hstep
  | read addr w => cases hstep; exact inv_congr h rfl rfl h.status h.noDetector
  | poll => cases hstep; exact inv_congr h rfl rfl h.status h.noDetector
  | reset => cases hstep; exact inv_applyReset hissued

/-! ### The statements -/

/-- Settles O55: the engine's completion and each host operation keep the invariant, and nothing else moves. -/
theorem everyStepKeepsTheInvariant : Obligations.EveryStepKeepsTheInvariant := by
  intro s t hs hstep
  cases step_cases hstep with
  | engine _ heq => exact completeCommand_keeps_inv hs heq
  | host op rest _ heq => exact hostStep_keeps_inv hs heq
  | nobody _ _ heq => exact heq ▸ hs

theorem inv_powerOn {p : Params} (hp : p.wellFormed = true) : Inv (State.powerOn p) := by
  refine inv_iff.mpr ⟨hp, fun sp => ?_, statusOk_reset, fun hd => ?_⟩
  · cases sp <;> exact memOk_nil p _
  · show DetectorCsrsZero (ConfigRegs.reset p.hasDetector) (ResultRegs.reset p.hasDetector).detIndex
    rw [show p.hasDetector = false from hd]
    exact detectorCsrsZero_reset

/-- Settles O56: at power-on the memories are empty and every CSR has its reset value. -/
theorem powerOnHasTheInvariant : Obligations.PowerOnHasTheInvariant :=
  ⟨fun _ hp => inv_powerOn hp, inv_powerOn (by decide)⟩

end Sys2Proof.Scope
end

section
/-! PROOFS. Rounding to binary64: the fields of a result, that it is the nearest finite value with ties to even, where it overflows,
and the statements about addition and halving (00_scope.md R16, 45_symbol_assembler.md R268, 47_frame.md R322). -/

namespace Sys2Proof.Scope

open Sys2Proof.Machine

/-! ### Fields of a pattern -/

/-- The binary64 of a given sign whose exponent and fraction fields together are the number `p`. -/
def f64Pack (neg : Bool) (p : Nat) : F64 := BitVec.ofNat 64 (p + if neg then 2 ^ 63 else 0)

theorem f64Exp_eq (x : F64) : f64Exp x = x.toNat / 2 ^ 52 % 2 ^ 11 := by
  rw [f64Exp, BitVec.extractLsb'_toNat, Nat.shiftRight_eq_div_pow]

theorem f64Frac_eq (x : F64) : f64Frac x = x.toNat % 2 ^ 52 := by
  rw [f64Frac, BitVec.extractLsb'_toNat, Nat.shiftRight_zero]

theorem f64Neg_eq (x : F64) : f64Neg x = decide (2 ^ 63 ≤ x.toNat) := by
  rw [f64Neg, ← BitVec.msb_eq_getLsbD_last (w := 64) x, BitVec.msb_eq_decide]

theorem f64Frac_lt (x : F64) : f64Frac x < 2 ^ 52 := by rw [f64Frac_eq]; omega

theorem toNat_f64Pack {neg : Bool} {p : Nat} (h : p < 2 ^ 63) :
    (f64Pack neg p).toNat = p + if neg then 2 ^ 63 else 0 := by
  rw [f64Pack, BitVec.toNat_ofNat]
  split <;> omega

theorem f64Exp_pack {neg : Bool} {p : Nat} (h : p < 2 ^ 63) : f64Exp (f64Pack neg p) = p / 2 ^ 52 := by
  rw [f64Exp_eq, toNat_f64Pack h]
  split <;> omega

theorem f64Frac_pack {neg : Bool} {p : Nat} (h : p < 2 ^ 63) : f64Frac (f64Pack neg p) = p % 2 ^ 52 := by
  rw [f64Frac_eq, toNat_f64Pack h]
  split <;> omega

theorem f64Neg_pack {neg : Bool} {p : Nat} (h : p < 2 ^ 63) : f64Neg (f64Pack neg p) = neg := by
  rw [f64Neg_eq, toNat_f64Pack h]
  cases neg
  · simpa using h
  · simp

theorem f64IsFinite_iff {x : F64} : f64IsFinite x = true ↔ f64Exp x < 2047 := by
  have h : f64Exp x < 2048 := by rw [f64Exp_eq]; omega
  simp only [f64IsFinite, decide_eq_true_eq]
  omega

theorem f64IsNaN_of_finite {x : F64} (h : f64IsFinite x = true) : f64IsNaN x = false := by
  simp only [f64IsFinite, decide_eq_true_eq] at h
  simp [f64IsNaN, h]

theorem f64IsInf_of_finite {x : F64} (h : f64IsFinite x = true) : f64IsInf x = false := by
  simp only [f64IsFinite, decide_eq_true_eq] at h
  simp [f64IsInf, h]

/-! ### Significands -/

/-- The significand of a finite value: its magnitude is this many units of `2^(exponent - 1)`. -/
def f64Sig (x : F64) : Nat := if f64Exp x = 0 then f64Frac x else 2 ^ 52 + f64Frac x

theorem f64Sig_lt (x : F64) : f64Sig x < 2 ^ 53 := by
  have h := f64Frac_lt x
  unfold f64Sig
  split <;> omega

theorem f64Exp_eq_zero_or_le_sig (x : F64) : f64Exp x - 1 = 0 ∨ 2 ^ 52 ≤ f64Sig x := by
  unfold f64Sig
  split <;> omega

theorem f64Mag_eq_sig (x : F64) : f64Mag x = f64Sig x * 2 ^ (f64Exp x - 1) := by
  unfold f64Mag f64Sig
  split
  · rename_i h; rw [h, Nat.zero_sub, pow_zero, Nat.mul_one]
  · rfl

theorem f64Mag_lt {x : F64} {e : Nat} (h : f64Exp x - 1 ≤ e) : f64Mag x < 2 ^ 53 * 2 ^ e := by
  rw [f64Mag_eq_sig]
  exact lt_of_lt_of_le (Nat.mul_lt_mul_of_pos_right (f64Sig_lt x) (Nat.two_pow_pos _))
    (Nat.mul_le_mul_left _ (Nat.pow_le_pow_right (by decide) h))

/-- A value is packed from its sign, exponent and significand. -/
theorem f64Pack_sig (x : F64) : f64Pack (f64Neg x) ((f64Exp x - 1) * 2 ^ 52 + f64Sig x) = x := by
  have hx := x.isLt
  have hfields : (f64Exp x - 1) * 2 ^ 52 + f64Sig x = x.toNat % 2 ^ 63 := by
    unfold f64Sig
    rw [f64Exp_eq, f64Frac_eq]
    split <;> omega
  apply BitVec.eq_of_toNat_eq
  rw [hfields, toNat_f64Pack (by omega), f64Neg_eq]
  simp only [decide_eq_true_eq]
  split <;> omega

/-- The magnitude of a packed exponent and significand; a significand of `2^53` carries into the exponent. -/
theorem f64Mag_pack {neg : Bool} {e q : Nat} (hq : q ≤ 2 ^ 53) (he : e = 0 ∨ 2 ^ 52 ≤ q)
    (hfin : e * 2 ^ 52 + q < 2047 * 2 ^ 52) : f64Mag (f64Pack neg (e * 2 ^ 52 + q)) = q * 2 ^ e := by
  have hlt : e * 2 ^ 52 + q < 2 ^ 63 := by omega
  rw [f64Mag, f64Exp_pack hlt, f64Frac_pack hlt]
  rcases Nat.lt_or_ge q (2 ^ 52) with hsub | hnorm
  · obtain rfl : e = 0 := by omega
    rw [if_pos (by omega), pow_zero]
    omega
  · rw [if_neg (by omega)]
    rcases Nat.lt_or_eq_of_le hq with hlt53 | rfl
    · rw [show (e * 2 ^ 52 + q) / 2 ^ 52 - 1 = e by omega, show 2 ^ 52 + (e * 2 ^ 52 + q) % 2 ^ 52 = q by omega]
    · rw [show (e * 2 ^ 52 + 2 ^ 53) / 2 ^ 52 - 1 = e + 1 by omega,
        show 2 ^ 52 + (e * 2 ^ 52 + 2 ^ 53) % 2 ^ 52 = 2 ^ 52 by omega]
      ring

theorem natAbs_f64Scaled (x : F64) : (f64Scaled x).natAbs = f64Mag x := by
  unfold f64Scaled
  split <;> simp

/-! ### Rounding to an integer multiple -/

/-- Rounding keeps or raises the quotient by one. -/
theorem roundHalfEven_bounds (m sh : Nat) : m / 2 ^ sh ≤ roundHalfEven m sh ∧ roundHalfEven m sh ≤ m / 2 ^ sh + 1 := by
  simp only [roundHalfEven]
  split <;> omega

/-- An exact multiple is not rounded. -/
theorem roundHalfEven_mul (k sh : Nat) : roundHalfEven (k * 2 ^ sh) sh = k := by
  have hpos : 0 < 2 ^ (sh - 1) := Nat.two_pow_pos _
  simp only [roundHalfEven, Nat.mul_mod_left, Nat.mul_div_cancel k (Nat.two_pow_pos sh)]
  rw [if_neg (by omega)]

/-- The rounded multiple is at most half a unit away, and half a unit away only when it is even. -/
theorem roundHalfEven_near (m e : Nat) :
    roundHalfEven m (e + 1) * 2 ^ (e + 1) ≤ m + 2 ^ e ∧ m ≤ roundHalfEven m (e + 1) * 2 ^ (e + 1) + 2 ^ e ∧
    (roundHalfEven m (e + 1) * 2 ^ (e + 1) = m + 2 ^ e ∨ m = roundHalfEven m (e + 1) * 2 ^ (e + 1) + 2 ^ e →
      roundHalfEven m (e + 1) % 2 = 0) := by
  have hdiv := Nat.div_add_mod m (2 ^ (e + 1))
  have hmod := Nat.mod_lt m (Nat.two_pow_pos (e + 1))
  have hunit : 2 ^ (e + 1) = 2 * 2 ^ e := by ring
  have hnext : (m / 2 ^ (e + 1) + 1) * 2 ^ (e + 1) = 2 ^ (e + 1) * (m / 2 ^ (e + 1)) + 2 ^ (e + 1) := by ring
  have hsame : m / 2 ^ (e + 1) * 2 ^ (e + 1) = 2 ^ (e + 1) * (m / 2 ^ (e + 1)) := by ring
  simp only [roundHalfEven, Nat.add_sub_cancel]
  split
  · rw [hnext]; omega
  · rw [hsame]; omega

/-- No multiple of the unit is nearer than the rounded one, and one equally near makes the rounded one even. -/
theorem roundHalfEven_nearest_multiple (m e : Nat) (j : ℤ) :
    |(roundHalfEven m (e + 1) : ℤ) * 2 ^ (e + 1) - m| ≤ |j * 2 ^ (e + 1) - m| ∧
    (j ≠ roundHalfEven m (e + 1) → |(roundHalfEven m (e + 1) : ℤ) * 2 ^ (e + 1) - m| = |j * 2 ^ (e + 1) - m| →
      roundHalfEven m (e + 1) % 2 = 0) := by
  obtain ⟨hup, hdown, htie⟩ := roundHalfEven_near m e
  generalize roundHalfEven m (e + 1) = q at *
  rw [show 2 ^ (e + 1) = 2 * 2 ^ e by ring] at hup hdown htie
  rw [show (2 : ℤ) ^ (e + 1) = 2 * ((2 ^ e : ℕ) : ℤ) by push_cast; ring]
  generalize 2 ^ e = u at *
  have hcast : ((q * (2 * u) : ℕ) : ℤ) = (q : ℤ) * (2 * (u : ℤ)) := by push_cast; ring
  have hstep : j = q ∨ j * (2 * (u : ℤ)) ≤ q * (2 * (u : ℤ)) - 2 * u ∨ q * (2 * (u : ℤ)) + 2 * u ≤ j * (2 * (u : ℤ)) := by
    rcases lt_trichotomy j (q : ℤ) with h | h | h
    · exact .inr (.inl (by nlinarith))
    · exact .inl h
    · exact .inr (.inr (by nlinarith))
  rcases hstep with rfl | hstep
  · exact ⟨le_refl _, fun h => absurd rfl h⟩
  · rcases abs_cases ((q : ℤ) * (2 * (u : ℤ)) - m) with hq | hq <;>
      rcases abs_cases (j * (2 * (u : ℤ)) - m) with hj | hj <;> rw [hq.1, hj.1] <;> omega

/-! ### The unit a magnitude is rounded to -/

/-- A magnitude of `m` units of `2^-1075` is rounded to a multiple of this power of two of them. -/
def roundShift (m : Nat) : Nat := max 1 (m.log2 + 1 - 53)

/-- The exponent part of the rounded pattern. -/
def roundExp (m : Nat) : Nat := roundShift m - 1

/-- The significand of the rounded pattern. -/
def roundSig (m : Nat) : Nat := roundHalfEven m (roundExp m + 1)

theorem roundShift_eq (m : Nat) : roundShift m = roundExp m + 1 := by simp only [roundExp, roundShift]; omega

theorem f64Round_eq (neg : Bool) (m : Nat) :
    f64Round neg m = f64Pack neg (min (roundExp m * 2 ^ 52 + roundSig m) (2047 * 2 ^ 52)) := by
  rw [roundSig, ← roundShift_eq]; rfl

theorem lt_two_pow_roundExp (m : Nat) : m < 2 ^ (roundExp m + 54) := by
  refine lt_of_lt_of_le Nat.lt_log2_self (Nat.pow_le_pow_right (by decide) ?_)
  simp only [roundExp, roundShift]
  omega

theorem roundExp_eq_zero_or_le (m : Nat) : roundExp m = 0 ∨ 2 ^ (roundExp m + 53) ≤ m := by
  rcases Nat.eq_zero_or_pos (roundExp m) with h | h
  · exact .inl h
  · refine .inr ?_
    have hexp : roundExp m + 53 = m.log2 := by
      simp only [roundExp, roundShift] at h ⊢
      omega
    rw [hexp]
    refine Nat.log2_self_le ?_
    rintro rfl
    simp [roundExp, roundShift] at h

theorem lt_of_roundExp_lt {m e : Nat} (h : roundExp m < e) : m < 2 ^ 53 * 2 ^ e := by
  rw [← pow_add]
  exact lt_of_lt_of_le (lt_two_pow_roundExp m) (Nat.pow_le_pow_right (by decide) (by omega))

theorem le_of_lt_roundExp {m e : Nat} (h : e < roundExp m) : 2 ^ 54 * 2 ^ e ≤ m := by
  rw [← pow_add]
  exact le_trans (Nat.pow_le_pow_right (by decide) (by omega)) ((roundExp_eq_zero_or_le m).resolve_left (by omega))

/-- The two bounds determine the unit. -/
theorem roundExp_unique {m e : Nat} (hlt : m < 2 ^ (e + 54)) (hle : e = 0 ∨ 2 ^ (e + 53) ≤ m) : roundExp m = e := by
  have hlt' := lt_two_pow_roundExp m
  rcases Nat.lt_trichotomy (roundExp m) e with h | h | h
  · rcases hle with rfl | hle
    · omega
    · have := (Nat.pow_lt_pow_iff_right (by decide)).mp (lt_of_le_of_lt hle hlt')
      omega
  · exact h
  · rcases roundExp_eq_zero_or_le m with h0 | hle'
    · omega
    · have := (Nat.pow_lt_pow_iff_right (by decide)).mp (lt_of_le_of_lt hle' hlt)
      omega

theorem roundSig_le (m : Nat) : roundSig m ≤ 2 ^ 53 := by
  have hquot : m / 2 ^ (roundExp m + 1) < 2 ^ 53 := by
    refine Nat.div_lt_of_lt_mul ?_
    rw [← pow_add]
    exact lt_two_pow_roundExp m
  have := (roundHalfEven_bounds m (roundExp m + 1)).2
  unfold roundSig
  omega

theorem roundExp_eq_zero_or_le_roundSig (m : Nat) : roundExp m = 0 ∨ 2 ^ 52 ≤ roundSig m := by
  refine (roundExp_eq_zero_or_le m).imp_right fun h => ?_
  refine le_trans ((Nat.le_div_iff_mul_le (Nat.two_pow_pos _)).mpr ?_) (roundHalfEven_bounds m (roundExp m + 1)).1
  rw [← pow_add]
  exact le_trans (Nat.pow_le_pow_right (by decide) (by omega)) h

/-! ### Rounding to binary64 -/

theorem f64Neg_round (neg : Bool) (m : Nat) : f64Neg (f64Round neg m) = neg := by
  rw [f64Round_eq, f64Neg_pack (by omega)]

theorem f64IsFinite_round_iff {neg : Bool} {m : Nat} :
    f64IsFinite (f64Round neg m) = true ↔ roundExp m * 2 ^ 52 + roundSig m < 2047 * 2 ^ 52 := by
  rw [f64IsFinite_iff, f64Round_eq, f64Exp_pack (by omega)]
  omega

theorem f64Round_eq_pack {neg : Bool} {m : Nat} (h : f64IsFinite (f64Round neg m) = true) :
    f64Round neg m = f64Pack neg (roundExp m * 2 ^ 52 + roundSig m) := by
  rw [f64Round_eq, Nat.min_eq_left (le_of_lt (f64IsFinite_round_iff.mp h))]

theorem f64Round_eq_inf {neg : Bool} {m : Nat} (h : f64IsFinite (f64Round neg m) = false) : f64Round neg m = f64Inf neg := by
  have hover : ¬ roundExp m * 2 ^ 52 + roundSig m < 2047 * 2 ^ 52 := by
    rw [← f64IsFinite_round_iff (neg := neg), h]
    decide
  rw [f64Round_eq, Nat.min_eq_right (by omega)]
  cases neg <;> rfl

theorem f64Round_zero (neg : Bool) : f64Round neg 0 = f64Zero neg := by cases neg <;> decide

theorem f64Mag_round {neg : Bool} {m : Nat} (h : f64IsFinite (f64Round neg m) = true) :
    f64Mag (f64Round neg m) = roundSig m * 2 ^ roundExp m := by
  rw [f64Round_eq_pack h]
  exact f64Mag_pack (roundSig_le m) (roundExp_eq_zero_or_le_roundSig m) (f64IsFinite_round_iff.mp h)

/-- The fraction's last bit is the significand's. -/
theorem f64Frac_round_mod_two {neg : Bool} {m : Nat} (h : f64IsFinite (f64Round neg m) = true) :
    f64Frac (f64Round neg m) % 2 = roundSig m % 2 := by
  have hlt := f64IsFinite_round_iff.mp h
  rw [f64Round_eq_pack h, f64Frac_pack (by omega)]
  omega

/-- The significand carries from the midpoint of `2^53 - 1` and `2^53` on: at the midpoint `2^53 - 1` is odd. -/
theorem sig_lt_iff_of_near {q u m : Nat} (hq : q ≤ 2 ^ 53) (hu : 0 < u) (hup : q * (2 * u) ≤ m + u)
    (hdown : m ≤ q * (2 * u) + u) (htie : q * (2 * u) = m + u ∨ m = q * (2 * u) + u → q % 2 = 0) :
    q < 2 ^ 53 ↔ m < (2 ^ 54 - 1) * u := by
  rcases Nat.lt_trichotomy q (2 ^ 53 - 1) with hlt | rfl | hgt
  · have : q * (2 * u) ≤ (2 ^ 53 - 2) * (2 * u) := Nat.mul_le_mul_right _ (by omega)
    omega
  · omega
  · obtain rfl : q = 2 ^ 53 := by omega
    omega

/-- Rounding overflows from the midpoint of the largest finite value and `2^1024` on. -/
theorem f64IsFinite_round {neg : Bool} {m : Nat} :
    f64IsFinite (f64Round neg m) = true ↔ m < (2 ^ 54 - 1) * 2 ^ 2045 := by
  rw [f64IsFinite_round_iff]
  have hsig := roundSig_le m
  rcases Nat.lt_trichotomy (roundExp m) 2045 with h | h | h
  · have hm := lt_of_roundExp_lt h
    generalize 2 ^ 2045 = u at *
    omega
  · have hcarry : roundExp m * 2 ^ 52 + roundSig m < 2047 * 2 ^ 52 ↔ roundSig m < 2 ^ 53 := by omega
    obtain ⟨hup, hdown, htie⟩ := roundHalfEven_near m (roundExp m)
    rw [← roundSig, pow_succ' 2 (roundExp m)] at hup hdown htie
    rw [hcarry, ← h]
    exact sig_lt_iff_of_near hsig (Nat.two_pow_pos _) hup hdown htie
  · have hnorm := roundExp_eq_zero_or_le_roundSig m
    have hm := le_of_lt_roundExp h
    generalize 2 ^ 2045 = u at *
    omega

/-- A magnitude with fewer than 54 significant bits is nearer to none than the rounded one. Where its unit is finer than the
rounded one's, it lies below the binade of `m`, whose lower end is a multiple of the rounded unit and nearer. -/
theorem roundSig_nearest {m k f : Nat} {y : ℤ} (hy : y.natAbs = k * 2 ^ f) (hk : k < 2 ^ 53) :
    |(roundSig m : ℤ) * 2 ^ (roundExp m + 1) - m| ≤ |2 * y - m| ∧
    (2 * y ≠ roundSig m * 2 ^ (roundExp m + 1) →
      |(roundSig m : ℤ) * 2 ^ (roundExp m + 1) - m| = |2 * y - m| → roundSig m % 2 = 0) := by
  rcases Nat.lt_or_ge f (roundExp m) with hfine | hcoarse
  · have hm : 2 ^ (roundExp m + 53) ≤ m := (roundExp_eq_zero_or_le m).resolve_left (by omega)
    have hlow : ((2 ^ 52 : ℤ)) * 2 ^ (roundExp m + 1) = ((2 ^ (roundExp m + 53) : ℕ) : ℤ) := by push_cast; ring
    have hbelow : 2 * y < ((2 ^ (roundExp m + 53) : ℕ) : ℤ) := by
      have h1 : k * 2 ^ f < 2 ^ 53 * 2 ^ f := Nat.mul_lt_mul_of_pos_right hk (Nat.two_pow_pos f)
      have h2 : 2 ^ 53 * 2 ^ f ≤ 2 ^ (roundExp m + 52) := by
        rw [← pow_add]
        exact Nat.pow_le_pow_right (by decide) (by omega)
      have h3 : 2 ^ (roundExp m + 53) = 2 * 2 ^ (roundExp m + 52) := by ring
      omega
    have hnearest := (roundHalfEven_nearest_multiple m (roundExp m) (2 ^ 52)).1
    rw [hlow] at hnearest
    have hstrict : |((2 ^ (roundExp m + 53) : ℕ) : ℤ) - m| < |2 * y - m| := by
      rw [abs_of_nonpos (by omega), abs_of_nonpos (by omega)]
      omega
    exact ⟨le_of_lt (lt_of_le_of_lt hnearest hstrict), fun _ heq => absurd heq (ne_of_lt (lt_of_le_of_lt hnearest hstrict))⟩
  · obtain ⟨j, hj⟩ : (2 : ℤ) ^ roundExp m ∣ y := by
      rw [← Int.dvd_natAbs, hy]
      push_cast
      exact Dvd.dvd.mul_left (pow_dvd_pow 2 hcoarse) _
    have hmul : 2 * y = j * 2 ^ (roundExp m + 1) := by rw [hj]; ring
    obtain ⟨hle, htie⟩ := roundHalfEven_nearest_multiple m (roundExp m) j
    rw [hmul]
    exact ⟨hle, fun hne => htie fun hj' => hne (by rw [hj']; rfl)⟩

/-! ### Rounding is to the nearest value, ties to even -/

/-- `r` is a binary64 nearest to `y`: no finite binary64 is nearer, and if another value is equally near then its fraction is
even. -/
def NearestEven (r : F64) (y : ℚ) : Prop :=
  ∀ c : F64, f64IsFinite c = true →
    |f64ToRat r - y| ≤ |f64ToRat c - y| ∧
    (f64ToRat c ≠ f64ToRat r → |f64ToRat r - y| = |f64ToRat c - y| → f64Frac r % 2 = 0)

/-- A distance in units of `2^-1075`. -/
theorem abs_f64ToRat_sub (x : F64) (v : ℤ) :
    |f64ToRat x - (v : ℚ) / 2 ^ 1075| = ((|2 * f64Scaled x - v| : ℤ) : ℚ) / 2 ^ 1075 := by
  have hpos : (0 : ℚ) < 2 ^ 1075 := pow_pos (by decide) _
  have hsub : f64ToRat x - (v : ℚ) / 2 ^ 1075 = ((2 * f64Scaled x - v : ℤ) : ℚ) / 2 ^ 1075 := by
    rw [f64ToRat, pow_succ (2 : ℚ) 1074]
    have hne : (2 : ℚ) ^ 1074 ≠ 0 := pow_ne_zero _ (by decide)
    generalize (2 : ℚ) ^ 1074 = u at *
    push_cast
    field_simp
  rw [hsub, abs_div, abs_of_pos hpos, Int.cast_abs]

/-- `m` units of `2^-1075` with a sign. -/
def withSign (neg : Bool) (m : Nat) : ℤ := if neg then -(m : ℤ) else m

theorem natAbs_withSign (neg : Bool) (m : Nat) : (withSign neg m).natAbs = m := by cases neg <;> simp [withSign]

theorem f64Scaled_eq (x : F64) : f64Scaled x = withSign (f64Neg x) (f64Mag x) := rfl

theorem two_mul_f64Scaled_round {neg : Bool} {m : Nat} (h : f64IsFinite (f64Round neg m) = true) :
    2 * f64Scaled (f64Round neg m) = withSign neg (roundSig m * 2 ^ (roundExp m + 1)) := by
  rw [f64Scaled_eq, f64Neg_round, f64Mag_round h, pow_succ]
  cases neg <;> simp [withSign] <;> ring

/-- A finite result of rounding is nearest, ties to even. -/
theorem f64Round_nearestEven {neg : Bool} {m : Nat} (h : f64IsFinite (f64Round neg m) = true) :
    NearestEven (f64Round neg m) ((withSign neg m : ℚ) / 2 ^ 1075) := by
  intro c _
  have hpos : (0 : ℚ) < 2 ^ 1075 := pow_pos (by decide) _
  rw [abs_f64ToRat_sub, abs_f64ToRat_sub, div_le_div_iff_of_pos_right hpos, div_left_inj' (ne_of_gt hpos), Int.cast_le,
    Int.cast_inj, f64Frac_round_mod_two h, two_mul_f64Scaled_round h]
  have hvalue : f64ToRat c ≠ f64ToRat (f64Round neg m) →
      2 * f64Scaled c ≠ withSign neg (roundSig m * 2 ^ (roundExp m + 1)) := by
    intro hne heq
    rw [← two_mul_f64Scaled_round h] at heq
    exact hne (by rw [f64ToRat, f64ToRat, show f64Scaled c = f64Scaled (f64Round neg m) by omega])
  have hmag : (withSign neg 1 * f64Scaled c).natAbs = f64Sig c * 2 ^ (f64Exp c - 1) := by
    rw [← f64Mag_eq_sig, ← natAbs_f64Scaled]
    cases neg <;> simp [withSign]
  obtain ⟨hle, htie⟩ := roundSig_nearest (m := m) hmag (f64Sig_lt c)
  cases neg with
  | false =>
    simp only [withSign, Bool.false_eq_true, if_false, Nat.cast_one, one_mul, Nat.cast_mul, Nat.cast_pow, Nat.cast_ofNat]
      at hle htie hvalue ⊢
    exact ⟨hle, fun hne => htie (hvalue hne)⟩
  | true =>
    have hflip : ∀ a b : ℤ, |-a - -b| = |a - b| := fun a b => by rw [neg_sub_neg, abs_sub_comm]
    have hflipc : |2 * f64Scaled c - -(m : ℤ)| = |2 * -f64Scaled c - m| := by rw [← abs_neg]; ring_nf
    simp only [withSign, if_true, Nat.cast_one, neg_mul, one_mul, Nat.cast_mul, Nat.cast_pow, Nat.cast_ofNat]
      at hle htie hvalue ⊢
    rw [hflip, hflipc]
    exact ⟨hle, fun hne => htie fun heq => hvalue hne (by omega)⟩

/-- Rounding a multiple of its unit is exact. -/
theorem f64Round_exact {neg : Bool} {m : Nat} (h : f64IsFinite (f64Round neg m) = true)
    (hm : 2 ^ (roundExp m + 1) ∣ m) : f64ToRat (f64Round neg m) = (withSign neg m : ℚ) / 2 ^ 1075 := by
  have hsig : roundSig m * 2 ^ (roundExp m + 1) = m := by
    obtain ⟨k, hk⟩ := hm
    rw [mul_comm] at hk
    have hround := roundHalfEven_mul k (roundExp m + 1)
    rw [← hk] at hround
    rw [roundSig, hround, ← hk]
  have hdist := abs_f64ToRat_sub (f64Round neg m) (withSign neg m)
  rw [two_mul_f64Scaled_round h, hsig, sub_self, abs_zero, Int.cast_zero, zero_div] at hdist
  exact sub_eq_zero.mp (abs_eq_zero.mp hdist)

/-- Rounding the value of a binary64, which is twice its magnitude in units of `2^-1075`, gives it back. -/
theorem f64Round_two_mul_f64Mag {x : F64} (hx : f64IsFinite x = true) : f64Round (f64Neg x) (2 * f64Mag x) = x := by
  have hm : 2 * f64Mag x = f64Sig x * 2 ^ (f64Exp x - 1 + 1) := by rw [f64Mag_eq_sig]; ring
  have hexp : roundExp (2 * f64Mag x) = f64Exp x - 1 := by
    rw [hm]
    refine roundExp_unique ?_ ((f64Exp_eq_zero_or_le_sig x).imp_right fun h => ?_)
    · rw [show f64Exp x - 1 + 54 = 53 + (f64Exp x - 1 + 1) by omega, pow_add 2 53]
      exact Nat.mul_lt_mul_of_pos_right (f64Sig_lt x) (Nat.two_pow_pos _)
    · rw [show f64Exp x - 1 + 53 = 52 + (f64Exp x - 1 + 1) by omega, pow_add 2 52]
      exact Nat.mul_le_mul_right _ h
  have hsig : roundSig (2 * f64Mag x) = f64Sig x := by rw [roundSig, hexp, hm, roundHalfEven_mul]
  have hfin := f64IsFinite_iff.mp hx
  have hlt := f64Sig_lt x
  rw [f64Round_eq, hexp, hsig, Nat.min_eq_left (by omega), f64Pack_sig]

/-! ### Addition (R16) -/

/-- The sign of a sum of finite values: the exact sum's, and for an exact sum of 0 negative when both operands are. -/
def sumNeg (a b : F64) : Bool :=
  if f64Scaled a + f64Scaled b = 0 then f64Neg a && f64Neg b else decide (f64Scaled a + f64Scaled b < 0)

/-- A sum of finite values is the rounding of the exact sum. -/
theorem f64Add_eq_round {a b : F64} (ha : f64IsFinite a = true) (hb : f64IsFinite b = true) :
    f64Add a b = f64Round (sumNeg a b) (2 * (f64Scaled a + f64Scaled b).natAbs) := by
  simp only [f64Add, f64IsNaN_of_finite ha, f64IsNaN_of_finite hb, f64IsInf_of_finite ha, f64IsInf_of_finite hb, Bool.or_self,
    Bool.false_eq_true, if_false, sumNeg]
  split
  · rename_i hv
    rw [hv, Int.natAbs_zero, Nat.mul_zero, f64Round_zero]
  · rfl

theorem withSign_sumNeg (a b : F64) :
    withSign (sumNeg a b) (2 * (f64Scaled a + f64Scaled b).natAbs) = 2 * (f64Scaled a + f64Scaled b) := by
  unfold sumNeg withSign
  generalize f64Scaled a + f64Scaled b = v
  by_cases hv : v = 0
  · simp [hv]
  · simp only [if_neg hv, decide_eq_true_eq]
    split <;> omega

theorem f64ToRat_add (a b : F64) : f64ToRat a + f64ToRat b = ((2 * (f64Scaled a + f64Scaled b) : ℤ) : ℚ) / 2 ^ 1075 := by
  rw [f64ToRat, f64ToRat, pow_succ (2 : ℚ) 1074]
  have hne : (2 : ℚ) ^ 1074 ≠ 0 := pow_ne_zero _ (by decide)
  generalize (2 : ℚ) ^ 1074 = u at *
  push_cast
  field_simp

/-- The overflow threshold in units of `2^-1075`. -/
theorem abs_lt_overflow_iff {neg : Bool} {m e f : Nat} (hf : e + 1075 = f) :
    |(withSign neg m : ℚ) / 2 ^ 1075| < (2 ^ 54 - 1) * 2 ^ e ↔ m < (2 ^ 54 - 1) * 2 ^ f := by
  subst hf
  have hpos : (0 : ℚ) < 2 ^ 1075 := pow_pos (by decide) _
  have hcast : ((2 ^ 54 - 1) * 2 ^ e * 2 ^ 1075 : ℚ) = (((2 ^ 54 - 1) * 2 ^ (e + 1075) : ℕ) : ℚ) := by
    rw [mul_assoc, ← pow_add]
    push_cast
    norm_num
  rw [abs_div, abs_of_pos hpos, div_lt_iff₀ hpos, hcast, ← Int.cast_abs, ← Nat.cast_natAbs, natAbs_withSign, Nat.cast_lt]

/-- Settles O39: the sum is the rounding of the exact sum. -/
theorem additionIsCorrectlyRounded : Obligations.AdditionIsCorrectlyRounded := by
  intro a b ha hb
  rw [f64Add_eq_round ha hb, f64ToRat_add, ← withSign_sumNeg]
  refine ⟨fun c hc hfin => f64Round_nearestEven hfin c hc, f64IsFinite_round.trans (abs_lt_overflow_iff (by norm_num)).symm,
    fun hinf => ?_⟩
  · have hne : f64Scaled a + f64Scaled b ≠ 0 := fun h0 => by
      rw [h0, Int.natAbs_zero, Nat.mul_zero, f64Round_zero] at hinf
      revert hinf
      cases sumNeg a b <;> decide
    have hpos : (0 : ℚ) < 2 ^ 1075 := pow_pos (by decide) _
    rw [f64Round_eq_inf hinf, withSign_sumNeg, sumNeg, if_neg hne]
    refine congrArg f64Inf (decide_eq_decide.mpr ?_)
    rw [div_lt_iff₀ hpos, zero_mul, Int.cast_lt_zero]
    omega

/-! ### Halving and adding to +0.0 (R268, R322) -/

theorem f64Half_eq_round {x : F64} (hx : f64IsFinite x = true) : f64Half x = f64Round (f64Neg x) (f64Mag x) := by
  simp [f64Half, f64IsNaN_of_finite hx, f64IsInf_of_finite hx]

theorem f64ToRat_half (x : F64) : f64ToRat x / 2 = (withSign (f64Neg x) (f64Mag x) : ℚ) / 2 ^ 1075 := by
  rw [f64ToRat, f64Scaled_eq, pow_succ (2 : ℚ) 1074, div_div]

theorem f64IsFinite_half {x : F64} (hx : f64IsFinite x = true) : f64IsFinite (f64Round (f64Neg x) (f64Mag x)) = true := by
  have hexp := f64IsFinite_iff.mp hx
  have hmag : f64Mag x < 2 ^ 53 * 2 ^ 2045 := f64Mag_lt (by omega)
  rw [f64IsFinite_round]
  generalize 2 ^ 2045 = u at *
  omega

/-- A normal value, and a value with an even fraction, is a multiple of the unit its half is rounded to. -/
theorem dvd_f64Mag {x : F64} (h : 2 ≤ f64Exp x ∨ f64Frac x % 2 = 0) : 2 ^ (roundExp (f64Mag x) + 1) ∣ f64Mag x := by
  have hlt := f64Sig_lt x
  rcases Nat.lt_or_ge (f64Exp x) 2 with hsmall | hbig
  · have hmag : f64Mag x = f64Sig x := by rw [f64Mag_eq_sig, show f64Exp x - 1 = 0 by omega, pow_zero, Nat.mul_one]
    have hexp : roundExp (f64Mag x) = 0 := roundExp_unique (by omega) (.inl rfl)
    rw [hexp, hmag]
    unfold f64Sig
    split <;> omega
  · have hexp : roundExp (f64Mag x) = f64Exp x - 2 := by
      rw [f64Mag_eq_sig]
      refine roundExp_unique ?_ (.inr ?_)
      · rw [show f64Exp x - 2 + 54 = 53 + (f64Exp x - 1) by omega, pow_add 2 53]
        exact Nat.mul_lt_mul_of_pos_right hlt (Nat.two_pow_pos _)
      · rw [show f64Exp x - 2 + 53 = 52 + (f64Exp x - 1) by omega, pow_add 2 52]
        exact Nat.mul_le_mul_right _ ((f64Exp_eq_zero_or_le_sig x).resolve_left (by omega))
    rw [hexp, f64Mag_eq_sig, show f64Exp x - 2 + 1 = f64Exp x - 1 by omega]
    exact Dvd.intro_left _ rfl

/-- Only the two zeros have magnitude 0. -/
theorem eq_zero_of_f64Mag_eq_zero {x : F64} (h : f64Mag x = 0) : x = f64Zero (f64Neg x) := by
  have hsig : f64Sig x = 0 ∧ f64Exp x = 0 := by
    rw [f64Mag_eq_sig] at h
    have hsig : f64Sig x = 0 := (Nat.mul_eq_zero.mp h).resolve_right (Nat.two_pow_pos _).ne'
    refine ⟨hsig, ?_⟩
    unfold f64Sig at hsig
    split at hsig <;> omega
  rw [← f64Round_zero]
  have hx := f64Round_two_mul_f64Mag (f64IsFinite_iff.mpr (by omega : f64Exp x < 2047))
  rw [h] at hx
  exact hx.symm

/-- Adding a finite value to +0.0 returns it, but for -0.0. -/
theorem f64Add_zero_left_of_finite {x : F64} (hx : f64IsFinite x = true) :
    f64Add 0#64 x = if x = f64Zero true then 0#64 else x := by
  rw [f64Add_eq_round (by decide) hx, sumNeg, show f64Scaled 0#64 = 0 by decide, zero_add, natAbs_f64Scaled]
  by_cases hzero : f64Mag x = 0
  · have hv : f64Scaled x = 0 := by rw [← Int.natAbs_eq_zero, natAbs_f64Scaled, hzero]
    rw [if_pos hv, hzero, Nat.mul_zero, f64Round_zero, eq_zero_of_f64Mag_eq_zero hzero]
    cases f64Neg x <;> decide
  · have hsign : decide (f64Scaled x < 0) = f64Neg x := by
      rw [f64Scaled_eq, withSign]
      cases f64Neg x <;> simp
      omega
    have hv : f64Scaled x ≠ 0 := by rwa [← Int.natAbs_ne_zero, natAbs_f64Scaled]
    have hne : x ≠ f64Zero true := by
      rintro rfl
      exact hzero (by decide)
    rw [if_neg hv, hsign, f64Round_two_mul_f64Mag hx, if_neg hne]

/-- Adding an infinity to +0.0 returns it. -/
theorem f64Add_zero_left_of_inf {x : F64} (hx : f64IsInf x = true) (hnan : f64IsNaN x = false) : f64Add 0#64 x = x := by
  have hzero : f64IsNaN 0#64 = false ∧ f64IsInf 0#64 = false := by decide
  simp [f64Add, hzero, hx, hnan]

/-- Settles O40: the half is the rounding of the exact half, and a sum with +0.0 is the rounding of the value itself. -/
theorem halvingAndAddingToZeroAreExact : Obligations.HalvingAndAddingToZeroAreExact := by
  refine ⟨fun x hx => ?_, fun x c hx hc => ?_, fun x hx => ?_⟩
  · rw [f64Half_eq_round hx, f64ToRat_half]
    exact ⟨f64IsFinite_half hx, f64Neg_round _ _, fun h => f64Round_exact (f64IsFinite_half hx) (dvd_f64Mag h)⟩
  · rw [f64Half_eq_round hx, f64ToRat_half]
    exact f64Round_nearestEven (f64IsFinite_half hx) c hc
  · by_cases hfin : f64IsFinite x = true
    · exact f64Add_zero_left_of_finite hfin
    · have hinf : f64IsInf x = true := by
        simp only [f64IsFinite, decide_eq_true_eq, not_not] at hfin
        simpa [f64IsInf, f64IsNaN, hfin] using hx
      rw [f64Add_zero_left_of_inf hinf hx, if_neg]
      rintro rfl
      exact hfin (by decide)

end Sys2Proof.Scope
end

section
/-! PROOFS. The CSR map: what each register reads as, what a host write to it changes, the host's reads, and the block while IDLE
(10_state.md R31 to R49, 20_memory.md R84, R85, R92). -/

namespace Sys2Proof.Scope

open Sys2Proof.Machine Sys2Proof.Safety Sys2Proof.Laws

/-! ### Words put together from fields -/

/-- Putting two fields side by side, as numbers. -/
theorem toNat_append_eq_add {m n : Nat} (x : BitVec m) (y : BitVec n) : (x ++ y).toNat = x.toNat * 2 ^ n + y.toNat := by
  rw [BitVec.toNat_append, ← Nat.shiftLeft_add_eq_or_of_lt y.isLt, Nat.shiftLeft_eq]

/-- A bit of a word is a binary digit of its number. -/
theorem getLsbD_eq_of_digit {n i : Nat} {x : BitVec n} {b : Bool} (h : x.toNat / 2 ^ i % 2 = b.toNat) : x.getLsbD i = b := by
  rw [BitVec.getLsbD, Nat.testBit_eq_decide_div_mod_eq, h]
  cases b <;> rfl

/-- Keeping the low `n` bits of a written word is masking it to them. -/
theorem setWidth_extractLsb'_eq_and {n : Nat} (h : n ≤ 32) (w : Word) :
    (w.extractLsb' 0 n).setWidth 32 = w &&& BitVec.ofNat 32 (2 ^ n - 1) := by
  have hpow : 2 ^ n ≤ 2 ^ 32 := Nat.pow_le_pow_right (by decide) h
  apply BitVec.eq_of_toNat_eq
  rw [BitVec.toNat_setWidth_of_le h, BitVec.extractLsb'_toNat, Nat.shiftRight_zero, BitVec.toNat_and, BitVec.toNat_ofNat,
    Nat.mod_eq_of_lt (a := 2 ^ n - 1) (by omega), Nat.and_two_pow_sub_one_eq_mod]

/-- TXCFG as a number (10_state.md R35). -/
theorem txcfgWord_toNat (r : ConfigRegs) :
    r.txcfgWord.toNat = r.rate.toNat + 16 * r.bw.toNat + (if r.psduMsbFirst then 256 else 0) := by
  unfold ConfigRegs.txcfgWord
  rw [toNat_append_eq_add, toNat_append_eq_add, toNat_append_eq_add, toNat_append_eq_add, BitVec.toNat_ofBool]
  cases r.psduMsbFirst <;> (simp; omega)

/-- CAPS as a number (10_state.md R47): MAX_PSDU fits its field (00_scope.md R8). -/
theorem capsWord_toNat {p : Params} (h : p.wellFormed = true) :
    (capsWord p).toNat = p.maxPsdu + (if p.hasDetector then 65536 else 0) := by
  have hmax : p.maxPsdu < 2 ^ 12 := by
    simp only [Params.wellFormed, Params.psduOk, Bool.and_eq_true, decide_eq_true_eq] at h
    omega
  unfold capsWord
  rw [toNat_append_eq_add, toNat_append_eq_add, toNat_append_eq_add, BitVec.toNat_ofBool, BitVec.toNat_ofNat (x := p.maxPsdu),
    Nat.mod_eq_of_lt hmax]
  cases p.hasDetector <;> simp
  omega

/-- STATUS as a number (10_state.md R34). -/
theorem statusWord_toNat (st : Status) (busy : Bool) :
    (st.word busy).toNat = 256 * st.errCode.code.toNat + 16 * st.cmdDropped.toNat + 8 * st.found.toNat + 4 * st.err.toNat +
      2 * st.done.toNat + busy.toNat := by
  unfold Status.word
  rw [toNat_append_eq_add, toNat_append_eq_add, toNat_append_eq_add, toNat_append_eq_add, toNat_append_eq_add,
    toNat_append_eq_add, toNat_append_eq_add]
  simp only [BitVec.toNat_ofBool, BitVec.toNat_ofNat]
  omega

/-- The bits of STATUS (10_state.md R34). -/
theorem statusWord_getLsbD (st : Status) (busy : Bool) :
    (st.word busy).getLsbD 0 = busy ∧ (st.word busy).getLsbD 1 = st.done ∧ (st.word busy).getLsbD 2 = st.err ∧
    (st.word busy).getLsbD 3 = st.found ∧ (st.word busy).getLsbD 4 = st.cmdDropped := by
  have h0 := busy.toNat_le
  have h1 := st.done.toNat_le
  have h2 := st.err.toNat_le
  have h3 := st.found.toNat_le
  have h4 := st.cmdDropped.toNat_le
  refine ⟨?_, ?_, ?_, ?_, ?_⟩ <;> refine getLsbD_eq_of_digit ?_ <;> rw [statusWord_toNat] <;> omega

/-- The reserved bits and ERRCODE of STATUS (10_state.md R34). -/
theorem statusWord_extractLsb' (st : Status) (busy : Bool) :
    (st.word busy).extractLsb' 5 3 = 0 ∧ (st.word busy).extractLsb' 12 20 = 0 ∧
    (st.word busy).extractLsb' 8 4 = st.errCode.code := by
  have h0 := busy.toNat_le
  have h1 := st.done.toNat_le
  have h2 := st.err.toNat_le
  have h3 := st.found.toNat_le
  have h4 := st.cmdDropped.toNat_le
  have hcode := st.errCode.code.isLt
  refine ⟨?_, ?_, ?_⟩ <;> apply BitVec.eq_of_toNat_eq <;>
    rw [BitVec.extractLsb'_toNat, Nat.shiftRight_eq_div_pow, statusWord_toNat]
  · show _ = 0; omega
  · show _ = 0; omega
  · omega

/-! ### The CSR map (R32, R49) -/

@[simp] theorem csrAt_csrOffset (c : Csr) : csrAt (csrOffset c) = some c := by cases c <;> rfl

theorem csrOffset_lt (c : Csr) : csrOffset c < 0x4C := by cases c <;> decide

theorem csrAt_reserved {off : Nat} (h : 0x4C ≤ off) : csrAt off = none := by
  cases hc : csrAt off with
  | none => rfl
  | some c =>
    have hlt := csrOffset_lt c
    rw [← csrAt_eq_some hc] at hlt
    omega

theorem csrRead_csrOffset (s : State) (c : Csr) : s.csrRead (csrOffset c) = s.csrValue c := by
  rw [State.csrRead, csrAt_csrOffset]

theorem csrWriteAt_csrOffset (s : State) (c : Csr) (w : Word) : s.csrWriteAt (csrOffset c) w = s.csrWrite c w := by
  rw [State.csrWriteAt, csrAt_csrOffset]

theorem csrRead_of_csrAt_none {off : Nat} (h : csrAt off = none) (s : State) : s.csrRead off = 0 := by rw [State.csrRead, h]

theorem csrWriteAt_of_csrAt_none {off : Nat} (h : csrAt off = none) (s : State) (w : Word) : s.csrWriteAt off w = s := by
  rw [State.csrWriteAt, h]

/-- Every offset reads as before when every CSR but the one at `csrOffset c` has its value. -/
theorem csrRead_eq_of_csrValue {s t : State} {c : Csr} (h : ∀ c', c' ≠ c → t.csrValue c' = s.csrValue c') {off : Nat}
    (hoff : off ≠ csrOffset c) : t.csrRead off = s.csrRead off := by
  unfold State.csrRead
  cases hc : csrAt off with
  | none => rfl
  | some c' =>
    refine h c' ?_
    rintro rfl
    exact hoff (csrAt_eq_some hc)

/-! ### Writes to the configuration CSRs (R35 to R39, R46, R48) -/

/-- The bits of each configuration CSR that are not reserved; `none` for the other CSRs. -/
def configMask : Csr → Option Nat
  | .txcfg => some 0x13F
  | .seed => some 0x7F
  | .psduLen => some 0xFFFF
  | .stageLen => some 0xFFFFFF
  | .symIndex => some 0xFFFF
  | .detLen => some 0xFFFFFF
  | .detMaxScan => some 0xFFFFFF
  | .detThrShort => some 0xFFFFFFFF
  | .detThrLong => some 0xFFFFFFFF
  | .cmd | .status | .nSym | .nPad | .nData | .outLen | .txTime | .detIndex | .caps => none

/-- The configuration CSRs with the fields of one of them taken from a word. -/
def setConfig (r : ConfigRegs) (w : Word) : Csr → ConfigRegs
  | .txcfg => r.writeTxcfg w
  | .seed => { r with seed := w.extractLsb' 0 7 }
  | .psduLen => { r with psduLen := w.extractLsb' 0 16 }
  | .stageLen => { r with stageLen := w.extractLsb' 0 24 }
  | .symIndex => { r with symIndex := w.extractLsb' 0 16 }
  | .detLen => { r with detLen := w.extractLsb' 0 24 }
  | .detMaxScan => { r with detMaxScan := w.extractLsb' 0 24 }
  | .detThrShort => { r with detThrShort := w }
  | .detThrLong => { r with detThrLong := w }
  | .cmd | .status | .nSym | .nPad | .nData | .outLen | .txTime | .detIndex | .caps => r

/-- The CSR is one of the detector's configuration CSRs, and the block has no detector (R46, R48). -/
def NoSuchCsr (p : Params) (c : Csr) : Prop := 0x1C ≤ csrOffset c ∧ p.hasDetector = false

/-- A write to a configuration CSR sets its fields. -/
theorem csrWrite_eq_setConfig {s : State} {c : Csr} {mask : Nat} (hc : configMask c = some mask) (hd : ¬ NoSuchCsr s.params c)
    (w : Word) : s.csrWrite c w = { s with regs := setConfig s.regs w c } := by
  have hdet : 0x1C ≤ csrOffset c → s.params.hasDetector = true := by simpa [NoSuchCsr] using hd
  cases c with
  | txcfg | seed | psduLen | stageLen | symIndex => rfl
  | detLen | detMaxScan | detThrShort | detThrLong =>
    rw [State.csrWrite, hdet (by decide)]
    rfl
  | cmd | status | nSym | nPad | nData | outLen | txTime | detIndex | caps => cases hc

/-- Without the detector its configuration CSRs ignore writes and read 0. -/
theorem csrWrite_of_noSuchCsr {s : State} {c : Csr} {mask : Nat} (hc : configMask c = some mask) (hd : NoSuchCsr s.params c)
    (w : Word) : s.csrWrite c w = s ∧ s.csrValue c = 0 := by
  obtain ⟨hoff, hdet⟩ := hd
  cases c with
  | txcfg | seed | psduLen | stageLen | symIndex => exact absurd hoff (by decide)
  | detLen | detMaxScan | detThrShort | detThrLong =>
    rw [State.csrWrite, State.csrValue, hdet, detectorWord, hdet]
    exact ⟨rfl, rfl⟩
  | cmd | status | nSym | nPad | nData | outLen | txTime | detIndex | caps => cases hc

/-- Setting the fields of one CSR leaves the value of every other. -/
theorem csrValue_setConfig (s : State) (w : Word) (c c' : Csr) :
    ({ s with regs := setConfig s.regs w c } : State).csrValue c' =
      if c' = c then ({ s with regs := setConfig s.regs w c } : State).csrValue c else s.csrValue c' := by
  cases c <;> cases c' <;> rfl

theorem txcfgWord_writeTxcfg (r : ConfigRegs) (w : Word) : (r.writeTxcfg w).txcfgWord = w &&& 0x13F#32 := by
  apply BitVec.eq_of_getLsbD_eq
  intro i hi
  unfold ConfigRegs.writeTxcfg ConfigRegs.txcfgWord
  rw [BitVec.getLsbD_append, BitVec.getLsbD_append, BitVec.getLsbD_append, BitVec.getLsbD_append]
  interval_cases i <;> simp

/-- A configuration CSR reads back as the word masked to its fields. -/
theorem csrValue_setConfig_self {s : State} {c : Csr} {mask : Nat} (hc : configMask c = some mask)
    (hd : ¬ NoSuchCsr s.params c) (w : Word) :
    ({ s with regs := setConfig s.regs w c } : State).csrValue c = w &&& BitVec.ofNat 32 mask := by
  have hdet : 0x1C ≤ csrOffset c → s.params.hasDetector = true := by simpa [NoSuchCsr] using hd
  have hdetector : ∀ v : Word, 0x1C ≤ csrOffset c → detectorWord s.params v = v := fun v hoff => by
    rw [detectorWord, hdet hoff, if_pos rfl]
  cases c with
  | txcfg => cases hc; exact txcfgWord_writeTxcfg s.regs w
  | seed | psduLen | stageLen | symIndex => cases hc; exact setWidth_extractLsb'_eq_and (by decide) w
  | detLen | detMaxScan =>
    cases hc
    exact (hdetector _ (by decide)).trans (setWidth_extractLsb'_eq_and (by decide) w)
  | detThrShort | detThrLong =>
    cases hc
    exact (hdetector _ (by decide)).trans BitVec.and_allOnes.symm
  | cmd | status | nSym | nPad | nData | outLen | txTime | detIndex | caps => cases hc

/-- Everything a write to a configuration CSR does. -/
theorem csrWrite_config (s : State) {c : Csr} {mask : Nat} (hc : configMask c = some mask) (w : Word) :
    ∃ regs, s.csrWrite c w = { s with regs := regs } ∧
      ({ s with regs := regs } : State).csrValue c =
        (if 0x1C ≤ csrOffset c ∧ s.params.hasDetector = false then 0 else w &&& BitVec.ofNat 32 mask) ∧
      ∀ c', c' ≠ c → ({ s with regs := regs } : State).csrValue c' = s.csrValue c' := by
  by_cases hd : NoSuchCsr s.params c
  · obtain ⟨hwrite, hread⟩ := csrWrite_of_noSuchCsr hc hd w
    exact ⟨s.regs, hwrite, hread.trans (if_pos hd).symm, fun _ _ => rfl⟩
  · exact ⟨setConfig s.regs w c, csrWrite_eq_setConfig hc hd w, (csrValue_setConfig_self hc hd w).trans (if_neg hd).symm,
      fun c' hne => (csrValue_setConfig s w c c').trans (if_neg hne)⟩

/-- The nine configuration CSRs with their offsets and masks. -/
theorem exists_csr_of_mem_config {off mask : Nat}
    (h : (off, mask) ∈ [(0x08, 0x13F), (0x0C, 0x7F), (0x10, 0xFFFF), (0x14, 0xFFFFFF), (0x18, 0xFFFF), (0x1C, 0xFFFFFF),
      (0x20, 0xFFFFFF), (0x24, 0xFFFFFFFF), (0x28, 0xFFFFFFFF)]) : ∃ c, csrOffset c = off ∧ configMask c = some mask := by
  simp only [List.mem_cons, Prod.mk.injEq, List.not_mem_nil, or_false] at h
  rcases h with ⟨rfl, rfl⟩ | ⟨rfl, rfl⟩ | ⟨rfl, rfl⟩ | ⟨rfl, rfl⟩ | ⟨rfl, rfl⟩ | ⟨rfl, rfl⟩ | ⟨rfl, rfl⟩ | ⟨rfl, rfl⟩ |
    ⟨rfl, rfl⟩
  exacts [⟨.txcfg, rfl, rfl⟩, ⟨.seed, rfl, rfl⟩, ⟨.psduLen, rfl, rfl⟩, ⟨.stageLen, rfl, rfl⟩, ⟨.symIndex, rfl, rfl⟩,
    ⟨.detLen, rfl, rfl⟩, ⟨.detMaxScan, rfl, rfl⟩, ⟨.detThrShort, rfl, rfl⟩, ⟨.detThrLong, rfl, rfl⟩]

theorem csrOffset_mod_four (c : Csr) : csrOffset c % 4 = 0 := by cases c <;> rfl

/-- A 32-bit host write at any byte address of a CSR is a write of that CSR (20_memory.md R84, R85). -/
theorem step_csrWrite_at {s : State} {c : Csr} {j : Nat} {w : Word} {rest : List HostOp} (hj : j < 4)
    (h : HostTurn s (.write (s.params.base + csrOffset c + j) .w32 w) rest) :
    step s = .next ((Issued s rest).csrWrite c w) := by
  have hlt := csrOffset_lt c
  rw [step_csrWrite (csrOffset_mod_four c) hj (by omega) h, csrWriteAt_csrOffset]

/-- Settles O44: a write sets the fields of the addressed register, in the state with the operation taken off the queue. -/
theorem configCsrWritesReadBack : Obligations.ConfigCsrWritesReadBack := by
  refine ⟨fun s off mask j w rest hj hmem hturn => ?_, fun s => ?_⟩
  · obtain ⟨c, rfl, hc⟩ := exists_csr_of_mem_config hmem
    obtain ⟨regs, hwrite, hread, hother⟩ := csrWrite_config (Issued s rest) hc w
    refine ⟨regs, (step_csrWrite_at hj hturn).trans (by rw [hwrite]), ?_, fun off' hne => ?_⟩
    · rw [csrRead_csrOffset, hread]
      rfl
    · exact csrRead_eq_of_csrValue (s := s) hother hne
  · have hdetector : ∀ v : Word, (detectorWord s.params v).toNat = if s.params.hasDetector then v.toNat else 0 := fun v => by
      rw [detectorWord]
      split <;> rfl
    refine ⟨txcfgWord_toNat s.regs, BitVec.toNat_setWidth_of_le (by decide),
      BitVec.toNat_setWidth_of_le (by decide), BitVec.toNat_setWidth_of_le (by decide),
      BitVec.toNat_setWidth_of_le (by decide), ?_, ?_, rfl, rfl⟩
    · exact (hdetector _).trans (by rw [BitVec.toNat_setWidth_of_le (by decide)])
    · exact (hdetector _).trans (by rw [BitVec.toNat_setWidth_of_le (by decide)])

/-! ### Writes with no effect (R33, R40 to R45, R47, R49, 20_memory.md R84) -/

/-- A write to a read-only CSR, or to the reserved offset between them, is ignored. -/
theorem csrWriteAt_readOnly {r : Nat} (h : r ∈ [0x2C, 0x30, 0x34, 0x38, 0x3C, 0x40, 0x44, 0x48]) (s : State) (w : Word) :
    s.csrWriteAt r w = s := by
  simp only [List.mem_cons, List.not_mem_nil, or_false] at h
  rcases h with rfl | rfl | rfl | rfl | rfl | rfl | rfl | rfl <;> rfl

/-- A 32-bit write at any byte address of an offset that ignores writes only leaves the queue. -/
theorem step_ignoredCsrWrite {s : State} {r j : Nat} {w : Word} {rest : List HostOp} (hr : r % 4 = 0) (hj : j < 4)
    (hl : r < 0x100) (hignored : ∀ t : State, t.csrWriteAt r w = t)
    (h : HostTurn s (.write (s.params.base + r + j) .w32 w) rest) : step s = .next (Issued s rest) := by
  rw [step_csrWrite hr hj hl h, hignored]

/-- A write narrower than 32 bits to the CSR window only leaves the queue. -/
theorem step_narrowCsrWrite {s : State} {off : Nat} {width : Width} {w : Word} {rest : List HostOp} (hoff : off < 0x100)
    (hwidth : width ≠ .w32) (h : HostTurn s (.write (s.params.base + off) width w) rest) :
    step s = .next (Issued s rest) := by
  have halign : alignDown off width.bytes < 0x100 := by unfold alignDown; omega
  rw [step_host h]
  simp only [State.hostStep, State.hostWrite, offsetOf_base]
  rw [if_pos halign]
  cases width with
  | w8 | w16 => rfl
  | w32 => exact absurd rfl hwidth

/-- Settles O46: no state operation stands behind these writes, and each read is the register's value. -/
theorem ignoredCsrWrites : Obligations.IgnoredCsrWrites := by
  refine ⟨fun s off w rest hoff hturn => ?_, fun s off width w rest => step_narrowCsrWrite, fun s off hoff => ?_, fun s => ?_⟩
  · rcases hoff with ⟨r, j, hr, hj, rfl⟩ | ⟨hlow, hhigh⟩
    · have hword : r % 4 = 0 ∧ r < 0x100 := by
        simp only [List.mem_cons, List.not_mem_nil, or_false] at hr
        omega
      rw [← Nat.add_assoc] at hturn
      exact step_ignoredCsrWrite hword.1 hj hword.2 (fun t => csrWriteAt_readOnly hr t w) hturn
    · obtain ⟨r, j, hr, hj, rfl⟩ : ∃ r j, r % 4 = 0 ∧ j < 4 ∧ off = r + j := ⟨off - off % 4, off % 4, by omega⟩
      rw [← Nat.add_assoc] at hturn
      exact step_ignoredCsrWrite hr hj (by omega) (fun t => csrWriteAt_of_csrAt_none (csrAt_reserved (by omega)) t w) hturn
  · rcases hoff with rfl | rfl | hoff
    · rfl
    · rfl
    · exact csrRead_of_csrAt_none (csrAt_reserved hoff) s
  · exact ⟨BitVec.toNat_setWidth_of_le (by decide), BitVec.toNat_setWidth_of_le (by decide),
      BitVec.toNat_setWidth_of_le (by decide), rfl, BitVec.toNat_setWidth_of_le (by decide), rfl, capsWord_toNat⟩

/-! ### STATUS (R34) -/

/-- A write to STATUS clears CMD_DROPPED by its bit 4 and leaves the other bits. -/
theorem status_hostWrite_eq (st : Status) (w : Word) :
    st.hostWrite w = { st with cmdDropped := st.cmdDropped && !w.getLsbD 4 } := by
  unfold Status.hostWrite
  cases w.getLsbD 4 <;> simp

theorem csrRead_status (s : State) : s.csrRead 0x04 = s.status.word s.phase.isBusy := rfl

theorem isBusy_eq_decide (ph : Phase) : ph.isBusy = decide (ph = .busy) := by cases ph <;> rfl

/-- Settles O47: the write is that of the STATUS register, and the word is read off its number. -/
theorem statusWriteClearsOnlyCmdDropped : Obligations.StatusWriteClearsOnlyCmdDropped := by
  refine ⟨fun s j w rest hj hturn => ?_, fun s => ?_, fun s => ?_⟩
  · rw [step_csrWrite_at (c := .status) hj hturn, State.csrWrite, status_hostWrite_eq]
    rfl
  · obtain ⟨hbusy, hdone, herr, hfound, hdropped⟩ := statusWord_getLsbD s.status s.phase.isBusy
    obtain ⟨hlow, hhigh, -⟩ := statusWord_extractLsb' s.status s.phase.isBusy
    rw [csrRead_status]
    exact ⟨hbusy.trans (isBusy_eq_decide s.phase), hdone, herr, hfound, hdropped, hlow, hhigh⟩
  · obtain ⟨-, -, hcode⟩ := statusWord_extractLsb' s.status s.phase.isBusy
    rw [csrRead_status, hcode]
    cases s.status.errCode <;> rfl

/-! ### Host reads (20_memory.md R84, R85, R92) -/

/-- One byte of the CSR window is a byte of the aligned register. -/
theorem hostByte_csr {s : State} {off : Nat} (h : off < 0x100) (free : Byte) :
    s.hostByte off free = BitVec.ofNat 8 ((s.csrRead (off - off % 4)).toNat / 256 ^ (off % 4)) := by
  rw [State.hostByte, locate_csr h, ← wordByte_eq, ← alignDown]

/-- A read in the CSR window gives the addressed bytes of the aligned register: an aligned unit of at most four bytes never
leaves its register. -/
theorem readValue_csr (s : State) {off : Nat} (width : Width) (h : off < 0x100) :
    s.readValue (s.params.base + off) width =
      BitVec.ofNat 32 ((s.csrRead (off - off % 4)).toNat / 256 ^ ((off - off % width.bytes) % 4) % 256 ^ width.bytes) := by
  have hunit : ∀ j, j < width.bytes → off - off % width.bytes + j < 0x100 ∧
      off - off % width.bytes + j - (off - off % width.bytes + j) % 4 = off - off % 4 ∧
      (off - off % width.bytes + j) % 4 = (off - off % width.bytes) % 4 + j := by
    intro j hj
    cases width <;> simp only [Width.bytes] at hj ⊢ <;> omega
  have hbytes : ((List.range width.bytes).map fun j =>
      s.hostByte (off - off % width.bytes + j) (Config.freeByte (s.draws + j))) =
      leBytes width.bytes ((s.csrRead (off - off % 4)).toNat / 256 ^ ((off - off % width.bytes) % 4)) := by
    refine List.map_congr_left fun j hj => ?_
    obtain ⟨hlt, hreg, hbyte⟩ := hunit j (List.mem_range.mp hj)
    rw [hostByte_csr hlt, hreg, hbyte, Nat.pow_add, Nat.div_div_eq_div_mul]
  simp only [State.readValue, offsetOf_base, alignDown]
  rw [hbytes, leValue_leBytes]

/-- A turn of the poll returns STATUS and stays in the queue while BUSY (30_encoding.md R118). -/
theorem hostPoll_eq (s : State) (again : List HostOp) :
    s.hostPoll again = { s with responses := s.csrRead 0x04 :: s.responses,
                                pending := if s.phase = .busy then again else s.pending } := by
  have hbusy : (s.csrValue .status).getLsbD 0 = decide (s.phase = .busy) :=
    (statusWord_getLsbD s.status s.phase.isBusy).1.trans (isBusy_eq_decide s.phase)
  simp only [State.hostPoll, hbusy, decide_eq_true_eq]
  rfl

/-- Settles O48: a read and a poll touch the responses, the queue and the draw counter only. -/
theorem hostReadsChangeNothing : Obligations.HostReadsChangeNothing := by
  refine ⟨fun s addr width rest hturn => step_host hturn, fun s off width => readValue_csr s width, fun s rest hturn => ?_⟩
  rw [step_host hturn, State.hostStep, hostPoll_eq, hturn.1]
  rfl

/-! ### The latched word and the snapshot while IDLE (R31) -/

/-- The state with another latched word and snapshot. -/
def relatch (s : State) (c : Word) (x : ConfigRegs) : State := { s with cmd := c, snap := x }

/-- The states differ at most in the latched word and the snapshot, and in nothing once a command has been accepted. -/
def AgreesButLatch (t' t : State) : Prop := { t' with cmd := t.cmd, snap := t.snap } = t ∧ (t.phase = .busy → t' = t)

theorem agreesButLatch_refl (t : State) : AgreesButLatch t t := ⟨rfl, fun _ => rfl⟩

theorem agreesButLatch_relatch {t : State} (h : t.phase = .idle) (c : Word) (x : ConfigRegs) :
    AgreesButLatch (relatch t c x) t := ⟨rfl, fun hb => by rw [h] at hb; cases hb⟩

theorem running_of_idle {s : State} (h : s.phase = .idle) : s.running = none := by rw [State.running, h]

theorem inRunningOutput_of_idle {s : State} (h : s.phase = .idle) (sp : MemSpace) (k : Nat) :
    s.inRunningOutput sp k = false := by rw [State.inRunningOutput, running_of_idle h]

theorem inRunningRange_of_idle {s : State} (h : s.phase = .idle) (sp : MemSpace) (k : Nat) :
    s.inRunningRange sp k = false := by rw [State.inRunningRange, running_of_idle h]

/-- While IDLE no host write to memory is a hazard (70_reset_and_hazards.md R404). -/
theorem writeMem_of_idle {s : State} (h : s.phase = .idle) (bytes : List (MemSpace × Nat × Byte)) :
    s.writeMem bytes = .next (s.storeBytes bytes) := by
  have hnone : bytes.find? (fun x => s.inRunningRange x.1 x.2.1) = none := by simp [inRunningRange_of_idle h]
  rw [State.writeMem, hnone]

theorem storeBytes_phase (s : State) (bytes : List (MemSpace × Nat × Byte)) : (s.storeBytes bytes).phase = s.phase := by
  simpa using congrArg State.phase (storeBytes_rest bytes s)

theorem storeBytes_relatch (s : State) (c : Word) (x : ConfigRegs) (bytes : List (MemSpace × Nat × Byte)) :
    (relatch s c x).storeBytes bytes = relatch (s.storeBytes bytes) c x := by
  induction bytes generalizing s with
  | nil => rfl
  | cons y bytes ih =>
    obtain ⟨sp, k, b⟩ := y
    rw [State.storeBytes, State.storeBytes, ← ih]
    cases sp <;> rfl

/-- Acceptance latches a new word and snapshot (60_exceptions.md R370). -/
theorem csrWrite_cmd_relatch {s : State} (h : s.phase = .idle) (c : Word) (x : ConfigRegs) (w : Word) :
    (relatch s c x).csrWrite .cmd w = s.csrWrite .cmd w := by
  simp only [State.csrWrite, h, show (relatch s c x).phase = .idle from h]
  rfl

/-- A write to another CSR does not use the latch, and keeps the phase. -/
theorem csrWrite_relatch_of_ne {r : Csr} (hr : r ≠ .cmd) (s : State) (c : Word) (x : ConfigRegs) (w : Word) :
    (relatch s c x).csrWrite r w = relatch (s.csrWrite r w) c x ∧ (s.csrWrite r w).phase = s.phase := by
  cases r with
  | cmd => exact absurd rfl hr
  | _ => exact ⟨rfl, rfl⟩

theorem csrWrite_relatch {s : State} (h : s.phase = .idle) (c : Word) (x : ConfigRegs) (r : Csr) (w : Word) :
    AgreesButLatch ((relatch s c x).csrWrite r w) (s.csrWrite r w) := by
  by_cases hr : r = .cmd
  · subst hr
    rw [csrWrite_cmd_relatch h]
    exact agreesButLatch_refl _
  · obtain ⟨hlatch, hphase⟩ := csrWrite_relatch_of_ne hr s c x w
    rw [hlatch]
    exact agreesButLatch_relatch (hphase.trans h) c x

theorem csrWriteAt_relatch {s : State} (h : s.phase = .idle) (c : Word) (x : ConfigRegs) (off : Nat) (w : Word) :
    AgreesButLatch ((relatch s c x).csrWriteAt off w) (s.csrWriteAt off w) := by
  unfold State.csrWriteAt
  split
  · exact csrWrite_relatch h c x _ w
  · exact agreesButLatch_relatch h c x

/-- A host write to an IDLE block takes effect whatever is latched. -/
theorem hostWrite_relatch {s : State} (h : s.phase = .idle) (c : Word) (x : ConfigRegs) (addr : Nat) (width : Width)
    (w : Word) : ∃ t t', s.hostWrite addr width w = .next t ∧ (relatch s c x).hostWrite addr width w = .next t' ∧
      AgreesButLatch t' t := by
  have hsame := agreesButLatch_relatch h c x
  unfold State.hostWrite
  rw [show (relatch s c x).params = s.params from rfl]
  cases offsetOf s.params addr with
  | none => exact ⟨_, _, rfl, rfl, hsame⟩
  | some off =>
    dsimp only
    split
    · cases width with
      | w8 | w16 => exact ⟨_, _, rfl, rfl, hsame⟩
      | w32 => exact ⟨_, _, rfl, rfl, csrWriteAt_relatch h c x _ w⟩
    · refine ⟨_, _, writeMem_of_idle h _, writeMem_of_idle (s := relatch s c x) h _, ?_⟩
      rw [storeBytes_relatch]
      exact agreesButLatch_relatch ((storeBytes_phase s _).trans h) c x

theorem readValue_relatch {s : State} (h : s.phase = .idle) (c : Word) (x : ConfigRegs) (addr : Nat) (width : Width) :
    (relatch s c x).readValue addr width = s.readValue addr width := by
  have hbyte : ∀ off free, (relatch s c x).hostByte off free = s.hostByte off free := by
    intro off free
    unfold State.hostByte State.hostMemByte
    simp only [inRunningOutput_of_idle h, inRunningOutput_of_idle (s := relatch s c x) h]
    rfl
  simp only [State.readValue, hbyte]
  rfl

theorem hostRead_relatch {s : State} (h : s.phase = .idle) (c : Word) (x : ConfigRegs) (addr : Nat) (width : Width) :
    (relatch s c x).hostRead addr width = relatch (s.hostRead addr width) c x := by
  rw [State.hostRead, readValue_relatch h]
  rfl

/-- A reset of an IDLE block abandons no command, and clears what is latched (70_reset_and_hazards.md R390). -/
theorem applyReset_relatch {s : State} (h : s.phase = .idle) (c : Word) (x : ConfigRegs) :
    (relatch s c x).applyReset = s.applyReset := by
  simp only [State.applyReset, State.abandonOutput, running_of_idle h, running_of_idle (s := relatch s c x) h]
  rfl

/-- Any operation of the host on an IDLE block goes on, to states that agree but for the latch. -/
theorem hostStep_relatch {s : State} (h : s.phase = .idle) (c : Word) (x : ConfigRegs) (op : HostOp) (rest : List HostOp) :
    ∃ t t', s.hostStep op rest = .next t ∧ (relatch s c x).hostStep op rest = .next t' ∧ AgreesButLatch t' t := by
  have hissued : (Issued s rest).phase = .idle := h
  cases op with
  | write addr width w => exact hostWrite_relatch hissued c x addr width w
  | read addr width =>
    exact ⟨_, _, rfl, congrArg Host.Outcome.next (hostRead_relatch hissued c x addr width),
      agreesButLatch_relatch (t := (Issued s rest).hostRead addr width) h c x⟩
  | poll => exact ⟨_, _, rfl, rfl, agreesButLatch_relatch (t := (Issued s rest).hostPoll s.pending) h c x⟩
  | reset => exact ⟨_, _, rfl, congrArg Host.Outcome.next (applyReset_relatch hissued c x), agreesButLatch_refl _⟩

/-- Settles O59: while IDLE the host alone moves, and each of its operations reads neither field. -/
theorem idleBlockIgnoresTheSnapshot : Obligations.IdleBlockIgnoresTheSnapshot := by
  intro s t c x hidle hstep
  show ∃ t', step (relatch s c x) = .next t' ∧ AgreesButLatch t' t
  cases step_cases hstep with
  | engine hturn _ => rw [hturn.1] at hidle; cases hidle
  | host op rest hturn heq =>
    obtain ⟨u, t', hu, ht', hagree⟩ := hostStep_relatch hidle c x op rest
    obtain rfl : u = t := Host.Outcome.next.inj (hu.symm.trans heq)
    exact ⟨t', (step_host (s := relatch s c x) hturn).trans ht', hagree⟩
  | nobody _ hpending heq =>
    subst heq
    refine ⟨relatch t c x, ?_, agreesButLatch_relatch hidle c x⟩
    show (relatch t c x).advance = _
    simp only [State.advance, State.mover, show (relatch t c x).phase = .idle from hidle,
      show (relatch t c x).pending = [] from hpending]

/-! ### Reset values (R33 to R49, 70_reset_and_hazards.md R390) -/

/-- Settles O54: each value is the register's field of the reset state. -/
theorem resetValuesOfTheCsrs : Obligations.ResetValuesOfTheCsrs :=
  ⟨rfl, rfl, by decide, rfl, rfl, rfl, rfl, rfl⟩

end Sys2Proof.Scope
end

section
/-! PROOFS. The conversion of a threshold from binary32 and its comparison with a metric (10_state.md R48, 48_frame_detector.md R344,
R347). -/

namespace Sys2Proof.Scope

open Sys2Proof.Machine

/-! ### The conversion is exact -/

/-- A magnitude with at most 53 significant bits, in whole units of `2^-1074`, is a multiple of the unit it is rounded to. -/
theorem two_pow_roundExp_dvd {q k : Nat} (hq : q < 2 ^ 53) (hk : 1 ≤ k) : 2 ^ (roundExp (q * 2 ^ k) + 1) ∣ q * 2 ^ k := by
  refine Dvd.dvd.mul_left (pow_dvd_pow 2 ?_) q
  rcases roundExp_eq_zero_or_le (q * 2 ^ k) with hzero | hle
  · omega
  · have hlt : q * 2 ^ k < 2 ^ (53 + k) := by
      rw [pow_add]
      exact Nat.mul_lt_mul_of_pos_right hq (Nat.two_pow_pos k)
    have := (Nat.pow_lt_pow_iff_right (by decide)).mp (lt_of_le_of_lt hle hlt)
    omega

theorem withSign_cast (neg : Bool) (m : Nat) : (withSign neg m : ℚ) = (if neg then -1 else 1) * (m : ℚ) := by
  cases neg <;> simp [withSign]

/-- The magnitude of a finite binary32, in units of `2^-149`. -/
def f32Mag (x : BitVec 32) : Nat :=
  if (x.extractLsb' 23 8).toNat = 0 then (x.extractLsb' 0 23).toNat
  else (2 ^ 23 + (x.extractLsb' 0 23).toNat) * 2 ^ ((x.extractLsb' 23 8).toNat - 1)

theorem f32ToF64_of_finite {x : BitVec 32} (hx : x.extractLsb' 23 8 ≠ 255#8) :
    f32ToF64 x = f64Round (x.getLsbD 31) (f32Mag x * 2 ^ 926) := by
  have hexp : (x.extractLsb' 23 8).toNat ≠ 255 := fun h => hx (BitVec.eq_of_toNat_eq h)
  rw [f32ToF64, if_neg hexp]
  rfl

/-- A finite binary32 has at most 24 significant bits, in a unit of at most `2^253` times the smallest. -/
theorem exists_f32Mag_eq {x : BitVec 32} (hx : x.extractLsb' 23 8 ≠ 255#8) :
    ∃ q k, f32Mag x = q * 2 ^ k ∧ q < 2 ^ 24 ∧ k ≤ 253 := by
  have hfrac := (x.extractLsb' 0 23).isLt
  have hexp : (x.extractLsb' 23 8).toNat ≠ 255 := fun h => hx (BitVec.eq_of_toNat_eq h)
  have hlt := (x.extractLsb' 23 8).isLt
  unfold f32Mag
  split
  · exact ⟨_, 0, (Nat.mul_one _).symm, by omega, by omega⟩
  · exact ⟨_, _, rfl, by omega, by omega⟩

/-- The value of a finite binary32 (R48). -/
theorem f32Mag_cast (x : BitVec 32) :
    (f32Mag x : ℚ) = if x.extractLsb' 23 8 = 0 then ((x.extractLsb' 0 23).toNat : ℚ)
      else (2 ^ 23 + (x.extractLsb' 0 23).toNat : ℚ) * 2 ^ ((x.extractLsb' 23 8).toNat - 1) := by
  have hzero : x.extractLsb' 23 8 = 0 ↔ (x.extractLsb' 23 8).toNat = 0 := (BitVec.toNat_inj (y := 0#8)).symm
  simp only [f32Mag, hzero]
  split
  · rfl
  · push_cast
    rfl

/-- The conversion of a finite binary32 neither overflows nor rounds. -/
theorem f32ToF64_exact {x : BitVec 32} (hx : x.extractLsb' 23 8 ≠ 255#8) :
    f64IsFinite (f32ToF64 x) = true ∧
      f64ToRat (f32ToF64 x) = (if x.getLsbD 31 then -1 else 1) * ((f32Mag x : ℚ) / 2 ^ 149) := by
  obtain ⟨q, k, hmag, hq, hk⟩ := exists_f32Mag_eq hx
  have hunits : f32Mag x * 2 ^ 926 = q * 2 ^ (k + 926) := by rw [hmag, Nat.mul_assoc, ← pow_add]
  have hfinite : f64IsFinite (f64Round (x.getLsbD 31) (f32Mag x * 2 ^ 926)) = true := by
    rw [f64IsFinite_round, hunits]
    have hle : q * 2 ^ (k + 926) ≤ 2 ^ 24 * 2 ^ 2045 :=
      Nat.mul_le_mul (by omega) (pow_le_pow_right₀ (by decide) (by omega))
    have hpos : 0 < 2 ^ 2045 := by positivity
    generalize 2 ^ 2045 = u at *
    omega
  have hdvd : 2 ^ (roundExp (f32Mag x * 2 ^ 926) + 1) ∣ f32Mag x * 2 ^ 926 := by
    rw [hunits]
    exact two_pow_roundExp_dvd (by omega) (by omega)
  rw [f32ToF64_of_finite hx]
  refine ⟨hfinite, ?_⟩
  rw [f64Round_exact hfinite hdvd, show (1075 : Nat) = 149 + 926 by norm_num, pow_add]
  have hne : (2 : ℚ) ^ 926 ≠ 0 := pow_ne_zero _ (by decide)
  rw [withSign_cast, Nat.cast_mul, Nat.cast_pow, Nat.cast_ofNat, ← mul_assoc, mul_div_mul_right _ _ hne, mul_div_assoc]

/-! ### NaN and infinite thresholds -/

/-- A binary32 NaN is converted to a NaN. -/
theorem f64IsNaN_f32ToF64 {x : BitVec 32} (hexp : x.extractLsb' 23 8 = 255#8) (hfrac : x.extractLsb' 0 23 ≠ 0) :
    f64IsNaN (f32ToF64 x) = true := by
  have hexp' : (x.extractLsb' 23 8).toNat = 255 := congrArg BitVec.toNat hexp
  have hfrac' : (x.extractLsb' 0 23).toNat ≠ 0 := fun h => hfrac (BitVec.eq_of_toNat_eq h)
  have hnat : (f32ToF64 x).toNat =
      ((((x.getLsbD 31).toNat * 2 ^ 11 + 0x7FF) * 2 + 1) * 2 ^ 22 + (x.extractLsb' 0 22).toNat) * 2 ^ 29 := by
    rw [f32ToF64, if_pos hexp', if_neg hfrac']
    rw [toNat_append_eq_add, toNat_append_eq_add, toNat_append_eq_add, toNat_append_eq_add, BitVec.toNat_ofBool]
    norm_num
  have hpayload := (x.extractLsb' 0 22).isLt
  rw [f64IsNaN, f64Exp_eq, f64Frac_eq, hnat, Bool.and_eq_true, decide_eq_true_eq, decide_eq_true_eq]
  omega

theorem qualifies_of_nan {thr : F64} (h : f64IsNaN thr = true) (metric : Option ℚ) : qualifies metric thr = false := by
  cases metric with
  | none => rfl
  | some m => rw [qualifies, exceeds, if_pos h]

theorem qualifies_iff_of_finite {thr : F64} (h : f64IsFinite thr = true) (metric : ℚ) :
    qualifies (some metric) thr = true ↔ f64ToRat thr < metric := by
  simp [qualifies, exceeds, f64IsNaN_of_finite h, f64IsInf_of_finite h]

/-- Every defined metric exceeds minus infinity, and none plus infinity (log 23). -/
theorem qualifies_inf (neg : Bool) (metric : ℚ) : qualifies (some metric) (f64Inf neg) = neg := by
  have hinf : f64IsNaN (f64Inf neg) = false ∧ f64IsInf (f64Inf neg) = true ∧ f64Neg (f64Inf neg) = neg := by
    cases neg <;> decide
  simp [qualifies, exceeds, hinf]

/-- Settles O41: the binary32 significand fits the binary64 one, so the rounding of the conversion changes nothing. -/
theorem thresholdConversionIsExact : Obligations.ThresholdConversionIsExact := by
  refine ⟨fun x hx => ?_, fun x metric hexp hfrac => qualifies_of_nan (f64IsNaN_f32ToF64 hexp hfrac) metric,
    fun x metric hx => qualifies_iff_of_finite (f32ToF64_exact hx).1 metric, fun _ => rfl, fun metric => ⟨?_, ?_⟩⟩
  · obtain ⟨hfinite, hvalue⟩ := f32ToF64_exact hx
    refine ⟨hfinite, ?_⟩
    rw [hvalue, f32Mag_cast, ite_div]
  · exact qualifies_inf false metric
  · exact qualifies_inf true metric

end Sys2Proof.Scope
end

section
/-! PROOFS. What a command reads and what it writes (20_memory.md R89, R90): it faults, and its result varies, only with the bytes of
its input range, and no byte outside its output range changes. -/

namespace Sys2Proof.Scope

open Sys2Proof.Machine Sys2Proof.Safety Sys2Proof.Laws

/-! ### Computations that read an input range only (20_memory.md R89, R98) -/

/-- The state `s'` has the parameters, the snapshot and the bytes of an extent that `s` has. -/
structure AgreesOn (e : Option Extent) (s s' : State) : Prop where
  params : s'.params = s.params
  snap   : s'.snap = s.snap
  mem    : ∀ sp k, inExtent e sp k = true → (s'.mem sp).read k = (s.mem sp).read k

/-- From `s` the computation faults only on an unwritten byte of the extent, and it answers the same in every state that agrees with
`s` there. -/
structure ReadsWithin {α : Type} (e : Option Extent) (s : State) (r : State → Except Stop α) : Prop where
  fault : ∀ f, r s = .error (.fault f) →
    ∃ sp k, f = .unwrittenInput sp k ∧ (s.mem sp).read k = none ∧ inExtent e sp k = true
  agree : ∀ s', AgreesOn e s s' → r s' = r s

section
variable {α β : Type} {e : Option Extent} {s : State}

theorem ReadsWithin.bind {x : State → Except Stop α} {f : α → State → Except Stop β} (hx : ReadsWithin e s x)
    (hf : ∀ a, x s = .ok a → ReadsWithin e s (f a)) : ReadsWithin e s fun s => x s >>= fun a => f a s := by
  constructor
  · intro fault h
    rcases bind_eq_error.mp h with h | ⟨a, ha, h⟩
    · exact hx.fault fault h
    · exact (hf a ha).fault fault h
  · intro s' hs
    rw [hx.agree s' hs]
    cases ha : x s with
    | error _ => rfl
    | ok a => exact (hf a ha).agree s' hs

/-- A value made of the parameters and the snapshot. -/
theorem readsWithin_ok {g : State → α} (hg : ∀ s', s'.params = s.params → s'.snap = s.snap → g s' = g s) :
    ReadsWithin e s fun s => .ok (g s) :=
  ⟨nofun, fun s' hs => congrArg Except.ok (hg s' hs.params hs.snap)⟩

/-- A check on the parameters and the snapshot. -/
theorem readsWithin_require {g : State → Bool} {c : ErrorCode}
    (hg : ∀ s', s'.params = s.params → s'.snap = s.snap → g s' = g s) : ReadsWithin e s fun s => require (g s) c :=
  ⟨fun _ h => (by cases (require_error.mp h).2), fun s' hs => by rw [hg s' hs.params hs.snap]⟩

theorem argProfile_readsWithin : ReadsWithin e s State.argProfile :=
  ⟨fun _ h => (by cases (argProfile_eq_error.mp h).2), fun s' hs => by rw [State.argProfile, State.argProfile, hs.snap]⟩

theorem argPsduLen_readsWithin : ReadsWithin e s State.argPsduLen :=
  ⟨fun _ h => (by cases (argPsduLen_eq_error.mp h).2),
    fun s' hs => by rw [State.argPsduLen, State.argPsduLen, hs.params, hs.snap]⟩

theorem stageBits_congr {s' : State} (h : s'.snap = s.snap) : s'.stageBits = s.stageBits := by
  rw [State.stageBits, State.stageBits, h]

theorem scanLen_congr {s' : State} (hp : s'.params = s.params) (h : s'.snap = s.snap) : s'.scanLen = s.scanLen := by
  rw [State.scanLen, State.scanLen, hp, h]

theorem argsEncodeFrame_readsWithin : ReadsWithin e s State.argsEncodeFrame :=
  argProfile_readsWithin.bind fun _ _ => argPsduLen_readsWithin.bind fun _ _ =>
    (readsWithin_require fun s' hp _ => by rw [hp]).bind fun _ _ => readsWithin_ok fun _ _ _ => rfl

theorem argsSizing_readsWithin : ReadsWithin e s State.argsSizing :=
  argProfile_readsWithin.bind fun _ _ => argPsduLen_readsWithin.bind fun _ _ => readsWithin_ok fun _ _ _ => rfl

theorem argsBuildDataField_readsWithin : ReadsWithin e s State.argsBuildDataField :=
  argProfile_readsWithin.bind fun _ _ => argPsduLen_readsWithin.bind fun _ _ =>
    (readsWithin_require fun s' hp _ => by rw [hp]).bind fun _ _ => readsWithin_ok fun _ _ _ => rfl

theorem argsScramble_readsWithin : ReadsWithin e s State.argsScramble :=
  (readsWithin_require fun s' hp hs => by rw [hp, stageBits_congr hs]).bind fun _ _ =>
    readsWithin_ok fun _ _ hs => stageBits_congr hs

theorem argsConvEncode_readsWithin : ReadsWithin e s State.argsConvEncode :=
  (readsWithin_require fun s' hp hs => by rw [hp, stageBits_congr hs]).bind fun _ _ =>
    readsWithin_ok fun _ _ hs => stageBits_congr hs

theorem argsPuncture_readsWithin : ReadsWithin e s State.argsPuncture :=
  argProfile_readsWithin.bind fun _ _ => (readsWithin_require fun s' hp hs => by rw [hp, stageBits_congr hs]).bind fun _ _ =>
    (readsWithin_require fun s' _ hs => by rw [stageBits_congr hs]).bind fun _ _ =>
      readsWithin_ok fun _ _ hs => by rw [stageBits_congr hs]

theorem argsInterleave_readsWithin : ReadsWithin e s State.argsInterleave :=
  argProfile_readsWithin.bind fun _ _ => (readsWithin_require fun s' hp hs => by rw [hp, stageBits_congr hs]).bind fun _ _ =>
    readsWithin_ok fun _ _ hs => by rw [stageBits_congr hs]

theorem argsSymbol_readsWithin : ReadsWithin e s State.argsSymbol :=
  argProfile_readsWithin.bind fun _ _ => (readsWithin_require fun s' _ hs => by rw [stageBits_congr hs]).bind fun _ _ =>
    readsWithin_ok fun _ _ _ => rfl

end

/-! ### The engine's reads, inside an extent -/

theorem inExtent_eq_true {x : Extent} {sp : MemSpace} {k : Nat} :
    inExtent (some x) sp k = true ↔ x.space = sp ∧ k < x.bytes := by
  simp [inExtent, Extent.holds]

theorem engineByte_congr {s s' : State} {sp : MemSpace} {k : Nat} (h : (s'.mem sp).read k = (s.mem sp).read k) :
    s'.engineByte sp k = s.engineByte sp k := by
  rw [State.engineByte, State.engineByte, h]

theorem engineBytes_congr {s s' : State} {sp : MemSpace} {a n : Nat}
    (h : ∀ k, a ≤ k → k < a + n → (s'.mem sp).read k = (s.mem sp).read k) : s'.engineBytes sp a n = s.engineBytes sp a n := by
  induction n generalizing a with
  | zero => rfl
  | succ n ih =>
    rw [State.engineBytes, State.engineBytes, engineByte_congr (h a (by omega) (by omega)),
      ih fun k hk hlt => h k (by omega) (by omega)]

theorem engineBits_congr {s s' : State} {i n : Nat}
    (h : ∀ j, i ≤ j → j < i + n → s'.inMem.read (j / 8) = s.inMem.read (j / 8)) : s'.engineBits i n = s.engineBits i n := by
  induction n generalizing i with
  | zero => rfl
  | succ n ih =>
    rw [State.engineBits, State.engineBits, engineByte_congr (sp := .inMem) (h i (by omega) (by omega)),
      ih fun j hj hlt => h j (by omega) (by omega)]

theorem engineSamples_congr {s s' : State} {i n : Nat}
    (h : ∀ k, 16 * i ≤ k → k < 16 * (i + n) → s'.smpMem.read k = s.smpMem.read k) :
    s'.engineSamples i n = s.engineSamples i n := by
  induction n generalizing i with
  | zero => rfl
  | succ n ih =>
    rw [State.engineSamples, State.engineSamples,
      engineBytes_congr (sp := .smpMem) fun k hk hlt => h k (by omega) (by omega),
      ih fun k hk hlt => h k (by omega) (by omega)]

theorem engineBytes_readsWithin {s : State} {n len : Nat} (h : n ≤ len) :
    ReadsWithin (some ⟨.inMem, len⟩) s fun s => s.engineBytes .inMem 0 n := by
  constructor
  · intro f hf
    obtain ⟨k, -, hk, hnone, heq⟩ := engineBytes_eq_error hf
    exact ⟨.inMem, k, Stop.fault.inj heq, hnone, inExtent_eq_true.mpr ⟨rfl, by dsimp only; omega⟩⟩
  · intro s' hs
    exact engineBytes_congr fun k _ hk => hs.mem _ k (inExtent_eq_true.mpr ⟨rfl, by dsimp only; omega⟩)

/-- The byte of a stream bit lies in the extent of the stream. -/
theorem inExtent_inBits {n j : Nat} (h : j < n) : inExtent (some (.inBits n)) .inMem (j / 8) = true :=
  inExtent_eq_true.mpr ⟨rfl, by simp only [Extent.inBits, ceilDiv]; omega⟩

theorem engineBits_readsWithin {s : State} {n : Nat} :
    ReadsWithin (some (.inBits n)) s fun s => s.engineBits 0 n := by
  constructor
  · intro f hf
    obtain ⟨j, -, hj, hnone, heq⟩ := engineBits_eq_error hf
    exact ⟨.inMem, j / 8, Stop.fault.inj heq, hnone, inExtent_inBits (by omega)⟩
  · intro s' hs
    exact engineBits_congr fun j _ hj => hs.mem .inMem _ (inExtent_inBits (by omega))

/-- A scan reads the clamped buffer, or nothing when no window fits (48_frame_detector.md R342, R349). -/
theorem scanBuffer_readsWithin {s : State} (windowLen : Nat) :
    ReadsWithin (some (.samples s.scanLen)) s fun s => s.scanBuffer windowLen := by
  constructor
  · intro f hf
    unfold State.scanBuffer at hf
    split at hf
    · cases hf
    · obtain ⟨k, -, hk, hnone, heq⟩ := engineSamples_eq_error hf
      exact ⟨.smpMem, k, Stop.fault.inj heq, hnone, inExtent_eq_true.mpr ⟨rfl, by simp only [Extent.samples]; omega⟩⟩
  · intro s' hs
    have hlen := scanLen_congr hs.params hs.snap
    unfold State.scanBuffer
    rw [hlen, engineSamples_congr fun k _ hk =>
      hs.mem .smpMem k (inExtent_eq_true.mpr ⟨rfl, by simp only [Extent.samples]; omega⟩)]

/-! ### Every command reads its input range only -/

theorem sizingResult_congr {s s' : State} (h : s'.snap = s.snap) (p : RateProfile) (len : Nat) :
    s'.sizingResult p len = s.sizingResult p len := by
  rw [State.sizingResult, State.sizingResult, h]

/-- The symbol commands read one block of the selected profile (20_memory.md R89). -/
theorem inputRange_symbol {s : State} {p : RateProfile} (h : s.argsSymbol = .ok p) :
    s.inputRange .mapSymbol = some (.inBits p.nCbps) ∧ s.inputRange .modulateSymbol = some (.inBits p.nCbps) := by
  obtain ⟨hp, -⟩ := argsSymbol_eq_ok.mp h
  simp only [State.inputRange, hp, Option.map_some, and_self]

/-- The operands fix how much is read, and it is the input range of R89. -/
theorem effectsOf_readsWithin (i : Instr) (s : State) : ReadsWithin (s.inputRange i) s (effectsOf i) := by
  cases i with
  | nop | genPreamble => exact readsWithin_ok fun _ _ _ => rfl
  | genSignal => exact argsSizing_readsWithin.bind fun ⟨_, _⟩ _ => readsWithin_ok fun _ _ _ => rfl
  | frameSizing =>
    exact argsSizing_readsWithin.bind fun ⟨_, _⟩ _ => readsWithin_ok fun _ _ hs => by rw [sizingResult_congr hs]
  | encodeFrame =>
    refine argsEncodeFrame_readsWithin.bind fun ⟨p, n⟩ ha => ?_
    obtain ⟨-, ⟨hlen, -⟩, -⟩ := argsEncodeFrame_eq_ok.mp ha
    exact (engineBytes_readsWithin hlen.ge).bind fun _ _ =>
      readsWithin_ok fun _ _ hs => by rw [sizingResult_congr hs, hs]
  | buildDataField =>
    refine argsBuildDataField_readsWithin.bind fun ⟨p, n⟩ ha => ?_
    obtain ⟨-, ⟨hlen, -⟩, -⟩ := argsBuildDataField_eq_ok.mp ha
    exact (engineBytes_readsWithin hlen.ge).bind fun _ _ =>
      readsWithin_ok fun _ _ hs => by rw [sizingResult_congr hs, hs]
  | scramble =>
    refine argsScramble_readsWithin.bind fun n ha => ?_
    obtain ⟨rfl, -⟩ := argsScramble_eq_ok.mp ha
    exact engineBits_readsWithin.bind fun _ _ => readsWithin_ok fun _ _ hs => by rw [hs]
  | convEncode =>
    refine argsConvEncode_readsWithin.bind fun n ha => ?_
    obtain ⟨rfl, -⟩ := argsConvEncode_eq_ok.mp ha
    exact engineBits_readsWithin.bind fun _ _ => readsWithin_ok fun _ _ _ => rfl
  | puncture =>
    refine argsPuncture_readsWithin.bind fun ⟨p, n⟩ ha => ?_
    obtain ⟨-, rfl, -⟩ := argsPuncture_eq_ok.mp ha
    exact engineBits_readsWithin.bind fun _ _ => readsWithin_ok fun _ _ _ => rfl
  | interleave | deinterleave =>
    refine argsInterleave_readsWithin.bind fun ⟨p, n⟩ ha => ?_
    obtain ⟨-, rfl, -⟩ := argsInterleave_eq_ok.mp ha
    exact engineBits_readsWithin.bind fun _ _ => readsWithin_ok fun _ _ _ => rfl
  | mapSymbol =>
    refine argsSymbol_readsWithin.bind fun p ha => ?_
    rw [(inputRange_symbol ha).1]
    exact engineBits_readsWithin.bind fun _ _ => readsWithin_ok fun _ _ _ => rfl
  | modulateSymbol =>
    refine argsSymbol_readsWithin.bind fun p ha => ?_
    rw [(inputRange_symbol ha).2]
    exact engineBits_readsWithin.bind fun _ _ => readsWithin_ok fun _ _ hs => by rw [hs]
  | detectShort | detectLong =>
    exact (scanBuffer_readsWithin _).bind fun _ _ => readsWithin_ok fun _ _ hs => by rw [hs]

/-- Settles O8: a fault of a command is a fault of its reads, and the completion refuses nothing. -/
theorem commandsFaultOnlyOnUnwrittenInput : Obligations.CommandsFaultOnlyOnUnwrittenInput := by
  refine ⟨fun i s f h => ?_, fun i s r => ?_⟩
  · rw [exec_eq_finish] at h
    exact (effectsOf_readsWithin i s).fault f (finish_fault_iff.mp h)
  · rw [exec_eq_finish]
    exact finish_not_refused s _ r

/-! ### Every command writes its output range only (20_memory.md R89, R90) -/

/-- The byte a command's outputs put at an index of a memory. -/
def outputByte (e : Effects) : MemSpace → Nat → Option Byte
  | .inMem, _ => none
  | .bitMem, k => e.bits.bind fun w => (packBits w)[k]?
  | .smpMem, k => e.samples.bind fun w => (w.flatMap sampleBytes)[k]?

theorem read_writeBlock_zero (m : Memory) (bs : List Byte) (k : Nat) :
    (m.writeBlock 0 bs).read k = bs[k]?.or (m.read k) := by
  rw [read_writeBlock]
  split
  · next h => rw [Nat.sub_zero, List.getElem?_eq_getElem (by omega), Option.some_or]
  · next h => rw [List.getElem?_eq_none (by omega), Option.none_or]

/-- After a successful command a byte reads as the command's output, and where there is none as before. -/
theorem read_succeedWith (s : State) (e : Effects) (sp : MemSpace) (k : Nat) :
    ((s.succeedWith e).mem sp).read k = (outputByte e sp k).or ((s.mem sp).read k) := by
  cases sp with
  | inMem => rfl
  | bitMem =>
    show (bitMemAfter s.bitMem e.bits).read k = (e.bits.bind fun w => (packBits w)[k]?).or _
    cases e.bits with
    | none => rfl
    | some w => exact read_writeBlock_zero _ _ _
  | smpMem =>
    show (smpMemAfter s.smpMem e.samples).read k = (e.samples.bind fun w => (w.flatMap sampleBytes)[k]?).or _
    cases e.samples with
    | none => rfl
    | some w => exact read_writeBlock_zero _ _ _

/-- If the computation succeeds, its outputs include bits or samples. -/
def WritesMemory (r : Except Stop Effects) : Prop := ∀ e, r = .ok e → e.bits = none → e.samples ≠ none

theorem writesMemory_bits {e : Effects} {w : List Bool} (h : e.bits = some w) : WritesMemory (.ok e) := by
  rintro _ ⟨⟩ hnone
  rw [h] at hnone
  cases hnone

theorem writesMemory_samples {e : Effects} {w : List C64} (h : e.samples = some w) : WritesMemory (.ok e) := by
  rintro _ ⟨⟩ - hnone
  rw [h] at hnone
  cases hnone

theorem WritesMemory.bind {α : Type} {x : Except Stop α} {f : α → Except Stop Effects} (hf : ∀ a, WritesMemory (f a)) :
    WritesMemory (x >>= f) := by
  intro e h
  obtain ⟨a, -, h⟩ := bind_eq_ok.mp h
  exact hf a e h

/-- A command with an output range writes memory. -/
theorem effectsOf_writesMemory {i : Instr} {s : State} {x : Extent} (h : s.outputRange i = some x) :
    WritesMemory (effectsOf i s) := by
  cases i with
  | nop | frameSizing | detectShort | detectLong => cases h
  | genPreamble => exact writesMemory_samples rfl
  | genSignal => exact .bind fun _ => writesMemory_samples rfl
  | encodeFrame | mapSymbol | modulateSymbol => exact .bind fun _ => .bind fun _ => writesMemory_samples rfl
  | scramble | buildDataField | convEncode | puncture | interleave | deinterleave =>
    exact .bind fun _ => .bind fun _ => writesMemory_bits rfl

theorem inExtent_outBits (w : List Bool) (sp : MemSpace) (k : Nat) :
    inExtent (some (.outBits w.length)) sp k = true ↔ .bitMem = sp ∧ (packBits w)[k]?.isSome = true := by
  rw [inExtent_eq_true, isSome_getElem?, packBits_length]
  rfl

theorem inExtent_samples (w : List C64) (sp : MemSpace) (k : Nat) :
    inExtent (some (.samples w.length)) sp k = true ↔ .smpMem = sp ∧ (w.flatMap sampleBytes)[k]?.isSome = true := by
  rw [inExtent_eq_true, isSome_getElem?, flatMap_sampleBytes_length]
  rfl

/-- The bytes a successful command writes are exactly those of its output range. -/
theorem outputByte_isSome_iff {i : Instr} {s : State} {e : Effects} (h : effectsOf i s = .ok e) (sp : MemSpace) (k : Nat) :
    (outputByte e sp k).isSome = true ↔ inExtent (s.outputRange i) sp k = true := by
  have ho := effectsOf_outputs h
  cases hb : e.bits with
  | some w =>
    have hs : e.samples = none := by
      cases hs : e.samples with
      | none => rfl
      | some v => have := (ho.bits w hb).symm.trans (ho.samples v hs); cases this
    rw [ho.bits w hb, inExtent_outBits]
    cases sp <;> simp [outputByte, hb, hs]
  | none =>
    cases hs : e.samples with
    | some v =>
      rw [ho.samples v hs, inExtent_samples]
      cases sp <;> simp [outputByte, hb, hs]
    | none =>
      have hr : s.outputRange i = none := by
        cases hr : s.outputRange i with
        | none => rfl
        | some x => exact absurd hs (effectsOf_writesMemory hr e h hb)
      rw [hr]
      cases sp <;> simp [outputByte, hb, hs, inExtent]

theorem failWith_mem (s : State) (c : ErrorCode) (sp : MemSpace) : (s.failWith c).mem sp = s.mem sp := by cases sp <;> rfl

/-- Settles O52: outside the output range a successful command puts no byte, and an error completion none at all. -/
theorem commandsWriteOnlyTheirOutputRange : Obligations.CommandsWriteOnlyTheirOutputRange := by
  intro i s t sp k h hout
  rw [exec_eq_finish] at h
  rcases finish_next_iff.mp h with ⟨e, he, rfl⟩ | ⟨c, -, rfl⟩
  · have hnone : outputByte e sp k = none := by
      rw [← Option.not_isSome_iff_eq_none, outputByte_isSome_iff he, hout]
      exact Bool.false_ne_true
    rw [read_succeedWith, hnone, Option.none_or]
  · rw [failWith_mem]

/-! ### An error completion has no output range (20_memory.md R89) -/

/-- The computation does not end in an error of 60_exceptions.md R360. -/
def RaisesNoError {α : Type} (r : Except Stop α) : Prop := ∀ c, r ≠ .error (.error c)

theorem raisesNoError_ok {α : Type} (a : α) : RaisesNoError (.ok a : Except Stop α) := nofun

theorem RaisesNoError.bind {α β : Type} {x : Except Stop α} {f : α → Except Stop β} (hx : RaisesNoError x)
    (hf : ∀ a, RaisesNoError (f a)) : RaisesNoError (x >>= f) := by
  intro c h
  rcases bind_eq_error.mp h with h | ⟨a, -, h⟩
  · exact hx c h
  · exact hf a c h

theorem engineBytes_raisesNoError (s : State) (sp : MemSpace) (a n : Nat) : RaisesNoError (s.engineBytes sp a n) := by
  intro c h
  obtain ⟨k, -, -, -, h⟩ := engineBytes_eq_error h
  cases h

theorem engineBits_raisesNoError (s : State) (a n : Nat) : RaisesNoError (s.engineBits a n) := by
  intro c h
  obtain ⟨k, -, -, -, h⟩ := engineBits_eq_error h
  cases h

/-- An error that the rest of the command does not raise comes from its checks, which then give no extent. -/
theorem extentOf_of_error {α β : Type} {x : Except Stop α} {f : α → Except Stop β} {g : α → Extent} {c : ErrorCode}
    (h : (x >>= f) = .error (.error c)) (hf : ∀ a, RaisesNoError (f a)) : extentOf x g = none := by
  rcases bind_eq_error.mp h with rfl | ⟨a, -, h⟩
  · rfl
  · exact absurd h (hf a c)

theorem outputRange_of_error {i : Instr} {s : State} {c : ErrorCode} (h : effectsOf i s = .error (.error c)) :
    s.outputRange i = none := by
  have hbits := engineBits_raisesNoError s 0
  have hbytes := engineBytes_raisesNoError s .inMem 0
  cases i with
  | nop | frameSizing | detectShort | detectLong => rfl
  | genPreamble => cases h
  | genSignal => exact extentOf_of_error h fun _ => raisesNoError_ok _
  | encodeFrame | buildDataField => exact extentOf_of_error h fun _ => (hbytes _).bind fun _ => raisesNoError_ok _
  | scramble | convEncode | puncture | interleave | deinterleave | mapSymbol | modulateSymbol =>
    exact extentOf_of_error h fun _ => (hbits _).bind fun _ => raisesNoError_ok _

/-- Settles O60: in both states the rule computes the same, so the same completion puts the same bytes in the output range. -/
theorem commandsReadOnlyTheirInputRange : Obligations.CommandsReadOnlyTheirInputRange := by
  intro i s s' t hparams hsnap hmem h
  have hsame := (effectsOf_readsWithin i s).agree s' ⟨hparams, hsnap, hmem⟩
  rw [exec_eq_finish] at h ⊢
  rw [hsame]
  rcases finish_next_iff.mp h with ⟨e, he, rfl⟩ | ⟨c, hc, rfl⟩
  · refine ⟨s'.succeedWith e, by rw [he]; rfl, rfl, rfl, rfl, fun hr => ?_, fun sp k hout => ?_⟩
    · rw [succeedWith_results, succeedWith_results, hr]
    · rw [← outputByte_isSome_iff he] at hout
      obtain ⟨b, hb⟩ := Option.isSome_iff_exists.mp hout
      rw [read_succeedWith, read_succeedWith, hb, Option.some_or, Option.some_or]
  · refine ⟨s'.failWith c, by rw [hc]; rfl, rfl, rfl, rfl, id, fun sp k hout => ?_⟩
    rw [outputRange_of_error hc] at hout
    cases hout

/-! ### Acceptance (60_exceptions.md R370) -/

/-- The completion of what a rule computed does not use the configuration CSRs. -/
theorem finish_regs {s t : State} {x : Except Stop Effects} (h : s.finish x = .next t) (r : ConfigRegs) :
    State.finish { s with regs := r } x = .next { t with regs := r } := by
  rcases finish_next_iff.mp h with ⟨e, rfl, rfl⟩ | ⟨c, rfl, rfl⟩ <;> rfl

/-- Settles O5: the CMD write is the acceptance, and a command's rule reads the snapshot and not the CSRs. -/
theorem acceptanceLatchesCommandAndSnapshot : Obligations.AcceptanceLatchesCommandAndSnapshot := by
  refine ⟨fun s j w rest hj hturn hidle => ⟨Config.completionDelay s.draws, ?_⟩, fun i s t r h => ?_⟩
  · rw [step_csrWrite_at (c := .cmd) hj hturn]
    simp only [State.csrWrite, show (Issued s rest).phase = .idle from hidle]
    rfl
  · have hsame := (effectsOf_readsWithin i s).agree { s with regs := r } ⟨rfl, rfl, fun sp k _ => by cases sp <;> rfl⟩
    rw [exec_eq_finish] at h ⊢
    rw [hsame]
    exact finish_regs h r

end Sys2Proof.Scope
end

section
/-! PROOFS. What each command leaves when its inputs are held: the completion, the memory written and the result CSRs (files 41 to 47 of
the spec, 20_memory.md R90, 60_exceptions.md R372). -/

namespace Sys2Proof.Scope

open Sys2Proof.Machine Sys2Proof.Safety Sys2Proof.Laws

/-! ### A successful completion (60_exceptions.md R372) -/

theorem exec_of_effects {i : Instr} {s : State} {e : Effects} (h : effectsOf i s = .ok e) :
    exec i s = .next (s.succeedWith e) := by
  rw [exec_eq_finish, h]
  rfl

theorem completed_succeedWith (s : State) (e : Effects) : Completed s (s.succeedWith e) e.found :=
  ⟨rfl, rfl, rfl, rfl, rfl, rfl, rfl, rfl, rfl, rfl, rfl, rfl, rfl, rfl, rfl⟩

/-- The bits of the outputs, packed, are what BIT_MEM holds (20_memory.md R90). -/
theorem bitsWritten_succeedWith {s : State} {e : Effects} {w : List Bool} (hb : e.bits = some w) (hs : e.samples = none) :
    BitsWritten s (s.succeedWith e) w := by
  have hbit : (s.succeedWith e).bitMem = s.bitMem.writeBlock 0 (packBits w) := by rw [succeedWith_bitMem, hb]; rfl
  refine ⟨fun i hi => ?_, fun i hi hlast => ?_, fun k hk => ?_, ?_⟩
  · rw [hbit, bit?_writeBits_inside _ w i hi]
  · rw [hbit, bit?_writeBits_unused _ w i hi hlast]
  · rw [hbit, read_writeBlock_outside (.inr (by rwa [packBits_length, Nat.zero_add]))]
  · rw [succeedWith_smpMem, hs]
    rfl

/-- The samples of the outputs, as bytes, are what SMP_MEM holds (20_memory.md R83, R90). -/
theorem samplesWritten_succeedWith {s : State} {e : Effects} {w : List C64} (hs : e.samples = some w) (hb : e.bits = none) :
    SamplesWritten s (s.succeedWith e) w := by
  have hsmp : (s.succeedWith e).smpMem = s.smpMem.writeBlock 0 (w.flatMap sampleBytes) := by
    rw [succeedWith_smpMem, hs]; rfl
  refine ⟨fun i hi => ?_, fun k hk => ?_, ?_⟩
  · rw [hsmp, sample?_writeSamples _ w i hi]
  · rw [hsmp, read_writeBlock_outside (.inr (by rwa [flatMap_sampleBytes_length, Nat.zero_add]))]
  · rw [succeedWith_bitMem, hb]
    rfl

/-! ### The result CSRs (10_state.md R40 to R45) -/

/-- OUT_LEN holds every count below its width. -/
theorem apply_outLen {r : ResultRegs} {e : Effects} {n : Nat} (h : e.outLen = some n) (hn : n < 2 ^ 32) :
    (r.apply e).outLen.toNat = n := by
  simp only [ResultRegs.apply, h, BitVec.toNat_ofNat, Nat.mod_eq_of_lt hn]

theorem apply_detIndex {r : ResultRegs} {e : Effects} (h : e.detection = none) : (r.apply e).detIndex = r.detIndex := by
  simp only [ResultRegs.apply, h]

/-- Outputs with a count alone leave the other result CSRs. -/
theorem onlyOutLen_succeedWith {s : State} {e : Effects} {n : Nat} (ho : e.outLen = some n) (hz : e.sizing = none)
    (hd : e.detection = none) (hn : n < 2 ^ 32) : OnlyOutLen s (s.succeedWith e) n := by
  refine ⟨?_, apply_outLen ho hn⟩
  simp only [succeedWith_results, ResultRegs.apply, ho, hz, hd]

/-- The sizing values of a PSDU length that PSDU_LEN can hold (40_rate_sizing.md R144). -/
theorem sizing_bounds {r : Nat} {p : RateProfile} (h : rateRow r = some p) {len : Nat} (hlen : len < 2 ^ 16) :
    (sizing p len).nSym < 2 ^ 15 ∧ (sizing p len).nPad < 2 ^ 8 ∧ (sizing p len).nData < 2 ^ 20 := by
  obtain ⟨hlow, hhigh⟩ := nDbps_bounds h
  obtain ⟨hdata, hpad⟩ := sizing_nData h len
  have hsym : (sizing p len).nSym * 24 ≤ (sizing p len).nData := Nat.mul_le_mul_left _ hlow
  omega

/-- The sizing CSRs hold the values of every PSDU length (10_state.md R40 to R42, R44). -/
theorem sizingWritten_succeedWith {r : Nat} {p : RateProfile} (hrow : rateRow r = some p) {s : State} {e : Effects} {len : Nat}
    (hlen : len < 2 ^ 16) (h : e.sizing = some (s.sizingResult p len)) :
    SizingWritten (s.succeedWith e) (sizing p len) (txTime (sizing p len).nSym s.snap.bw) := by
  obtain ⟨hsym, hpad, hdata⟩ := sizing_bounds hrow hlen
  have htx : txTime (sizing p len).nSym s.snap.bw < 2 ^ 24 := by
    simp only [txTime, tSym]
    split <;> omega
  constructor <;>
    simp only [succeedWith_results, ResultRegs.apply, h, State.sizingResult, BitVec.toNat_ofNat] <;>
    exact Nat.mod_eq_of_lt (by omega)

/-! ### Commands that write bits, and commands that write samples -/

/-- A command whose outputs are bits and their number. -/
theorem completes_ofBits {i : Instr} {s : State} {w : List Bool} {n : Nat} (h : effectsOf i s = .ok (Effects.ofBits w))
    (hlen : w.length = n) (hn : n < 2 ^ 32) :
    ∃ t, exec i s = .next t ∧ Completed s t false ∧ BitsWritten s t w ∧ OnlyOutLen s t n :=
  ⟨_, exec_of_effects h, completed_succeedWith s _, bitsWritten_succeedWith rfl rfl,
    onlyOutLen_succeedWith (congrArg some hlen) rfl rfl hn⟩

/-- A command whose outputs are samples and their number. -/
theorem completes_ofSamples {i : Instr} {s : State} {w : List C64} {n : Nat} (h : effectsOf i s = .ok (Effects.ofSamples w))
    (hlen : w.length = n) (hn : n < 2 ^ 32) :
    ∃ t, exec i s = .next t ∧ Completed s t false ∧ SamplesWritten s t w ∧ OnlyOutLen s t n :=
  ⟨_, exec_of_effects h, completed_succeedWith s _, samplesWritten_succeedWith rfl rfl,
    onlyOutLen_succeedWith (congrArg some hlen) rfl rfl hn⟩

theorem engineBits_of_holds {s : State} {v : List Bool} (h : HoldsBits s.inMem v) : s.engineBits 0 v.length = .ok v :=
  engineBits_eq_ok.mpr ⟨rfl, fun k hk => by rw [Nat.zero_add]; exact h k hk⟩

theorem engineBytes_of_holds {s : State} {bs : List Byte} (h : HoldsBytes s.inMem bs) :
    s.engineBytes .inMem 0 bs.length = .ok bs :=
  engineBytes_eq_ok.mpr ⟨rfl, fun k hk => by rw [Nat.zero_add]; exact h k hk⟩

theorem stageLen_lt {s : State} {n : Nat} (h : s.snap.stageLen.toNat = n) : n < 2 ^ 24 := h ▸ s.snap.stageLen.isLt

theorem psduLen_lt {s : State} {n : Nat} (h : s.snap.psduLen.toNat = n) : n < 2 ^ 16 := h ▸ s.snap.psduLen.isLt

/-! ### The stage commands on bits (41_scrambler.md to 43_interleaver.md) -/

/-- Settles O14: as many bits come out of the scrambler as go in. -/
theorem scrambleWritesScrambledBits : Obligations.ScrambleWritesScrambledBits := by
  intro s v hstage hin hbit hheld
  have heffects : effectsOf .scramble s = .ok (Effects.ofBits (scramble s.snap.seed v)) :=
    runScramble_eq_ok.mpr ⟨v.length, argsScramble_eq_ok.mpr ⟨hstage, hin, hbit⟩, v, engineBits_of_holds hheld, rfl⟩
  have hlt := stageLen_lt hstage
  exact completes_ofBits heffects (scramble_length _ v) (by omega)

/-- Settles O16: two coded bits for every input bit. -/
theorem convEncodeWritesCodedBits : Obligations.ConvEncodeWritesCodedBits := by
  intro s v hstage hin hbit hheld
  have heffects : effectsOf .convEncode s = .ok (Effects.ofBits (convEncode v)) :=
    runConvEncode_eq_ok.mpr ⟨v.length, argsConvEncode_eq_ok.mpr ⟨hstage, hin, hbit⟩, v, engineBits_of_holds hheld, rfl⟩
  have hlt := stageLen_lt hstage
  exact completes_ofBits heffects (convEncode_length v) (by omega)

/-- Whole numbers of periods, rate by rate (42_encoder_puncturer.md R199). -/
theorem mod_period_eq_zero {r : CodingRate} {n : Nat} (h4 : r = .twoThirds → n % 4 = 0) (h6 : r = .threeQuarters → n % 6 = 0) :
    n % r.period = 0 := by
  cases r with
  | half => exact Nat.mod_one n
  | twoThirds => exact h4 rfl
  | threeQuarters => exact h6 rfl

/-- Settles O17: no more bits are kept than go in. -/
theorem punctureWritesKeptBits : Obligations.PunctureWritesKeptBits := by
  intro s p v hp hstage hin h4 h6 hheld
  have hargs : s.argsPuncture = .ok (p, v.length) := argsPuncture_eq_ok.mpr ⟨hp, hstage, hin, mod_period_eq_zero h4 h6⟩
  have heffects : effectsOf .puncture s = .ok (Effects.ofBits (puncture p.codingRate v)) :=
    runPuncture_eq_ok.mpr ⟨p, v.length, hargs, v, engineBits_of_holds hheld, rfl⟩
  have hlt := stageLen_lt hstage
  have hkept := puncturedLen_le p.codingRate v.length
  exact completes_ofBits heffects rfl (by rw [puncture_length]; omega)

/-- Settles O18: on whole blocks both permutations keep the number of bits. -/
theorem interleaverCommandsWritePermutedBits : Obligations.InterleaverCommandsWritePermutedBits := by
  intro s p v hp hstage hin hblocks hheld
  have hargs : s.argsInterleave = .ok (p, v.length) := argsInterleave_eq_ok.mpr ⟨hp, hstage, hin, hblocks⟩
  have hread := engineBits_of_holds hheld
  have hlt := stageLen_lt hstage
  constructor
  · have heffects : effectsOf .interleave s = .ok (Effects.ofBits (interleave p.nCbps p.nBpsc v)) :=
      runInterleave_eq_ok.mpr ⟨p, v.length, hargs, v, hread, rfl⟩
    exact completes_ofBits heffects (interleave_length hblocks) (by omega)
  · have heffects : effectsOf .deinterleave s = .ok (Effects.ofBits (deinterleave p.nCbps p.nBpsc v)) :=
      runDeinterleave_eq_ok.mpr ⟨p, v.length, hargs, v, hread, rfl⟩
    exact completes_ofBits heffects (deinterleave_length hblocks) (by omega)

/-- Settles O15: the data field has n_data bits, and every value of the sizing fits its CSR. -/
theorem buildDataFieldWritesTheDataField : Obligations.BuildDataFieldWritesTheDataField := by
  intro s p psdu hp hlen hmax hroom hheld
  obtain ⟨r, hrow⟩ := profile_row hp
  have hlt := psduLen_lt hlen
  obtain ⟨-, -, hdata⟩ := sizing_bounds hrow hlt
  have hargs : s.argsBuildDataField = .ok (p, psdu.length) := argsBuildDataField_eq_ok.mpr ⟨hp, ⟨hlen, hmax⟩, hroom⟩
  have heffects : effectsOf .buildDataField s =
      .ok { Effects.ofBits (dataField p s.snap.seed s.snap.psduMsbFirst psdu) with
            sizing := some (s.sizingResult p psdu.length) } :=
    runBuildDataField_eq_ok.mpr ⟨p, psdu.length, hargs, psdu, engineBytes_of_holds hheld, rfl⟩
  refine ⟨_, exec_of_effects heffects, completed_succeedWith s _, bitsWritten_succeedWith rfl rfl,
    sizingWritten_succeedWith hrow hlt rfl, ?_, apply_detIndex rfl⟩
  exact apply_outLen (congrArg some (dataField_length hrow _ _ psdu)) (by omega)

/-! ### The commands on samples (44_mapper.md to 47_frame.md) -/

/-- Settles O19: a mapped block has 48 values and a symbol 81 samples. -/
theorem symbolCommandsWriteTheirSamples : Obligations.SymbolCommandsWriteTheirSamples := by
  intro s p v hp hstage hlen hheld
  have hargs : s.argsSymbol = .ok p := argsSymbol_eq_ok.mpr ⟨hp, hstage⟩
  have hread : s.engineBits 0 p.nCbps = .ok v := hlen ▸ engineBits_of_holds hheld
  constructor
  · have heffects : effectsOf .mapSymbol s = .ok (Effects.ofSamples (mapBlock hw p v)) :=
      runMapSymbol_eq_ok.mpr ⟨p, hargs, v, hread, rfl⟩
    exact completes_ofSamples heffects (mapBlock_length hw p v) (by decide)
  · have heffects : effectsOf .modulateSymbol s =
        .ok (Effects.ofSamples (ofdmSymbol hw (mapBlock hw p v) s.snap.symIndex.toNat)) :=
      runModulateSymbol_eq_ok.mpr ⟨p, hargs, v, hread, rfl⟩
    exact completes_ofSamples heffects (ofdmSymbol_length hw _ _) (by decide)

/-- Settles O20: the rule reads nothing, and gives two training sequences of 161 samples. -/
theorem genPreambleWritesBothTrainings : Obligations.GenPreambleWritesBothTrainings := by
  intro s
  have heffects : effectsOf .genPreamble s = .ok (Effects.ofSamples (shortTraining hw ++ longTraining hw)) := rfl
  exact completes_ofSamples heffects (by rw [List.length_append, shortTraining_length, longTraining_length]) (by decide)

/-- The SIGNAL symbol the commands make is the one R302 composes. -/
theorem signalSymbol_eq_waveform (p : RateProfile) (len : Nat) : signalSymbol hw p len = signalWaveform p len := by
  rw [signalSymbol, mapBlock_signal hw (signalCoded_length p len)]
  rfl

/-- Settles O21: the 48 coded bits of the SIGNAL field fill one symbol. -/
theorem genSignalWritesTheSignalSymbol : Obligations.GenSignalWritesTheSignalSymbol := by
  intro s p hp hmax
  have heffects : effectsOf .genSignal s = .ok (Effects.ofSamples (signalSymbol hw p s.snap.psduLen.toNat)) :=
    runGenSignal_eq_ok.mpr ⟨p, _, argsSizing_eq_ok.mpr ⟨hp, rfl, hmax⟩, rfl⟩
  rw [← signalSymbol_eq_waveform]
  exact completes_ofSamples heffects (signalSymbol_length hw p _) (by decide)

/-- The data symbols of an encoded frame (47_frame.md R324, R325). -/
def frameSymbols (p : RateProfile) (seed : BitVec 7) (msbFirst : Bool) (psdu : List Byte) : List (List C64) :=
  dataSymbols hw p 0 (blocks p.nCbps (sizing p psdu.length).nSym (encodeBits p seed msbFirst psdu))

theorem frameSymbols_length (p : RateProfile) (seed : BitVec 7) (msbFirst : Bool) (psdu : List Byte) :
    (frameSymbols p seed msbFirst psdu).length = (sizing p psdu.length).nSym := by
  rw [frameSymbols, dataSymbols_length, blocks_length]

/-- Data symbol m carries block m of the interleaved bits, with index m + 1 (R324). -/
theorem frameSymbols_getElem? (p : RateProfile) (seed : BitVec 7) (msbFirst : Bool) (psdu : List Byte) {m : Nat}
    (hm : m < (sizing p psdu.length).nSym) :
    (frameSymbols p seed msbFirst psdu)[m]? = some (ofdmSymbol hw
      (mapBlock hw p (((encodeBits p seed msbFirst psdu).drop (m * p.nCbps)).take p.nCbps)) (m + 1)) := by
  rw [frameSymbols, dataSymbols_getElem?, blocks_getElem? _ _ _ hm, Option.map_some, Nat.zero_add]

theorem encodeFrame_eq_assembleFrame (p : RateProfile) (seed : BitVec 7) (msbFirst : Bool) (psdu : List Byte) :
    encodeFrame hw p seed msbFirst psdu =
      assembleFrame hw (signalWaveform p psdu.length) (frameSymbols p seed msbFirst psdu) := by
  rw [← signalSymbol_eq_waveform]
  rfl

/-- The outputs of ENCODE_FRAME on a PSDU (R326). -/
def frameEffects (s : State) (p : RateProfile) (psdu : List Byte) : Effects :=
  { Effects.nothing with
    samples := some (encodeFrame hw p s.snap.seed s.snap.psduMsbFirst psdu)
    sizing := some (s.sizingResult p psdu.length)
    outLen := some (frameLen (sizing p psdu.length).nSym) }

/-- Settles O22: the frame is assembled from the SIGNAL symbol and one symbol for each block of the coded data field. -/
theorem encodeFrameWritesTheFrame : Obligations.EncodeFrameWritesTheFrame := by
  intro s p psdu hp hlen hmax hroom hheld
  obtain ⟨r, hrow⟩ := profile_row hp
  have hlt := psduLen_lt hlen
  obtain ⟨hsym, -, -⟩ := sizing_bounds hrow hlt
  have hargs : s.argsEncodeFrame = .ok (p, psdu.length) := argsEncodeFrame_eq_ok.mpr ⟨hp, ⟨hlen, hmax⟩, hroom⟩
  have heffects : effectsOf .encodeFrame s = .ok (frameEffects s p psdu) :=
    runEncodeFrame_eq_ok.mpr ⟨p, psdu.length, hargs, psdu, engineBytes_of_holds hheld, rfl⟩
  have hframe := encodeFrame_eq_assembleFrame p s.snap.seed s.snap.psduMsbFirst psdu
  have hcount := frameSymbols_length p s.snap.seed s.snap.psduMsbFirst psdu
  have hsizing := sizingWritten_succeedWith (e := frameEffects s p psdu) hrow hlt rfl
  have hout : (s.results.apply (frameEffects s p psdu)).outLen.toNat = frameLen (sizing p psdu.length).nSym :=
    apply_outLen rfl (by unfold frameLen; omega)
  refine ⟨_, frameSymbols p s.snap.seed s.snap.psduMsbFirst psdu, exec_of_effects heffects, completed_succeedWith s _,
    samplesWritten_succeedWith (congrArg some hframe) rfl, hcount, ?_, fun m hm => ?_, hsizing, ?_, ?_, apply_detIndex rfl⟩
  · rw [hcount]
    exact encodeBits_length hrow _ _ psdu
  · exact frameSymbols_getElem? p _ _ psdu (hcount ▸ hm)
  · rw [hsizing.nSym]
    exact hout
  · rw [← hframe, encodeFrame_length]
    exact hout.symm

end Sys2Proof.Scope
end

section
/-! PROOFS. The host's accesses to the memory windows: implemented units are stored and read little-endian, the hazard of a write while
BUSY, and the addresses that do nothing (20_memory.md R85 to R88, 70_reset_and_hazards.md R391, R404, R405). -/

namespace Sys2Proof.Scope

open Sys2Proof.Machine Sys2Proof.Safety Sys2Proof.Laws

/-! ### A host write to a memory window (20_memory.md R85, R86) -/

/-- The bytes a write stores in the unit at `u`. -/
def unitBytes (sp : MemSpace) (u n : Nat) (w : Word) : List (MemSpace × Nat × Byte) :=
  (List.range n).map fun j => (sp, u + j, wordByte w j)

/-- A host write to an implemented unit is a store of the unit's bytes. -/
theorem step_memWrite {s : State} {sp : MemSpace} {k : Nat} {width : Width} {w : Word} {rest : List HostOp}
    (hp : s.params.wellFormed = true) (hunit : k - k % width.bytes + width.bytes ≤ memBytes s.params sp)
    (h : HostTurn s (.write (s.params.base + windowOffset sp + k) width w) rest) :
    step s = (Issued s rest).writeMem (unitBytes sp (k - k % width.bytes) width.bytes w) := by
  obtain ⟨halign, hcsr⟩ := alignDown_window sp k width
  rw [step_host h]
  simp only [State.hostStep, State.hostWrite, Nat.add_assoc, offsetOf_base]
  rw [if_neg hcsr, halign, storedBytes_window hp hunit]
  rfl

/-- What the store of a unit leaves, the operation taken off the queue: the unit's bytes in order, and everything else as it was. -/
theorem storeBytes_unitBytes (s : State) (rest : List HostOp) (sp : MemSpace) (u n : Nat) (w : Word) :
    let t := (Issued s rest).storeBytes (unitBytes sp u n w)
    (∀ j, j < n → (t.mem sp).read (u + j) = some (BitVec.ofNat 8 (w.toNat / 256 ^ j))) ∧
    (∀ a, a < u ∨ u + n ≤ a → (t.mem sp).read a = (s.mem sp).read a) ∧
    (∀ sp', sp' ≠ sp → t.mem sp' = s.mem sp') ∧
    { t with inMem := s.inMem, bitMem := s.bitMem, smpMem := s.smpMem } = Issued s rest := by
  have hissued : ∀ sp', (Issued s rest).mem sp' = s.mem sp' := fun sp' => by cases sp' <;> rfl
  have hunit : ∀ x ∈ unitBytes sp u n w, x.1 = sp ∧ u ≤ x.2.1 ∧ x.2.1 < u + n := by
    intro x hx
    obtain ⟨j, hj, rfl⟩ := List.mem_map.mp hx
    rw [List.mem_range] at hj
    exact ⟨rfl, by dsimp only; omega, by dsimp only; omega⟩
  refine ⟨fun j hj => ?_, fun a ha => ?_, fun sp' hne => ?_, storeBytes_rest _ (Issued s rest)⟩
  · rw [← wordByte_eq]
    exact read_storeBytes_unit sp u n (wordByte w) (Issued s rest) hj
  · rw [← hissued]
    refine read_storeBytes fun x hx => ?_
    have := hunit x hx
    omega
  · rw [← hissued]
    exact mem_storeBytes_ne hne fun x hx => (hunit x hx).1

/-- Settles O49: while IDLE no store is a hazard. -/
theorem hostMemoryWritesAreLittleEndianUnits : Obligations.HostMemoryWritesAreLittleEndianUnits := by
  intro s sp k width w rest hp hidle hunit hturn
  have hissued : (Issued s rest).phase = .idle := hidle
  exact ⟨_, (step_memWrite hp hunit hturn).trans (writeMem_of_idle hissued _), storeBytes_unitBytes s rest sp _ _ w⟩

/-! ### The hazard (70_reset_and_hazards.md R404) -/

/-- While BUSY with a legal word, the running ranges are those of its command. -/
theorem inRunningRange_of_busy {s : State} {i : Instr} (hb : s.phase = .busy) (hi : decode s.params.hasDetector s.cmd = .ok i)
    (sp : MemSpace) (a : Nat) :
    s.inRunningRange sp a = true ↔ inExtent (s.inputRange i) sp a = true ∨ inExtent (s.outputRange i) sp a = true := by
  have hrun : s.running = some i := by rw [State.running, hb, hi]; rfl
  rw [State.inRunningRange, hrun, Bool.or_eq_true]

/-- A byte is in a running range only of a command in progress. -/
theorem decode_of_inRunningRange {s : State} {sp : MemSpace} {a : Nat} (h : s.inRunningRange sp a = true) :
    ∃ i, decode s.params.hasDetector s.cmd = .ok i := by
  unfold State.inRunningRange State.running at h
  cases hd : decode s.params.hasDetector s.cmd with
  | ok i => exact ⟨i, rfl⟩
  | error e =>
    rw [hd] at h
    cases hp : s.phase <;> (rw [hp] at h; cases h)

/-- A write to a unit faults at its lowest byte in a running range. -/
theorem writeMem_unitBytes_fault {s : State} {sp : MemSpace} {u n j : Nat} (w : Word) (hj : j < n)
    (hin : s.inRunningRange sp (u + j) = true) (hlow : ∀ j', j' < j → s.inRunningRange sp (u + j') = false) :
    s.writeMem (unitBytes sp u n w) = .fault (.busyWriteHazard sp (u + j)) := by
  have hfirst : (List.range n).find? (fun j => s.inRunningRange sp (u + j)) = some j :=
    List.find?_range_eq_some.mpr ⟨hin, List.mem_range.mpr hj, fun j' hj' => by rw [hlow j' hj']; rfl⟩
  have hfind : (unitBytes sp u n w).find? (fun x => s.inRunningRange x.1 x.2.1) = some (sp, u + j, wordByte w j) := by
    rw [unitBytes, List.find?_map]
    exact congrArg (Option.map _) hfirst
  rw [State.writeMem, hfind]

/-- A write to a unit outside the running ranges is its store. -/
theorem writeMem_unitBytes_next {s : State} {sp : MemSpace} {u n : Nat} (w : Word)
    (h : ∀ j, j < n → s.inRunningRange sp (u + j) = false) :
    s.writeMem (unitBytes sp u n w) = .next (s.storeBytes (unitBytes sp u n w)) := by
  have hfind : (unitBytes sp u n w).find? (fun x => s.inRunningRange x.1 x.2.1) = none := by
    rw [unitBytes, List.find?_map, Option.map_eq_none_iff, List.find?_eq_none]
    intro j hj
    simp [h j (List.mem_range.mp hj)]
  rw [State.writeMem, hfind]

/-- Settles O51: the ranges asked are those of the command in progress, which taking the operation off the queue leaves. -/
theorem busyMemoryWriteHazard : Obligations.BusyMemoryWriteHazard := by
  intro s sp k width w rest hp hbusy hunit hturn unit inRange
  have hrange : ∀ a, (Issued s rest).inRunningRange sp a = s.inRunningRange sp a := fun _ => rfl
  rw [step_memWrite hp hunit hturn]
  refine ⟨fun i a hi hlow hhigh hin hfirst => ?_, fun hfree => ?_⟩
  · obtain ⟨j, rfl⟩ := Nat.exists_eq_add_of_le hlow
    refine writeMem_unitBytes_fault w (by omega) ?_ fun j' hj' => ?_
    · rw [hrange, inRunningRange_of_busy hbusy hi]
      exact hin
    · rw [hrange, ← Bool.not_eq_true, inRunningRange_of_busy hbusy hi]
      exact hfirst _ (by omega) (by omega)
  · have hnone : ∀ j, j < width.bytes → (Issued s rest).inRunningRange sp (unit + j) = false := by
      intro j hj
      rw [hrange, ← Bool.not_eq_true]
      intro hin
      obtain ⟨i, hi⟩ := decode_of_inRunningRange hin
      exact hfree i hi (unit + j) (by omega) (by omega) ((inRunningRange_of_busy hbusy hi sp _).mp hin)
    exact ⟨_, writeMem_unitBytes_next w hnone, storeBytes_unitBytes s rest sp unit _ w⟩

/-! ### A host read of a memory window (20_memory.md R85, R86) -/

theorem leValue_lt (bs : List Byte) : leValue bs < 256 ^ bs.length := by
  induction bs with
  | nil => decide
  | cons b bs ih =>
    have hb := b.isLt
    rw [leValue, List.length_cons, Nat.pow_succ]
    omega

/-- Digit j of the value of bytes is byte j. -/
theorem leValue_digit {bs : List Byte} {j : Nat} (hj : j < bs.length) : leValue bs / 256 ^ j % 256 = bs[j].toNat := by
  induction bs generalizing j with
  | nil => simp at hj
  | cons b bs ih =>
    have hb := b.isLt
    cases j with
    | zero => simp only [leValue, pow_zero, Nat.div_one, List.getElem_cons_zero]; omega
    | succ j =>
      have htail : (b.toNat + 256 * leValue bs) / 256 = leValue bs := by omega
      rw [leValue, Nat.pow_succ', ← Nat.div_div_eq_div_mul, htail, List.getElem_cons_succ, ih]

/-- Byte j of the word that at most four bytes make (R86). -/
theorem extractLsb'_leValue {bs : List Byte} {j : Nat} (hbs : bs.length ≤ 4) (hj : j < bs.length) :
    (BitVec.ofNat 32 (leValue bs)).extractLsb' (8 * j) 8 = bs[j] := by
  have hlt : leValue bs < 2 ^ 32 := (leValue_lt bs).trans_le (Nat.pow_le_pow_right (by decide) hbs)
  apply BitVec.eq_of_toNat_eq
  rw [BitVec.extractLsb'_toNat, BitVec.toNat_ofNat, Nat.mod_eq_of_lt hlt, Nat.shiftRight_eq_div_pow, Nat.pow_mul,
    ← leValue_digit hj]

/-- One byte of an implemented memory byte's address is the byte the host may see. -/
theorem hostByte_window {s : State} (hp : s.params.wellFormed = true) {sp : MemSpace} {a : Nat}
    (ha : a < memBytes s.params sp) (free : Byte) :
    s.hostByte (windowOffset sp + a) free =
      if s.inRunningOutput sp a = true then free else ((s.mem sp).read a).getD free := by
  rw [State.hostByte, locate_window hp ha]
  dsimp only
  rw [State.hostMemByte]
  cases (s.mem sp).read a <;> rfl

theorem width_bytes_le (width : Width) : width.bytes ≤ 4 := by cases width <;> decide

/-- Settles O50: byte j of the word is what the window shows at byte j of the unit. -/
theorem hostMemoryReadsReturnContentsOrDraws : Obligations.HostMemoryReadsReturnContentsOrDraws := by
  intro s sp k width hp hunit j hj a
  obtain ⟨halign, -⟩ := alignDown_window sp k width
  simp only [State.readValue, Nat.add_assoc, offsetOf_base, halign]
  rw [extractLsb'_leValue (by simpa using width_bytes_le width) (by simpa using hj), List.getElem_map, List.getElem_range]
  exact hostByte_window hp (by omega) _

/-! ### Unimplemented addresses (20_memory.md R88) -/

/-- The offset lies outside every window, past a memory's implemented size, or at 0x800000 or above (R88). -/
def Unimplemented (p : Params) (off : Nat) (width : Width) : Prop :=
  (0x100 ≤ off ∧ off < 0x100000) ∨ (0x300000 ≤ off ∧ off < 0x400000) ∨ 0x800000 ≤ off ∨
    ∃ sp k, off = windowOffset sp + k ∧ off < windowEnd sp ∧ memBytes p sp ≤ k - k % width.bytes

/-- An aligned unit does not reach below a boundary that is aligned to the widest access. -/
theorem le_alignDown {b off : Nat} (width : Width) (hb : b % 4 = 0) (h : b ≤ off) : b ≤ alignDown off width.bytes := by
  cases width <;> simp only [alignDown, Width.bytes] <;> omega

/-- An aligned unit does not reach past such a boundary either. -/
theorem alignDown_add_lt {b off j : Nat} {width : Width} (hb : b % 4 = 0) (h : off < b) (hj : j < width.bytes) :
    alignDown off width.bytes + j < b := by
  cases width <;> simp only [alignDown, Width.bytes] at hj ⊢ <;> omega

theorem windowEnd_mod_four (sp : MemSpace) : windowEnd sp % 4 = 0 := by cases sp <;> rfl

/-- Nothing of the aligned unit is implemented: every boundary of the map is aligned to the widest access. -/
theorem unit_unimplemented {p : Params} {off : Nat} {width : Width} (h : Unimplemented p off width) :
    ¬ alignDown off width.bytes < 0x100 ∧
      ∀ j, j < width.bytes → locate p (alignDown off width.bytes + j) = .unimplemented := by
  rcases h with ⟨hlow, hhigh⟩ | ⟨hlow, hhigh⟩ | hlow | ⟨sp, k, rfl, hend, hbeyond⟩
  · have hunit := le_alignDown width rfl hlow
    exact ⟨by omega, fun j hj => locate_unimplemented (.inl ⟨by omega, alignDown_add_lt rfl hhigh hj⟩)⟩
  · have hunit := le_alignDown width rfl hlow
    exact ⟨by omega, fun j hj => locate_unimplemented (.inr (.inl ⟨by omega, alignDown_add_lt rfl hhigh hj⟩))⟩
  · have hunit := le_alignDown width rfl hlow
    exact ⟨by omega, fun j hj => locate_unimplemented (.inr (.inr (by omega)))⟩
  · obtain ⟨halign, hcsr⟩ := alignDown_window sp k width
    refine ⟨hcsr, fun j hj => ?_⟩
    have hlt := alignDown_add_lt (windowEnd_mod_four sp) hend hj
    rw [halign, Nat.add_assoc] at hlt ⊢
    exact locate_beyond hlt (by omega)

theorem leValue_replicate_zero (n : Nat) : leValue (List.replicate n 0) = 0 := by
  induction n with
  | zero => rfl
  | succ n ih => rw [List.replicate_succ, leValue, ih]; rfl

/-- A unit of which nothing is implemented reads 0. -/
theorem readValue_unimplemented {s : State} {off : Nat} {width : Width}
    (h : ∀ j, j < width.bytes → locate s.params (alignDown off width.bytes + j) = .unimplemented) :
    s.readValue (s.params.base + off) width = 0 := by
  have hbytes : ((List.range width.bytes).map fun j =>
      s.hostByte (alignDown off width.bytes + j) (Config.freeByte (s.draws + j))) = List.replicate width.bytes 0 := by
    refine List.eq_replicate_iff.mpr ⟨by simp, fun b hb => ?_⟩
    obtain ⟨j, hj, rfl⟩ := List.mem_map.mp hb
    rw [State.hostByte, h j (List.mem_range.mp hj)]
  simp only [State.readValue, offsetOf_base, hbytes, leValue_replicate_zero]
  rfl

/-- A write to such a unit stores nothing. -/
theorem storedBytes_unimplemented {p : Params} {o n : Nat} (h : ∀ j, j < n → locate p (o + j) = .unimplemented) (w : Word) :
    storedBytes p o n w = [] := by
  refine List.filterMap_eq_nil_iff.mpr fun j hj => ?_
  rw [h j (List.mem_range.mp hj)]

/-- Settles O45: no byte of the aligned unit is implemented, so the read finds zeros and the write stores nothing. -/
theorem unimplementedAddressesDoNothing : Obligations.UnimplementedAddressesDoNothing := by
  intro s off width hoff
  obtain ⟨hcsr, hlocate⟩ := unit_unimplemented (p := s.params) hoff
  refine ⟨readValue_unimplemented hlocate, fun w rest hturn => ?_⟩
  rw [step_host hturn]
  simp only [State.hostStep, State.hostWrite, offsetOf_base]
  rw [if_neg hcsr, storedBytes_unimplemented hlocate]
  rfl

end Sys2Proof.Scope
end

section
/-! PROOFS. Command words: the opcode map is one to one, what the decoder answers in each case, and that it accepts exactly the
encodings of the block's commands (30_encoding.md R110 to R116); the step of a word that decodes (60_exceptions.md R372). -/

namespace Sys2Proof.Scope

open Sys2Proof.Machine Sys2Proof.Safety Sys2Proof.Laws

/-! ### The opcode map in both directions (30_encoding.md R112) -/

theorem decodeOp_opcode (i : Instr) : decodeOp (opcode i) = some i := by cases i <;> rfl

/-- Each row of the decoder's table is the opcode of its command, so no other OP value selects a command. -/
theorem eq_opcode_of_decodeOp {op : BitVec 8} {i : Instr} (h : decodeOp op = some i) : op = opcode i := by
  unfold decodeOp at h
  split at h <;> cases h <;> rfl

theorem decodeOp_eq_some_iff {op : BitVec 8} {i : Instr} : decodeOp op = some i ↔ op = opcode i :=
  ⟨eq_opcode_of_decodeOp, fun h => h ▸ decodeOp_opcode i⟩

/-! ### The fields of a command word (30_encoding.md R110) -/

/-- RSVD and OP are the whole word: one with RSVD 0 is its OP, zero-extended. -/
theorem eq_setWidth_iff {w : Word} {op : BitVec 8} :
    w = op.setWidth 32 ↔ w.extractLsb' 8 24 = 0#24 ∧ w.extractLsb' 0 8 = op := by
  have hw := w.isLt
  have hop := op.isLt
  simp only [← BitVec.toNat_inj, BitVec.toNat_setWidth, BitVec.extractLsb'_toNat, BitVec.toNat_ofNat,
    Nat.shiftRight_eq_div_pow]
  omega

/-- A word is the encoding of a command when RSVD is 0 and its OP selects the command. -/
theorem eq_encode_iff {w : Word} {i : Instr} :
    w = encode i ↔ w.extractLsb' 8 24 = 0#24 ∧ decodeOp (w.extractLsb' 0 8) = some i := by
  rw [encode, eq_setWidth_iff, decodeOp_eq_some_iff]

/-! ### What the decoder answers (30_encoding.md R113 to R116) -/

theorem decode_of_reserved {d : Bool} {w : Word} (h : w.extractLsb' 8 24 ≠ 0#24) : decode d w = .error .reservedBits :=
  if_pos h

theorem decode_of_unassigned {d : Bool} {w : Word} (hrsvd : w.extractLsb' 8 24 = 0#24)
    (hop : decodeOp (w.extractLsb' 0 8) = none) : decode d w = .error .unassignedOpcode := by
  rw [decode, if_neg (not_not_intro hrsvd), hop]

/-- Of an encoding only the block is left to ask: whether it has the command (R113). -/
theorem decode_encode (d : Bool) (i : Instr) :
    decode d (encode i) = if i.wellFormed d then .ok i else .error .noDetector := by
  obtain ⟨hrsvd, hop⟩ := eq_encode_iff.mp (rfl : encode i = encode i)
  rw [decode, if_neg (not_not_intro hrsvd), hop]

theorem decode_encode_of_wellFormed {d : Bool} {i : Instr} (h : i.wellFormed d = true) : decode d (encode i) = .ok i := by
  rw [decode_encode, if_pos h]

/-- An accepted word is the encoding of its command: the other words are refused, for RSVD or for OP. -/
theorem eq_encode_of_decode {d : Bool} {w : Word} {i : Instr} (h : decode d w = .ok i) : w = encode i := by
  by_cases hrsvd : w.extractLsb' 8 24 = 0#24
  · cases hop : decodeOp (w.extractLsb' 0 8) with
    | none => rw [decode_of_unassigned hrsvd hop] at h; cases h
    | some j =>
      obtain rfl := eq_encode_iff.mpr ⟨hrsvd, hop⟩
      rw [decode_encode] at h
      split at h <;> cases h
      rfl
  · rw [decode_of_reserved hrsvd] at h; cases h

/-- Settles O1: an accepted word is an encoding of a command the block has, and such an encoding is accepted. -/
theorem decodeAcceptsExactlyTheEncodings : Obligations.DecodeAcceptsExactlyTheEncodings := by
  intro d w i
  constructor
  · exact fun h => ⟨decode_wellFormed h, eq_encode_of_decode h⟩
  · rintro ⟨hwf, rfl⟩
    exact decode_encode_of_wellFormed hwf

/-- Settles O2: the seven legal words are encodings, and each illegal word is one case of the refusals. -/
theorem opcodeMapWordsDecode : Obligations.OpcodeMapWordsDecode :=
  have legal (i : Instr) : decode true (encode i) = .ok i :=
    decode_encode_of_wellFormed (by rw [Instr.wellFormed, Bool.or_true])
  ⟨legal .nop, legal .encodeFrame, legal .frameSizing, legal .scramble, legal .puncture, legal .modulateSymbol,
    legal .detectLong, decode_of_unassigned (by decide) (by decide), decode_of_reserved (by decide),
    decode_encode false .detectShort⟩

/-! ### The step of a word that decodes (60_exceptions.md R372) -/

theorem completeCommand_of_decode {s : State} {i : Instr} (h : decode s.params.hasDetector s.cmd = .ok i) :
    s.completeCommand = exec i s := by
  rw [State.completeCommand, h]

/-- Settles O3: on its turn the engine completes the latched command, which is the one decoded. -/
theorem stepRunsTheDecodedCommand : Obligations.StepRunsTheDecodedCommand :=
  fun _ _ hturn hdecode => (step_engine hturn).trans (completeCommand_of_decode hdecode)

end Sys2Proof.Scope
end

section
/-! PROOFS. An error completion, and FRAME_SIZING: its two errors in order and the values of the sizing CSRs
(60_exceptions.md R365, R366, 40_rate_sizing.md R144 to R147). -/

namespace Sys2Proof.Scope

open Sys2Proof.Machine Sys2Proof.Safety Sys2Proof.Laws

/-! ### An error completion (60_exceptions.md R365) -/

theorem failed_failWith (s : State) (c : ErrorCode) : Failed s (s.failWith c) c :=
  ⟨rfl, rfl, rfl, rfl, rfl, rfl, rfl⟩

/-- A command whose rule stops with an error. -/
theorem fails_of_error {i : Instr} {s : State} {c : ErrorCode} (h : effectsOf i s = .error (.error c)) :
    ∃ t, exec i s = .next t ∧ Failed s t c :=
  ⟨s.failWith c, by rw [exec_eq_finish, h]; rfl, failed_failWith s c⟩

/-! ### The errors of the sizing operands (R366) -/

/-- The selector is checked first; PSDU_LEN is checked for a valid selector alone. -/
theorem argsSizing_eq_error {s : State} {e : Stop} :
    s.argsSizing = .error e ↔
      (profile s.snap.bw s.snap.rate = none ∧ e = .error .invalidDataRate) ∨
      ∃ p, profile s.snap.bw s.snap.rate = some p ∧ s.params.maxPsdu < s.snap.psduLen.toNat ∧ e = .error .psduTooLarge := by
  simp only [State.argsSizing, bind_eq_error, argProfile_eq_error, argProfile_eq_ok, argPsduLen_eq_error, pure, Except.pure,
    reduceCtorEq, and_false, exists_false, or_false]

/-- FRAME_SIZING raises what its operands raise. -/
theorem runFrameSizing_of_error {s : State} {e : Stop} (h : s.argsSizing = .error e) : runFrameSizing s = .error e :=
  bind_eq_error.mpr (.inl h)

/-! ### The values of the sizing CSRs (R144) -/

/-- n_sym with the division rounded up as R144 writes it. -/
theorem sizing_nSym_eq {r : Nat} {p : RateProfile} (h : rateRow r = some p) (len : Nat) :
    (sizing p len).nSym = (16 + 8 * len + 6 + (p.nDbps - 1)) / p.nDbps := by
  obtain ⟨hlow, -⟩ := nDbps_bounds h
  have hpos : 1 ≤ p.nDbps := by omega
  exact congrArg (· / p.nDbps) (Nat.add_sub_assoc hpos _)

/-- The outputs of FRAME_SIZING: the sizing CSRs alone (R147). -/
def frameSizingEffects (s : State) (p : RateProfile) : Effects :=
  { Effects.nothing with sizing := some (s.sizingResult p s.snap.psduLen.toNat) }

/-- Settles O13: the two errors are those of the operands, and every value of the sizing fits its CSR. -/
theorem frameSizingWritesTheSizingCsrs : Obligations.FrameSizingWritesTheSizingCsrs := by
  refine ⟨fun s hnone => ?invalidRate, fun s p hp hlong => ?tooLarge, fun s p hp hmax => ?sized⟩
  case invalidRate =>
    exact fails_of_error (runFrameSizing_of_error (argsSizing_eq_error.mpr (.inl ⟨hnone, rfl⟩)))
  case tooLarge =>
    exact fails_of_error (runFrameSizing_of_error (argsSizing_eq_error.mpr (.inr ⟨p, hp, hlong, rfl⟩)))
  case sized =>
    obtain ⟨r, hrow⟩ := profile_row hp
    have heffects : effectsOf .frameSizing s = .ok (frameSizingEffects s p) :=
      runFrameSizing_eq_ok.mpr ⟨p, _, argsSizing_eq_ok.mpr ⟨hp, rfl, hmax⟩, rfl⟩
    obtain ⟨hsym, hpad, hdata, htx⟩ :=
      sizingWritten_succeedWith (e := frameSizingEffects s p) hrow (psduLen_lt rfl) rfl
    obtain ⟨hbits, hlt⟩ := sizing_nData hrow s.snap.psduLen.toNat
    refine ⟨_, exec_of_effects heffects, completed_succeedWith s _, ⟨rfl, rfl⟩, rfl, rfl, ?_⟩
    rw [hsym, hdata, hpad, htx]
    exact ⟨sizing_nSym_eq hrow _, rfl, by rw [hbits, Nat.add_comm], hlt, rfl⟩

end Sys2Proof.Scope
end

section
/-! PROOFS. The scrambler as the sequence of its feedback bits, that sequence's period, and the data field bit by bit
(41_scrambler.md R160 to R168). -/

namespace Sys2Proof.Scope

open Sys2Proof.Machine Sys2Proof.Safety Sys2Proof.Laws

/-! ### The register (R160) -/

/-- The register before bit i of a sequence scrambled from a seed. -/
def scrRegister (seed : BitVec 7) (i : Nat) : BitVec 7 := scrNext^[i] seed

/-- The feedback bit z[i] of R161. -/
def scrSequence (seed : BitVec 7) (i : Nat) : Bool := scrFeedback (scrRegister seed i)

theorem scrRegister_succ (seed : BitVec 7) (i : Nat) : scrRegister seed (i + 1) = scrNext (scrRegister seed i) :=
  Function.iterate_succ_apply' scrNext i seed

theorem scrRegister_scrNext (seed : BitVec 7) (i : Nat) : scrRegister (scrNext seed) i = scrRegister seed (i + 1) :=
  (Function.iterate_succ_apply scrNext i seed).symm

theorem scrSequence_scrNext (seed : BitVec 7) (i : Nat) : scrSequence (scrNext seed) i = scrSequence seed (i + 1) :=
  congrArg scrFeedback (scrRegister_scrNext seed i)

theorem scrNext_getLsbD_zero (s : BitVec 7) : (scrNext s).getLsbD 0 = scrFeedback s := by
  simp [scrNext]

theorem scrNext_getLsbD_succ (s : BitVec 7) {k : Nat} (hk : k < 6) : (scrNext s).getLsbD (k + 1) = s.getLsbD k := by
  have hin : k + 1 < 7 := by omega
  simp [scrNext, hin, BitVec.getLsbD_eq_getElem (show k < 7 by omega)]

/-- Bit k holds the feedback of k + 1 steps ago, or what the shift left of the seed. -/
theorem scrRegister_getLsbD (seed : BitVec 7) (i k : Nat) (hk : k < 7) :
    (scrRegister seed i).getLsbD k = if i < k + 1 then seed.getLsbD (k - i) else scrSequence seed (i - (k + 1)) := by
  induction i generalizing k with
  | zero => rfl
  | succ i ih =>
    rw [scrRegister_succ]
    cases k with
    | zero => rw [scrNext_getLsbD_zero, if_neg (by omega)]; rfl
    | succ k => simp [scrNext_getLsbD_succ _ (show k < 6 by omega), ih k (by omega)]

/-- The recurrence z[i] = z[i-4] XOR z[i-7], the seed's bits standing for the positions before 0 (R161). -/
theorem scrSequence_recurrence (seed : BitVec 7) (i : Nat) :
    scrSequence seed i =
      ((if i < 4 then seed.getLsbD (3 - i) else scrSequence seed (i - 4)) ^^
       (if i < 7 then seed.getLsbD (6 - i) else scrSequence seed (i - 7))) := by
  rw [scrSequence, scrFeedback, scrRegister_getLsbD seed i 3 (by omega), scrRegister_getLsbD seed i 6 (by omega)]

theorem scrSequence_zero (i : Nat) : scrSequence 0 i = false :=
  congrArg scrFeedback (Function.iterate_fixed (f := scrNext) (x := 0) (by decide) i)

/-! ### The period (R162)

Over GF(2), squaring the polynomial of a recurrence doubles its delays. From x^7 = x^3 + 1 this gives x^128 = x, so no
enumeration of the 127 registers is needed. -/

theorem recurrence_double {z : Nat → Bool} {a b : Nat} (h : ∀ i, z (i + a) = (z (i + b) ^^ z i)) (i : Nat) :
    z (i + a * 2) = (z (i + b * 2) ^^ z i) := by
  calc z (i + a * 2)
      = (z (i + a + b) ^^ z (i + a)) := by rw [← h (i + a), Nat.mul_two, Nat.add_assoc]
    _ = (z (i + b + b) ^^ z (i + b) ^^ (z (i + b) ^^ z i)) := by rw [Nat.add_right_comm, h (i + b), h i]
    _ = (z (i + b * 2) ^^ z i) := by rw [Nat.mul_two, ← Nat.add_assoc]; simp

theorem scrSequence_add_seven (seed : BitVec 7) (i : Nat) :
    scrSequence seed (i + 7) = (scrSequence seed (i + 3) ^^ scrSequence seed i) := by
  rw [scrSequence_recurrence, if_neg (by omega), if_neg (by omega)]
  rfl

theorem scrSequence_add_seven_mul_two_pow (seed : BitVec 7) (m i : Nat) :
    scrSequence seed (i + 7 * 2 ^ m) = (scrSequence seed (i + 3 * 2 ^ m) ^^ scrSequence seed i) := by
  induction m generalizing i with
  | zero => exact scrSequence_add_seven seed i
  | succ m ih => rw [Nat.pow_succ, ← Nat.mul_assoc, ← Nat.mul_assoc]; exact recurrence_double ih i

/-- x^128 = x. -/
theorem scrSequence_add_128 (seed : BitVec 7) (i : Nat) : scrSequence seed (i + 128) = scrSequence seed (i + 1) := by
  have h128 := scrSequence_add_seven_mul_two_pow seed 4 (i + 16)
  have h64 := scrSequence_add_seven_mul_two_pow seed 3 (i + 8)
  have h32 := scrSequence_add_seven_mul_two_pow seed 2 (i + 4)
  have h8 := scrSequence_add_seven_mul_two_pow seed 0 (i + 1)
  simp only [Nat.add_assoc, Nat.reducePow, Nat.reduceMul, Nat.reduceAdd] at h128 h64 h32 h8
  rw [h128, h64, h32, h8, Bool.xor_right_comm, Bool.xor_right_comm (scrSequence seed (i + 16)), Bool.xor_self, Bool.false_xor,
    ← Bool.xor_assoc, Bool.xor_self, Bool.false_xor]

/-- The sequence repeats after 127 positions: z[i] is fixed by the later z[i+3] and z[i+7]. -/
theorem scrSequence_period (seed : BitVec 7) (i : Nat) : scrSequence seed (i + 127) = scrSequence seed i := by
  have hback (j : Nat) : scrSequence seed j = (scrSequence seed (j + 7) ^^ scrSequence seed (j + 3)) := by
    rw [scrSequence_add_seven, Bool.xor_right_comm, Bool.xor_self, Bool.false_xor]
  rw [hback (i + 127), hback i]
  exact congrArg₂ xor (scrSequence_add_128 seed (i + 6)) (scrSequence_add_128 seed (i + 2))

/-! ### Scrambling (R161, R162) -/

/-- The scrambler adds its sequence to the input. -/
theorem scramble_getElem? (seed : BitVec 7) (v : List Bool) (i : Nat) :
    (scramble seed v)[i]? = v[i]?.map (· ^^ scrSequence seed i) := by
  induction v generalizing seed i with
  | nil => rfl
  | cons b v ih =>
    cases i with
    | zero => rfl
    | succ i => rw [scramble, List.getElem?_cons_succ, List.getElem?_cons_succ, ih, scrSequence_scrNext]

/-- Settles O26: z is the sequence of the register's feedback bits. -/
theorem scramblerAddsTheLfsrSequence : Obligations.ScramblerAddsTheLfsrSequence := by
  refine ⟨scrSequence, scrSequence_recurrence, fun seed v => ⟨scramble_length seed v, fun i hi => ?_⟩⟩
  rw [scramble_getElem?, List.getElem?_eq_getElem hi, Option.map_some]

theorem scramble_zero (v : List Bool) : scramble 0 v = v :=
  List.ext_getElem? fun i => by
    simp only [scramble_getElem?, scrSequence_zero, Bool.xor_false, Option.map_id']

theorem scramble_scramble (seed : BitVec 7) (v : List Bool) : scramble seed (scramble seed v) = v :=
  List.ext_getElem? fun i => by simp [scramble_getElem?, Function.comp_def]

theorem zeros_getElem? {n i : Nat} (h : i < n) : (zeros n)[i]? = some false := List.getElem?_replicate_of_lt h

/-- The scrambled zeros are the sequence itself. -/
theorem scramble_zeros_getElem? (seed : BitVec 7) {n i : Nat} (h : i < n) :
    (scramble seed (zeros n))[i]? = some (scrSequence seed i) := by
  rw [scramble_getElem?, zeros_getElem? h, Option.map_some, Bool.false_xor]

/-- Settles O27: the register's period is the sequence's, and adding the sequence twice cancels. -/
theorem scramblerPeriodAndInvolution : Obligations.ScramblerPeriodAndInvolution := by
  refine ⟨scramble_zero, fun seed n i hi => ?period, scramble_scramble⟩
  case period =>
    have hi' : i < n := by omega
    rw [scramble_zeros_getElem? seed hi, scramble_zeros_getElem? seed hi', scrSequence_period]

/-! ### The unscrambled data field (R163, R164) -/

/-- The element of a concatenation of lists of one length. -/
theorem getElem?_flatMap_of_length {α β : Type} {f : α → List β} {n : Nat} (hlen : ∀ a, (f a).length = n) (l : List α)
    (i k : Nat) (hk : k < n) : (l.flatMap f)[n * i + k]? = l[i]?.bind fun a => (f a)[k]? := by
  induction l generalizing i with
  | nil => rfl
  | cons a l ih =>
    rw [List.flatMap_cons]
    cases i with
    | zero => rw [List.getElem?_append_left (by rw [hlen]; omega)]; simp
    | succ i =>
      rw [Nat.mul_succ, List.getElem?_append_right (by rw [hlen]; omega), hlen, Nat.add_right_comm, Nat.add_sub_cancel, ih,
        List.getElem?_cons_succ]

theorem octetBits_getElem? (msb : Bool) (b : Byte) {t : Nat} (ht : t < 8) :
    (octetBits msb b)[t]? = some (b.getLsbD (if msb then 7 - t else t)) := by
  cases msb <;> simp [octetBits, ht]

/-- Bit k of the PSDU's bits is bit k mod 8, in the selected order, of octet k / 8 (R163). -/
theorem psduBits_getElem? (msb : Bool) (psdu : List Byte) {k : Nat} (hk : k < 8 * psdu.length) :
    (psduBits msb psdu)[k]? = some ((psdu.getD (k / 8) 0).getLsbD (if msb then 7 - k % 8 else k % 8)) := by
  have hmod : k % 8 < 8 := Nat.mod_lt k (by decide)
  have hdiv : k / 8 < psdu.length := by omega
  have hget := getElem?_flatMap_of_length (octetBits_length msb) psdu (k / 8) (k % 8) hmod
  rw [Nat.div_add_mod, List.getElem?_eq_getElem hdiv, Option.bind_some, octetBits_getElem? msb _ hmod] at hget
  rw [psduBits, hget, List.getD_eq_getElem psdu 0 hdiv]

/-- Bit j of the unscrambled data field: a bit of the PSDU between SERVICE and TAIL, and 0 elsewhere (R164). -/
def rawDataBit (msb : Bool) (psdu : List Byte) (j : Nat) : Bool :=
  if 16 ≤ j ∧ j < 16 + 8 * psdu.length then
    (psdu.getD ((j - 16) / 8) 0).getLsbD (if msb then 7 - (j - 16) % 8 else (j - 16) % 8)
  else false

theorem rawDataBit_psdu (msb : Bool) (psdu : List Byte) {k : Nat} (hk : k < 8 * psdu.length) :
    (psduBits msb psdu)[k]? = some (rawDataBit msb psdu (16 + k)) := by
  have hin : 16 ≤ 16 + k ∧ 16 + k < 16 + 8 * psdu.length := by omega
  rw [psduBits_getElem? msb psdu hk, rawDataBit, if_pos hin, Nat.add_sub_cancel_left]

theorem rawDataBit_of_outside (msb : Bool) (psdu : List Byte) {j : Nat} (h : j < 16 ∨ 16 + 8 * psdu.length ≤ j) :
    rawDataBit msb psdu j = false :=
  if_neg (by omega)

/-- The data field of R164 at each of its positions. -/
theorem rawDataField_getElem? (msb : Bool) (psdu : List Byte) (nPad : Nat) {i : Nat}
    (hi : i < 16 + 8 * psdu.length + 6 + nPad) :
    (rawDataField msb psdu nPad)[i]? = some (rawDataBit msb psdu i) := by
  have hshape : rawDataField msb psdu nPad = zeros 16 ++ (psduBits msb psdu ++ zeros (6 + nPad)) := by
    simp [rawDataField, zeros, ← List.replicate_append_replicate]
  rw [hshape]
  by_cases hservice : i < 16
  · rw [List.getElem?_append_left (by rwa [zeros_length]), zeros_getElem? hservice, rawDataBit_of_outside _ _ (.inl hservice)]
  obtain ⟨k, rfl⟩ := Nat.exists_eq_add_of_le (Nat.le_of_not_lt hservice)
  rw [List.getElem?_append_right (by simp), zeros_length, Nat.add_sub_cancel_left]
  by_cases hpsdu : k < 8 * psdu.length
  · rw [List.getElem?_append_left (by rwa [psduBits_length]), rawDataBit_psdu msb psdu hpsdu]
  · rw [List.getElem?_append_right (by rw [psduBits_length]; omega), psduBits_length, zeros_getElem? (by omega),
      rawDataBit_of_outside _ _ (.inr (by omega))]

theorem rawDataField_eq_map (msb : Bool) (psdu : List Byte) (nPad : Nat) :
    rawDataField msb psdu nPad = (List.range (16 + 8 * psdu.length + 6 + nPad)).map (rawDataBit msb psdu) := by
  refine List.ext_getElem? fun i => ?_
  by_cases hi : i < 16 + 8 * psdu.length + 6 + nPad
  · rw [rawDataField_getElem? msb psdu nPad hi, List.getElem?_map, List.getElem?_range hi, Option.map_some]
  · rw [List.getElem?_eq_none (by rw [rawDataField_length]; omega), List.getElem?_eq_none (by simpa using hi)]

/-! ### The tail reset (R166, R167) -/

/-- Setting n elements in a row sets these and leaves the others. -/
theorem getElem?_foldl_set {α : Type} (x : α) (a n : Nat) (v : List α) (hfits : a + n ≤ v.length) (i : Nat) :
    ((List.range n).foldl (fun t k => t.set (a + k) x) v)[i]? = if a ≤ i ∧ i < a + n then some x else v[i]? := by
  induction n with
  | zero => rw [if_neg (by omega)]; rfl
  | succ n ih =>
    rw [List.range_succ, List.foldl_append, List.foldl_cons, List.foldl_nil]
    by_cases hlast : a + n = i
    · rw [← hlast, if_pos (by omega), List.getElem?_set_self (by rw [foldl_set_length (a + ·) fun _ => x]; omega)]
    · rw [List.getElem?_set_ne hlast, ih (by omega)]
      exact if_congr (by omega) rfl rfl

/-- The tail reset forces the six tail bits to 0 and keeps every other bit (R166). -/
theorem tailReset_getElem? {v : List Bool} {nData nPad a : Nat} (hstart : nData = a + 6 + nPad) (hlen : v.length = nData)
    (i : Nat) : (tailReset v nData nPad)[i]? = if a ≤ i ∧ i < a + 6 then some false else v[i]? := by
  have hoffset : nData - nPad - 6 = a := by omega
  rw [tailReset, hoffset, getElem?_foldl_set false a 6 v (by omega)]

/-- Settles O28: the tail reset replaces the six tail bits of the scrambled data field. -/
theorem dataFieldIsScrambledWithZeroTail : Obligations.DataFieldIsScrambledWithZeroTail := by
  intro r p seed msb psdu hrow
  obtain ⟨hdata, -⟩ := sizing_nData hrow psdu.length
  refine ⟨dataField_length hrow seed msb psdu, fun i _ => ?_⟩
  have hlen : (scramble seed (rawDataField msb psdu (sizing p psdu.length).nPad)).length = (sizing p psdu.length).nData := by
    rw [scramble_length, rawDataField_length, hdata]
  have htail : 16 + 8 * psdu.length + 6 = 22 + 8 * psdu.length := by omega
  rw [dataField, tailReset_getElem? hdata hlen, rawDataField_eq_map, ← hdata, htail]
  rfl

end Sys2Proof.Scope
end

section
/-! PROOFS. The encoder's register as a window on its input, the taps of the two generators, and the puncturer as a filter on
the stream's indices (42_encoder_puncturer.md R190 to R196). -/

namespace Sys2Proof.Scope

open Sys2Proof.Machine Sys2Proof.Safety Sys2Proof.Laws

/-! ### The register (R191, R192) -/

theorem encNext_getLsbD_six (r : BitVec 7) (b : Bool) : (encNext r b).getLsbD 6 = b := by
  simp [encNext]

theorem encNext_getLsbD_of_lt (r : BitVec 7) (b : Bool) {k : Nat} (hk : k < 6) :
    (encNext r b).getLsbD k = r.getLsbD (k + 1) := by
  simp [encNext, hk, Nat.add_comm 1 k]

/-- The register after the first n bits of an encoding, with zeros before its start. -/
def encRegister (v : List Bool) (n : Nat) : BitVec 7 := (v.take n).foldl encNext 0

theorem encRegister_succ {v : List Bool} {i : Nat} (hi : i < v.length) :
    encRegister v (i + 1) = encNext (encRegister v i) v[i] := by
  rw [encRegister, List.take_add_one, List.getElem?_eq_getElem hi, List.foldl_append]
  rfl

/-- The input d steps before step i, and 0 before the start. -/
def delayedBit (v : List Bool) (i d : Nat) : Bool := if d ≤ i then v.getD (i - d) false else false

theorem delayedBit_zero {v : List Bool} {i : Nat} (hi : i < v.length) : delayedBit v i 0 = v[i] :=
  List.getD_eq_getElem v false hi

theorem delayedBit_succ_succ (v : List Bool) (i d : Nat) : delayedBit v (i + 1) (d + 1) = delayedBit v i d := by
  simp [delayedBit]

/-- Bit 6 - d of the register is the input d steps earlier (R191). -/
theorem encRegister_getLsbD {v : List Bool} {i : Nat} (hi : i < v.length) {d : Nat} (hd : d ≤ 6) :
    (encRegister v (i + 1)).getLsbD (6 - d) = delayedBit v i d := by
  induction d generalizing i with
  | zero => rw [encRegister_succ hi, encNext_getLsbD_six, delayedBit_zero hi]
  | succ d ih =>
    have hbit : 6 - (d + 1) + 1 = 6 - d := by omega
    rw [encRegister_succ hi, encNext_getLsbD_of_lt _ _ (by omega), hbit]
    cases i with
    | zero => exact BitVec.getLsbD_zero
    | succ i => rw [ih (by omega) (by omega), delayedBit_succ_succ]

/-! ### The generators (R190, R193) -/

/-- The register bits under the masks 0x5B and 0x79, the newest first. -/
theorem encOut_eq (r : BitVec 7) :
    encOut r =
      [r.getLsbD 6 ^^ r.getLsbD 4 ^^ r.getLsbD 3 ^^ r.getLsbD 1 ^^ r.getLsbD 0,
       r.getLsbD 6 ^^ r.getLsbD 5 ^^ r.getLsbD 4 ^^ r.getLsbD 3 ^^ r.getLsbD 0] := by
  simp [encOut, parity7, Bool.xor_comm]

/-- The two outputs of step i are those of the register after it. -/
theorem convEncodeFrom_getElem? (r : BitVec 7) {v : List Bool} {i : Nat} (hi : i < v.length) {k : Nat} (hk : k < 2) :
    (convEncodeFrom r v)[2 * i + k]? = (encOut ((v.take (i + 1)).foldl encNext r))[k]? := by
  induction v generalizing r i with
  | nil => exact absurd hi (Nat.not_lt_zero i)
  | cons b v ih =>
    have hlen : (encOut (encNext r b)).length = 2 := rfl
    rw [convEncodeFrom, List.take_succ_cons, List.foldl_cons]
    cases i with
    | zero => rw [List.getElem?_append_left (by omega), Nat.mul_zero, Nat.zero_add, List.take_zero, List.foldl_nil]
    | succ i =>
      have hindex : 2 * (i + 1) + k - 2 = 2 * i + k := by omega
      rw [List.getElem?_append_right (by omega), hlen, hindex, ih _ (Nat.lt_of_succ_lt_succ hi)]

/-- The two outputs of step i as parities of delayed inputs. -/
theorem convEncode_getElem? {v : List Bool} {i : Nat} (hi : i < v.length) {k : Nat} (hk : k < 2) :
    (convEncode v)[2 * i + k]? =
      [delayedBit v i 0 ^^ delayedBit v i 2 ^^ delayedBit v i 3 ^^ delayedBit v i 5 ^^ delayedBit v i 6,
       delayedBit v i 0 ^^ delayedBit v i 1 ^^ delayedBit v i 2 ^^ delayedBit v i 3 ^^ delayedBit v i 6][k]? := by
  have hbit (d : Nat) (hd : d ≤ 6) := encRegister_getLsbD hi hd
  rw [convEncode, convEncodeFrom_getElem? 0 hi hk, ← encRegister, encOut_eq, ← hbit 0 (by decide), ← hbit 1 (by decide),
    ← hbit 2 (by decide), ← hbit 3 (by decide), ← hbit 5 (by decide), ← hbit 6 (by decide)]

/-- Settles O29: the generators' masks pick the register's bits, which are the delayed inputs. -/
theorem convEncoderTapsTheGenerators : Obligations.ConvEncoderTapsTheGenerators :=
  fun v => ⟨convEncode_length v, fun _ hi =>
    ⟨convEncode_getElem? hi (k := 0) (by decide), convEncode_getElem? hi (k := 1) (by decide)⟩⟩

/-! ### The puncturer (R194 to R196) -/

/-- Puncturing from index i on keeps, in order, the bits at the indices that the pattern does not drop (R195). -/
theorem punctureFrom_eq_filter (r : CodingRate) (i : Nat) (c : List Bool) :
    punctureFrom r i c = ((c.zipIdx i).filter fun x => !r.drops (x.2 % r.period)).map Prod.fst := by
  induction c generalizing i with
  | nil => rfl
  | cons b c ih =>
    rw [punctureFrom, ih, List.zipIdx_cons, List.filter_cons]
    cases r.drops (i % r.period) <;> rfl

/-- The puncturer is the filter of any predicate that holds of the undropped indices. -/
theorem puncture_eq_filter {r : CodingRate} {kept : Nat → Bool} (hkept : ∀ i, (!r.drops (i % r.period)) = kept i)
    (c : List Bool) : puncture r c = (c.zipIdx.filter fun x => kept x.2).map Prod.fst := by
  simp only [puncture, punctureFrom_eq_filter, hkept]

/-- Rate 1/2 drops no bit. -/
theorem puncture_half (c : List Bool) : puncture .half c = c := by
  rw [puncture_eq_filter (kept := fun _ => true) fun _ => rfl, List.filter_true, List.zipIdx_map_fst]

theorem twoThirds_keeps (i : Nat) :
    (!CodingRate.twoThirds.drops (i % CodingRate.twoThirds.period)) = decide (i % 4 ≠ 3) := by
  simp [CodingRate.drops, CodingRate.period, beq_eq_decide]

theorem threeQuarters_keeps (i : Nat) :
    (!CodingRate.threeQuarters.drops (i % CodingRate.threeQuarters.period)) = decide (i % 6 ≠ 3 ∧ i % 6 ≠ 4) := by
  simp [CodingRate.drops, CodingRate.period, beq_eq_decide]

/-- Settles O30: the puncturer is a filter on the stream's indices, and its output length is `puncturedLen`. -/
theorem puncturerKeepsThePattern : Obligations.PuncturerKeepsThePattern := by
  refine fun c => ⟨puncture_half c, puncture_eq_filter twoThirds_keeps c, puncture_eq_filter threeQuarters_keeps c,
    puncture_length .twoThirds c, puncture_length .threeQuarters c, fun h4 => ?twoThirds, fun h6 => ?threeQuarters⟩
  case twoThirds => rw [puncture_length, puncturedLen]; omega
  case threeQuarters => rw [puncture_length, puncturedLen]; omega

end Sys2Proof.Scope
end

section
/-! PROOFS. The interleaver: its two index formulas are bijections of a block's positions, what the interleaver and the deinterleaver
put at each position, and that they undo each other (43_interleaver.md R220 to R224). -/

namespace Sys2Proof.Scope

open Sys2Proof.Machine Sys2Proof.Laws

/-! ### The permutation of a block (R221, R223)

A block is an array of 16 rows of m positions, and each row is made of whole groups of s positions: s divides m. -/

/-- Every row of the rate table has blocks of that shape (R141, R221). -/
theorem rateRow_blockShape {r : Nat} {p : RateProfile} (h : rateRow r = some p) :
    ∃ m, p.nCbps = 16 * m ∧ 0 < m ∧ permStep p.nBpsc ∣ m := by
  refine ⟨p.nCbps / 16, ?_⟩
  rcases rateRow_cases h with h | h | h | h | h | h | h | h <;> rw [h.2] <;> decide

theorem permStep_pos (w : Nat) : 0 < permStep w := Nat.lt_of_lt_of_le Nat.one_pos (Nat.le_max_right _ _)

theorem permFirst_eq (m k : Nat) : permFirst (16 * m) k = m * (k % 16) + k / 16 := by
  rw [permFirst, Nat.mul_div_cancel_left m (by decide)]

/-- The first permutation puts k in row k mod 16. -/
theorem permFirst_div {m k : Nat} (hk : k < 16 * m) : permFirst (16 * m) k / m = k % 16 := by
  rw [permFirst_eq, Nat.mul_add_div (by omega), Nat.div_eq_of_lt (by omega), Nat.add_zero]

/-- The first permutation puts k at position k / 16 of its row. -/
theorem permFirst_mod {m k : Nat} (hk : k < 16 * m) : permFirst (16 * m) k % m = k / 16 := by
  rw [permFirst_eq, Nat.mul_add_mod, Nat.mod_eq_of_lt (by omega)]

theorem permFirst_bijOn (m : Nat) : Set.BijOn (permFirst (16 * m)) (Set.Iio (16 * m)) (Set.Iio (16 * m)) := by
  have hmaps : Set.MapsTo (permFirst (16 * m)) (Set.Iio (16 * m)) (Set.Iio (16 * m)) := fun k (hk : k < 16 * m) => by
    have hrow : permFirst (16 * m) k / m < 16 := by rw [permFirst_div hk]; omega
    exact (Nat.div_lt_iff_lt_mul (by omega)).mp hrow
  refine ((Set.finite_Iio _).injOn_iff_bijOn_of_mapsTo hmaps).mp fun a (ha : a < 16 * m) b (hb : b < 16 * m) hab => ?_
  have hmod : a % 16 = b % 16 := by rw [← permFirst_div ha, hab, permFirst_div hb]
  have hdiv : a / 16 = b / 16 := by rw [← permFirst_mod ha, hab, permFirst_mod hb]
  omega

theorem permSecond_eq (m w i : Nat) :
    permSecond (16 * m) w i = permStep w * (i / permStep w) + (i + 16 * m - i / m) % permStep w := by
  rw [permSecond, Nat.mul_div_mul_left i m (by decide)]

/-- The second permutation keeps each position in its group of s. -/
theorem permSecond_div (m w i : Nat) : permSecond (16 * m) w i / permStep w = i / permStep w := by
  rw [permSecond_eq, Nat.mul_add_div (permStep_pos w), Nat.div_eq_of_lt (Nat.mod_lt _ (permStep_pos w)), Nat.add_zero]

/-- The second permutation rotates a group by the number of its row. -/
theorem permSecond_mod (m w i : Nat) : permSecond (16 * m) w i % permStep w = (i + 16 * m - i / m) % permStep w := by
  rw [permSecond_eq, Nat.mul_add_mod, Nat.mod_mod]

/-- The group of a position determines its row. -/
theorem div_eq_of_div_eq_of_dvd {s m i i' : Nat} (hs : s ∣ m) (h : i / s = i' / s) : i / m = i' / m := by
  obtain ⟨t, rfl⟩ := hs
  rw [← Nat.div_div_eq_div_mul, h, Nat.div_div_eq_div_mul]

theorem permSecond_bijOn {m w : Nat} (hm : 0 < m) (hs : permStep w ∣ m) :
    Set.BijOn (permSecond (16 * m) w) (Set.Iio (16 * m)) (Set.Iio (16 * m)) := by
  have hmaps : Set.MapsTo (permSecond (16 * m) w) (Set.Iio (16 * m)) (Set.Iio (16 * m)) := fun i (hi : i < 16 * m) => by
    have hrow := div_eq_of_div_eq_of_dvd hs (permSecond_div m w i)
    exact (Nat.div_lt_iff_lt_mul hm).mp (hrow ▸ (Nat.div_lt_iff_lt_mul hm).mpr hi)
  refine ((Set.finite_Iio _).injOn_iff_bijOn_of_mapsTo hmaps).mp fun a (ha : a < 16 * m) b (hb : b < 16 * m) hab => ?_
  have hgroup : a / permStep w = b / permStep w := by rw [← permSecond_div m, hab, permSecond_div]
  have hrow : a / m = b / m := div_eq_of_div_eq_of_dvd hs hgroup
  have hrotated : (a + 16 * m - a / m) % permStep w = (b + 16 * m - b / m) % permStep w := by
    rw [← permSecond_mod, hab, permSecond_mod]
  have hle : b / m ≤ 16 * m := (Nat.div_le_self b m).trans hb.le
  rw [hrow, Nat.add_sub_assoc hle, Nat.add_sub_assoc hle] at hrotated
  have hplace : a % permStep w = b % permStep w := Nat.ModEq.add_right_cancel' _ hrotated
  rw [← Nat.div_add_mod a (permStep w), hgroup, hplace, Nat.div_add_mod]

/-- The permutation of every row of the rate table is a bijection of the positions of a block (R223). -/
theorem perm_bijOn {r : Nat} {p : RateProfile} (h : rateRow r = some p) :
    Set.BijOn (perm p.nCbps p.nBpsc) (Set.Iio p.nCbps) (Set.Iio p.nCbps) := by
  obtain ⟨m, hn, hm, hs⟩ := rateRow_blockShape h
  rw [hn]
  exact (permSecond_bijOn hm hs).comp (permFirst_bijOn m)

/-! ### One block (R222, R224) -/

/-- What `set` at distinct positions leaves at each of them. -/
theorem getElem?_foldl_set_of_injOn {α : Type} {f : Nat → Nat} {n : Nat} (hinj : Set.InjOn f (Set.Iio n)) (g : Nat → α)
    {out : List α} (hfits : ∀ k < n, f k < out.length) {k : Nat} (hk : k < n) :
    ((List.range n).foldl (fun t i => t.set (f i) (g i)) out)[f k]? = some (g k) := by
  induction n with
  | zero => exact absurd hk (Nat.not_lt_zero k)
  | succ n ih =>
    rw [List.range_succ, List.foldl_append, List.foldl_cons, List.foldl_nil]
    rcases Nat.lt_succ_iff_lt_or_eq.mp hk with hlt | rfl
    · have hne : f n ≠ f k := fun heq => hlt.ne' (hinj (Set.mem_Iio.mpr n.lt_succ_self) (Set.mem_Iio.mpr hk) heq)
      rw [List.getElem?_set_ne hne]
      exact ih (hinj.mono (Set.Iio_subset_Iio n.le_succ)) (fun i hi => hfits i (hi.trans n.lt_succ_self)) hlt
    · rw [List.getElem?_set_self (by rw [foldl_set_length]; exact hfits k hk)]

/-- The bit at input position k moves to output position `perm k` (R222). -/
theorem interleaveBlock_getElem? {n w : Nat} (hperm : Set.BijOn (perm n w) (Set.Iio n) (Set.Iio n)) (c : List Bool) {k : Nat}
    (hk : k < n) : (interleaveBlock n w c)[perm n w k]? = some (c.getD k false) :=
  getElem?_foldl_set_of_injOn hperm.injOn _ (fun _ hi => by rw [List.length_replicate]; exact hperm.mapsTo hi) hk

/-- The bit at output position k comes from input position `perm k` (R224). -/
theorem deinterleaveBlock_getElem? (n w : Nat) (y : List Bool) {k : Nat} (hk : k < n) :
    (deinterleaveBlock n w y)[k]? = some (y.getD (perm n w k) false) := by
  simp [deinterleaveBlock, hk]

/-! ### A sequence of whole blocks (R220) -/

theorem block_position_lt {N n b k : Nat} (hb : b < N) (hk : k < n) : b * n + k < N * n :=
  calc b * n + k < b * n + n := Nat.add_lt_add_left hk _
    _ = (b + 1) * n := (Nat.succ_mul b n).symm
    _ ≤ N * n := Nat.mul_le_mul_right n hb

theorem block_getD {v : List Bool} {N n b k : Nat} (hlen : v.length = N * n) (hb : b < N) (hk : k < n) :
    some (((v.drop (b * n)).take n).getD k false) = v[b * n + k]? := by
  have hpos : b * n + k < v.length := hlen ▸ block_position_lt hb hk
  rw [List.getD_eq_getElem?_getD, List.getElem?_take_of_lt hk, List.getElem?_drop, List.getElem?_eq_getElem hpos,
    Option.getD_some]

/-- An operation on each block on its own: position k of its block b. -/
theorem getElem?_flatMap_blocks {f : List Bool → List Bool} {v : List Bool} {N n b k : Nat} (hf : ∀ c, (f c).length = n)
    (hlen : v.length = N * n) (hb : b < N) (hk : k < n) :
    ((blocks n (v.length / n) v).flatMap f)[b * n + k]? = (f ((v.drop (b * n)).take n))[k]? := by
  have hcount : v.length / n = N := by rw [hlen, Nat.mul_div_cancel N (by omega)]
  rw [Nat.mul_comm b n, getElem?_flatMap_of_length hf _ b k hk, blocks_getElem? n _ v (by omega), Option.bind_some,
    Nat.mul_comm n b]

/-- The bit at position k of each block moves to position `perm k` of that block (R222). -/
theorem interleave_getElem? {n w : Nat} (hperm : Set.BijOn (perm n w) (Set.Iio n) (Set.Iio n)) {v : List Bool} {N b k : Nat}
    (hlen : v.length = N * n) (hb : b < N) (hk : k < n) : (interleave n w v)[b * n + perm n w k]? = v[b * n + k]? := by
  rw [interleave, getElem?_flatMap_blocks (interleaveBlock_length n w) hlen hb (hperm.mapsTo hk),
    interleaveBlock_getElem? hperm _ hk, block_getD hlen hb hk]

/-- The bit at position k of each block comes from position `perm k` of that block (R224). -/
theorem deinterleave_getElem? {n w : Nat} (hperm : Set.BijOn (perm n w) (Set.Iio n) (Set.Iio n)) {v : List Bool} {N b k : Nat}
    (hlen : v.length = N * n) (hb : b < N) (hk : k < n) : (deinterleave n w v)[b * n + k]? = v[b * n + perm n w k]? := by
  rw [deinterleave, getElem?_flatMap_blocks (deinterleaveBlock_length n w) hlen hb hk, deinterleaveBlock_getElem? n w _ hk,
    block_getD hlen hb (hperm.mapsTo hk)]

/-- Sequences of N blocks that agree at every position of every block are equal. -/
theorem ext_of_blocks {u v : List Bool} {N n : Nat} (hu : u.length = N * n) (hv : v.length = N * n)
    (heq : ∀ b < N, ∀ k < n, u[b * n + k]? = v[b * n + k]?) : u = v := by
  refine List.ext_getElem? fun i => ?_
  rcases Nat.lt_or_ge i (N * n) with hi | hi
  case inl =>
    have hn : 0 < n := Nat.pos_of_ne_zero fun h0 => by simp [h0] at hi
    have hpos := heq (i / n) ((Nat.div_lt_iff_lt_mul hn).mpr hi) (i % n) (Nat.mod_lt i hn)
    rwa [Nat.mul_comm, Nat.div_add_mod] at hpos
  case inr => rw [List.getElem?_eq_none (hu ▸ hi), List.getElem?_eq_none (hv ▸ hi)]

/-- Whole blocks stay whole blocks. -/
theorem interleave_length_of_blocks {n N : Nat} (w : Nat) {v : List Bool} (hlen : v.length = N * n) :
    (interleave n w v).length = N * n :=
  (interleave_length (by rw [hlen, Nat.mul_mod_left])).trans hlen

theorem deinterleave_length_of_blocks {n N : Nat} (w : Nat) {v : List Bool} (hlen : v.length = N * n) :
    (deinterleave n w v).length = N * n :=
  (deinterleave_length (by rw [hlen, Nat.mul_mod_left])).trans hlen

theorem deinterleave_interleave {n w N : Nat} (hperm : Set.BijOn (perm n w) (Set.Iio n) (Set.Iio n)) {v : List Bool}
    (hlen : v.length = N * n) : deinterleave n w (interleave n w v) = v := by
  have hi := interleave_length_of_blocks w hlen
  refine ext_of_blocks (deinterleave_length_of_blocks w hi) hlen fun b hb k hk => ?_
  rw [deinterleave_getElem? hperm hi hb hk, interleave_getElem? hperm hlen hb hk]

/-- Every position of a block is `perm k` for some k (R223). -/
theorem interleave_deinterleave {n w N : Nat} (hperm : Set.BijOn (perm n w) (Set.Iio n) (Set.Iio n)) {v : List Bool}
    (hlen : v.length = N * n) : interleave n w (deinterleave n w v) = v := by
  have hd := deinterleave_length_of_blocks w hlen
  refine ext_of_blocks (interleave_length_of_blocks w hd) hlen fun b hb j hj => ?_
  obtain ⟨k, hk, rfl⟩ := hperm.surjOn hj
  rw [interleave_getElem? hperm hd hb hk, deinterleave_getElem? hperm hlen hb hk]

/-! ### The statements -/

/-- Settles O31: the formulas are `perm`, a bijection of the positions of a block that moves each bit within its block. -/
theorem interleaverMovesBitsByTheFormulas : Obligations.InterleaverMovesBitsByTheFormulas := by
  intro r p v n b k hrow hlen hb hk
  have hperm := perm_bijOn hrow
  exact ⟨hperm.mapsTo hk, (interleave_length_of_blocks _ hlen).trans hlen.symm, interleave_getElem? hperm hlen hb hk⟩

/-- Settles O32: the permutation is a bijection of the positions of a block (R223). -/
theorem interleaverRoundTrips : Obligations.InterleaverRoundTrips :=
  fun _ _ _ hrow hblocks =>
    have hperm := perm_bijOn hrow
    have hlen := (Nat.div_mul_cancel (Nat.dvd_of_mod_eq_zero hblocks)).symm
    ⟨deinterleave_interleave hperm hlen, interleave_deinterleave hperm hlen⟩

end Sys2Proof.Scope
end

section
/-! PROOFS. The constellation mapper: the levels of the Gray tables bit by bit, the energy of a constellation in exact arithmetic, and
the accuracy of the constants of the hardware (44_mapper.md R240 to R249). -/

namespace Sys2Proof.Scope

open Sys2Proof.Machine Sys2Proof.Safety Sys2Proof.Laws

/-! ### Chunks (R240, R241) -/

/-- The bits of a chunk (R242 to R245). -/
def chunkBits : Modulation → Nat
  | .bpsk => 1
  | .qpsk => 2
  | .qam16 => 4
  | .qam64 => 6

/-- A block of a row of the rate table is 48 chunks. -/
theorem rateRow_chunks {r : Nat} {p : RateProfile} (h : rateRow r = some p) :
    p.nBpsc = chunkBits p.modulation ∧ p.nCbps = 48 * chunkBits p.modulation := by
  rcases rateRow_cases h with h | h | h | h | h | h | h | h <;> rw [h.2] <;> decide

theorem groupMsb_zero (v : List Bool) (i : Nat) : groupMsb v i 0 = 0 := by simp [groupMsb]

/-- One more bit of a group, as its least significant. -/
theorem groupMsb_succ {v : List Bool} {i n : Nat} (h : i + n < v.length) :
    groupMsb v i (n + 1) = 2 * groupMsb v i n + (v.getD (i + n) false).toNat := by
  simp only [groupMsb, List.take_add_one, List.getElem?_drop, List.getElem?_eq_getElem h, List.getD_eq_getElem v false h,
    Option.toList_some, List.foldl_append, List.foldl_cons, List.foldl_nil]

theorem groupMsb_one {v : List Bool} {i : Nat} (h : i < v.length) : groupMsb v i 1 = (v.getD i false).toNat := by
  rw [groupMsb_succ h, groupMsb_zero, Nat.mul_zero, Nat.zero_add, Nat.add_zero]

/-! ### The Gray tables (R242 to R245) -/

/-- The level of a one-bit half. -/
def gray1 (x : Bool) : Int := if x then 1 else -1

/-- The level of a half of 16-QAM. -/
def gray2 (x y : Bool) : Int := gray1 x * (if y then 1 else 3)

/-- The level of a half of 64-QAM. -/
def gray3 (x y z : Bool) : Int := gray1 x * (if y then (if z then 3 else 1) else (if z then 5 else 7))

theorem level_bpsk_toNat (x : Bool) : level .bpsk x.toNat = gray1 x := by cases x <;> rfl

theorem level_qpsk_toNat (x : Bool) : level .qpsk x.toNat = gray1 x := by cases x <;> rfl

theorem level_qam16_toNat : ∀ x y : Bool, level .qam16 (2 * x.toNat + y.toNat) = gray2 x y := by decide

theorem level_qam64_toNat : ∀ x y z : Bool, level .qam64 (2 * (2 * x.toNat + y.toNat) + z.toNat) = gray3 x y z := by decide

theorem level_qam16_group {v : List Bool} {i : Nat} (h : i + 1 < v.length) :
    level .qam16 (groupMsb v i 2) = gray2 (v.getD i false) (v.getD (i + 1) false) := by
  rw [groupMsb_succ h, groupMsb_one (by omega), level_qam16_toNat]

theorem level_qam64_group {v : List Bool} {i : Nat} (h : i + 2 < v.length) :
    level .qam64 (groupMsb v i 3) = gray3 (v.getD i false) (v.getD (i + 1) false) (v.getD (i + 2) false) := by
  rw [groupMsb_succ h, groupMsb_succ (by omega), groupMsb_one (by omega), level_qam64_toNat]

theorem mapBlock_getElem? {α : Type} (A : Arith α) (p : RateProfile) (v : List Bool) {m : Nat} (h : m < 48) :
    (mapBlock A p v)[m]? = some (A.point p.modulation (levelI p v m) (levelQ p v m)) := by
  rw [mapBlock, List.getElem?_map, List.getElem?_range h, Option.map_some]

/-- Settles O33: both halves of chunk m lie inside the block, and the level of a half follows from its bits. -/
theorem mapperFollowsTheGrayTables : Obligations.MapperFollowsTheGrayTables := by
  intro r p v m hrow hlen hm
  refine ⟨mapBlock_length hw p v, ?_⟩
  rw [mapBlock_getElem? hw p v hm]
  obtain ⟨hbits, hblock⟩ := rateRow_chunks hrow
  rw [hblock] at hlen
  simp only [levelI, levelQ, hbits]
  cases hmod : p.modulation <;> simp only [hmod, chunkBits] at hlen ⊢
  case bpsk =>
    have hI : level .bpsk (groupMsb v (m * 1) 1) = gray1 (v.getD (m * 1) false) := by
      rw [groupMsb_one (by omega), level_bpsk_toNat]
    exact congrArg (fun i => some (hw.point .bpsk i 0)) hI
  case qpsk =>
    have hhalf (t : Nat) (ht : t < 2) : level .qpsk (groupMsb v (m * 2 + t) 1) = gray1 (v.getD (m * 2 + t) false) := by
      rw [groupMsb_one (by omega), level_qpsk_toNat]
    exact congrArg₂ (fun i q => some (hw.point .qpsk i q)) (hhalf 0 (by decide)) (hhalf 1 (by decide))
  case qam16 =>
    exact congrArg₂ (fun i q => some (hw.point .qam16 i q)) (level_qam16_group (i := m * 4) (by omega))
      (level_qam16_group (i := m * 4 + 2) (by omega))
  case qam64 =>
    exact congrArg₂ (fun i q => some (hw.point .qam64 i q)) (level_qam64_group (i := m * 6) (by omega))
      (level_qam64_group (i := m * 6 + 3) (by omega))

/-! ### K_MOD (R242 to R245) -/

/-- `1 / K_MOD^2`. -/
def levelEnergy : Modulation → Nat
  | .bpsk => 1
  | .qpsk => 2
  | .qam16 => 10
  | .qam64 => 42

theorem kMod_eq (m : Modulation) : kMod m = 1 / Real.sqrt (levelEnergy m) := by
  cases m <;> simp [kMod, levelEnergy]

theorem levelEnergy_pos (m : Modulation) : 0 < levelEnergy m := by cases m <;> decide

theorem kMod_nonneg (m : Modulation) : 0 ≤ kMod m := by rw [kMod_eq]; positivity

theorem kMod_sq_mul_levelEnergy (m : Modulation) : kMod m ^ 2 * levelEnergy m = 1 := by
  have hpos : (0 : ℝ) < levelEnergy m := Nat.cast_pos.mpr (levelEnergy_pos m)
  rw [kMod_eq, div_pow, one_pow, Real.sq_sqrt hpos.le, one_div_mul_cancel hpos.ne']

/-! ### Points in exact arithmetic, and their energy (R249) -/

theorem exact_point_eq (m : Modulation) (i q : Int) : exact.point m i q = ⟨kMod m * i, kMod m * q⟩ := by
  apply Complex.ext <;> simp [exact]

theorem normSq_exact_point (m : Modulation) (i q : Int) :
    Complex.normSq (exact.point m i q) = kMod m ^ 2 * ((i : ℝ) ^ 2 + (q : ℝ) ^ 2) := by
  rw [exact_point_eq, Complex.normSq_mk]
  ring

/-- The mean of |d|^2 over two halves of n values each is twice the mean over one half. -/
theorem mean_normSq_eq_one {m : Modulation} {n : Nat} (hn : n ≠ 0)
    (henergy : 2 * ∑ u ∈ Finset.range n, level m u ^ 2 = n * levelEnergy m) :
    (∑ u ∈ Finset.range n, ∑ v ∈ Finset.range n, Complex.normSq (exact.point m (level m u) (level m v))) / (n * n) = 1 := by
  have henergy' : 2 * ∑ u ∈ Finset.range n, (level m u : ℝ) ^ 2 = n * levelEnergy m := by exact_mod_cast henergy
  have hn' : (n : ℝ) ≠ 0 := Nat.cast_ne_zero.mpr hn
  rw [div_eq_one_iff_eq (mul_ne_zero hn' hn')]
  simp only [normSq_exact_point, ← Finset.mul_sum, Finset.sum_add_distrib, Finset.sum_const, Finset.card_range, nsmul_eq_mul]
  calc kMod m ^ 2 * (n * ∑ u ∈ Finset.range n, (level m u : ℝ) ^ 2 + n * ∑ u ∈ Finset.range n, (level m u : ℝ) ^ 2)
      = kMod m ^ 2 * n * (2 * ∑ u ∈ Finset.range n, (level m u : ℝ) ^ 2) := by ring
    _ = kMod m ^ 2 * levelEnergy m * (n * n) := by rw [henergy']; ring
    _ = n * n := by rw [kMod_sq_mul_levelEnergy, one_mul]

theorem mean_normSq_bpsk :
    (∑ u ∈ Finset.range 2, Complex.normSq (exact.point .bpsk (level .bpsk u) 0)) / 2 = 1 := by
  norm_num [Finset.sum_range_succ, normSq_exact_point, kMod, level]

/-- Settles O43: the sums of squares of the levels are 2, 20 and 168. -/
theorem constellationsHaveUnitEnergy : Obligations.ConstellationsHaveUnitEnergy := by
  have hqpsk := mean_normSq_eq_one (m := .qpsk) (n := 2) (by decide) (by decide)
  have hqam16 := mean_normSq_eq_one (m := .qam16) (n := 4) (by decide) (by decide)
  have hqam64 := mean_normSq_eq_one (m := .qam64) (n := 8) (by decide) (by decide)
  norm_num only at hqpsk hqam16 hqam64
  refine ⟨mean_normSq_bpsk, hqpsk, hqam16, hqam64, ?example64, ?exampleQpsk⟩
  case example64 => norm_num [exact_point_eq, kMod, level, div_eq_inv_mul]
  case exampleQpsk => norm_num [exact_point_eq, kMod, level, div_eq_inv_mul]

/-! ### The sign of a component (R246) -/

theorem f64Exp_signed (l : Int) (x : F64) : f64Exp (signed l x) = f64Exp x := by
  have hmask : (0x8000000000000000#64).extractLsb' 52 11 = 0#11 := by decide
  unfold signed
  split
  · rw [f64Exp, BitVec.extractLsb'_or, hmask, BitVec.or_zero, f64Exp]
  · rfl

theorem f64Frac_signed (l : Int) (x : F64) : f64Frac (signed l x) = f64Frac x := by
  have hmask : (0x8000000000000000#64).extractLsb' 0 52 = 0#52 := by decide
  unfold signed
  split
  · rw [f64Frac, BitVec.extractLsb'_or, hmask, BitVec.or_zero, f64Frac]
  · rfl

theorem f64Neg_signed (l : Int) {x : F64} (hx : f64Neg x = false) : f64Neg (signed l x) = decide (l < 0) := by
  have hmask : (0x8000000000000000#64).getLsbD 63 = true := by decide
  unfold signed
  split
  · rename_i hl; rw [f64Neg, BitVec.getLsbD_or, hmask, Bool.or_true, decide_eq_true hl]
  · rename_i hl; rw [hx, decide_eq_false hl]

theorem f64Mag_signed (l : Int) (x : F64) : f64Mag (signed l x) = f64Mag x := by
  rw [f64Mag, f64Mag, f64Exp_signed, f64Frac_signed]

theorem f64ToRat_of_nonneg {x : F64} (hx : f64Neg x = false) : f64ToRat x = (f64Mag x : ℚ) / 2 ^ 1074 := by
  simp [f64ToRat, f64Scaled, hx]

/-- A signed component has the value of its magnitude with the sign of the level. -/
theorem f64ToRat_signed {l : Int} (hl : l ≠ 0) {x : F64} (hx : f64Neg x = false) :
    f64ToRat (signed l x) = l.sign * f64ToRat x := by
  rw [f64ToRat_of_nonneg hx, f64ToRat, f64Scaled, f64Neg_signed l hx, f64Mag_signed]
  rcases lt_or_gt_of_ne hl with hneg | hpos
  · simp [hneg, Int.sign_eq_neg_one_of_neg hneg, neg_div]
  · simp [hpos.not_gt, Int.sign_eq_one_of_pos hpos]

/-! ### Half a unit in the last place (R246)

Half a unit of `x` is the reciprocal of `2 ^ (1076 - f64Exp x)`, and `x` is twice its significand of them. So a bound of half
a unit on its distance from `l * K_MOD` is one on squares of integers, for `K_MOD^2` is the reciprocal of an integer. -/

/-- `x` lies within half a unit of its last place from the positive number whose square is `l^2 / n`, in integers. -/
def WithinHalfUlp (l n : Nat) (x : F64) : Prop :=
  f64Neg x = false ∧ 1 ≤ f64Exp x ∧ f64Exp x ≤ 1076 ∧
    (2 * (f64Sig x : ℤ) - 1) ^ 2 * n ≤ (l * 2 ^ (1076 - f64Exp x)) ^ 2 ∧
    (l * 2 ^ (1076 - f64Exp x)) ^ 2 ≤ (2 * (f64Sig x : ℤ) + 1) ^ 2 * n

/-- A positive normal value in half units of its last place. -/
theorem f64ToRat_eq_sig {x : F64} (hneg : f64Neg x = false) (hexp : 1 ≤ f64Exp x) :
    (f64ToRat x : ℝ) = 2 * f64Sig x * (2 ^ f64Exp x / 2 ^ 1076) := by
  obtain ⟨e, he⟩ := Nat.exists_eq_add_of_le' hexp
  rw [f64ToRat_of_nonneg hneg, f64Mag_eq_sig, he, Nat.add_sub_cancel, pow_succ (2 : ℝ) e, pow_add (2 : ℝ) 1074 2]
  have hne : (2 : ℝ) ^ 1074 ≠ 0 := by positivity
  push_cast
  generalize (2 : ℝ) ^ 1074 = w at *
  field_simp

/-- Within half a unit in integers is within half a unit in the reals. -/
theorem abs_sub_le_of_withinHalfUlp {l n : Nat} {x : F64} {k : ℝ} (hk : 0 ≤ k) (hkn : k ^ 2 * n = 1)
    (h : WithinHalfUlp l n x) : |(f64ToRat x : ℝ) - l * k| ≤ 2 ^ f64Exp x / 2 ^ 1076 := by
  obtain ⟨hneg, hexp, hexp', hlow, hhigh⟩ := h
  have hhalf : (2 : ℝ) ^ f64Exp x / 2 ^ 1076 = 1 / 2 ^ (1076 - f64Exp x) := by
    rw [← Nat.sub_add_cancel hexp', pow_add, Nat.add_sub_cancel]
    field_simp
  rw [f64ToRat_eq_sig hneg hexp, hhalf]
  have hlow' : (2 * (f64Sig x : ℝ) - 1) ^ 2 * n ≤ (l * 2 ^ (1076 - f64Exp x)) ^ 2 := by exact_mod_cast hlow
  have hhigh' : (l * 2 ^ (1076 - f64Exp x) : ℝ) ^ 2 ≤ (2 * (f64Sig x : ℝ) + 1) ^ 2 * n := by exact_mod_cast hhigh
  have hpos : (0 : ℝ) < 2 ^ (1076 - f64Exp x) := by positivity
  generalize (2 : ℝ) ^ (1076 - f64Exp x) = w at *
  have hsq : (0 : ℝ) ≤ k ^ 2 := sq_nonneg k
  have hscale (a : ℝ) : a ^ 2 * n * k ^ 2 = a ^ 2 := by rw [mul_assoc, mul_comm (n : ℝ), hkn, mul_one]
  have hbelow : 2 * (f64Sig x : ℝ) - 1 ≤ l * w * k := by
    refine (abs_le_of_sq_le_sq' ?_ (by positivity)).2
    calc (2 * (f64Sig x : ℝ) - 1) ^ 2 = (2 * (f64Sig x : ℝ) - 1) ^ 2 * n * k ^ 2 := (hscale _).symm
      _ ≤ (l * w) ^ 2 * k ^ 2 := mul_le_mul_of_nonneg_right hlow' hsq
      _ = (l * w * k) ^ 2 := (mul_pow _ _ 2).symm
  have habove : l * w * k ≤ 2 * (f64Sig x : ℝ) + 1 := by
    refine (abs_le_of_sq_le_sq' ?_ (by positivity)).2
    calc (l * w * k) ^ 2 = (l * w) ^ 2 * k ^ 2 := mul_pow _ _ 2
      _ ≤ (2 * (f64Sig x : ℝ) + 1) ^ 2 * n * k ^ 2 := mul_le_mul_of_nonneg_right hhigh' hsq
      _ = (2 * (f64Sig x : ℝ) + 1) ^ 2 := hscale _
  have hscaled : 2 * (f64Sig x : ℝ) * (1 / w) - l * k = (2 * (f64Sig x : ℝ) - l * w * k) / w := by field_simp
  rw [hscaled, abs_div, abs_of_pos hpos, div_le_div_iff_of_pos_right hpos, abs_le]
  constructor <;> linarith

/-- The magnitudes of the levels. -/
def magnitudes : Modulation → List Nat
  | .bpsk => [1]
  | .qpsk => [1]
  | .qam16 => [1, 3]
  | .qam64 => [1, 3, 5, 7]

theorem level_eq_zero_or_mem_magnitudes (m : Modulation) (u : Nat) : level m u = 0 ∨ (level m u).natAbs ∈ magnitudes m := by
  fun_cases level m u <;> simp [magnitudes]

/-- The table of R246, entry by entry. -/
theorem pointMag_withinHalfUlp (m : Modulation) :
    ∀ k ∈ magnitudes m, WithinHalfUlp k (levelEnergy m) (pointMag m k) := by
  unfold WithinHalfUlp
  cases m <;> decide

/-- A component of a point of the hardware is within half a unit in the last place of `level * K_MOD`. -/
theorem abs_component_sub_le {m : Modulation} {u : Nat} (h : level m u ≠ 0) :
    |(f64ToRat (signed (level m u) (pointMag m (level m u).natAbs)) : ℝ) - level m u * kMod m| ≤
      2 ^ f64Exp (signed (level m u) (pointMag m (level m u).natAbs)) / 2 ^ 1076 := by
  have hmag := pointMag_withinHalfUlp m _ ((level_eq_zero_or_mem_magnitudes m u).resolve_left h)
  have hnear := abs_sub_le_of_withinHalfUlp (kMod_nonneg m) (kMod_sq_mul_levelEnergy m) hmag
  obtain ⟨hneg, -⟩ := hmag
  have hsign : |((level m u).sign : ℝ)| = 1 := by exact_mod_cast Int.abs_sign_of_ne_zero h
  have hlevel : (level m u : ℝ) = (level m u).sign * ((level m u).natAbs : ℝ) := by
    rw [← Int.cast_natCast, ← Int.cast_mul, Int.sign_mul_natAbs]
  rw [f64Exp_signed, f64ToRat_signed h hneg]
  generalize pointMag m (level m u).natAbs = x at *
  calc |(((level m u).sign * f64ToRat x : ℚ) : ℝ) - level m u * kMod m|
      = |((level m u).sign : ℝ) * ((f64ToRat x : ℝ) - (level m u).natAbs * kMod m)| := by
        rw [mul_sub, ← mul_assoc, ← hlevel]
        push_cast
        rfl
    _ = |(f64ToRat x : ℝ) - (level m u).natAbs * kMod m| := by rw [abs_mul, hsign, one_mul]
    _ ≤ 2 ^ f64Exp x / 2 ^ 1076 := hnear

/-- Settles O42: I and Q components are made alike, from the table's magnitude and the level's sign. -/
theorem constellationConstantsAreNearest : Obligations.ConstellationConstantsAreNearest :=
  fun _ _ _ h => ⟨abs_component_sub_le h, abs_component_sub_le h, rfl⟩

end Sys2Proof.Scope
end

section
/-! PROOFS. The waveforms of symbols and of the training preamble as extended and windowed periods, and their spectra bin by bin
(45_symbol_assembler.md R261 to R270, 46_preamble_signal.md R291 to R294). -/

namespace Sys2Proof.Scope

open Sys2Proof.Machine Sys2Proof.Safety Sys2Proof.Laws

/-! ### Extended and windowed periods (R267, R268) -/

theorem extend_getElem? {α : Type} (x : Vector α 64) {cp len n k : Nat} (hn : n < len)
    (hk : (n + (64 - cp % 64)) % 64 = k) : (extend x cp len)[n]? = x.toList[k]? := by
  subst hk
  simp [extend, periodAt, hn, Vector.get_eq_getElem, Nat.mod_lt]

theorem window_getElem?_inside {α : Type} (A : Arith α) (w : List α) {n : Nat} (h1 : 1 ≤ n) (h2 : n + 1 < w.length) :
    (window A w)[n]? = w[n]? := by
  rw [window, List.getElem?_modify_ne _ _ (by omega), List.getElem?_modify_ne _ _ (by omega)]

theorem window_getElem?_first {α : Type} (A : Arith α) {w : List α} (h : 2 ≤ w.length) :
    (window A w)[0]? = w[0]?.map A.half := by
  rw [window, List.getElem?_modify_ne _ _ (by omega), List.getElem?_modify_eq]
  rfl

theorem window_getElem?_last {α : Type} (A : Arith α) {w : List α} {n : Nat} (h : 1 ≤ n) (hn : w.length = n + 1) :
    (window A w)[n]? = w[n]?.map A.half := by
  rw [window, hn, Nat.add_sub_cancel, List.getElem?_modify_eq, List.getElem?_modify_ne _ _ (by omega)]
  rfl

/-- Inside a waveform the period stands unchanged; `k` is the position in the period. -/
theorem waveform_inside {α : Type} (A : Arith α) (x : Vector α 64) {cp len n k : Nat} (h1 : 1 ≤ n) (h2 : n + 1 < len)
    (hk : (n + (64 - cp % 64)) % 64 = k) : (window A (extend x cp len))[n]? = x.toList[k]? := by
  rw [window_getElem?_inside A _ h1 (by rwa [extend_length]), extend_getElem? x (by omega) hk]

theorem waveform_first {α : Type} (A : Arith α) (x : Vector α 64) {cp len k : Nat} (h : 2 ≤ len)
    (hk : (0 + (64 - cp % 64)) % 64 = k) : (window A (extend x cp len))[0]? = x.toList[k]?.map A.half := by
  rw [window_getElem?_first A (by rwa [extend_length]), extend_getElem? x (by omega) hk]

theorem waveform_last {α : Type} (A : Arith α) (x : Vector α 64) {cp n k : Nat} (h : 1 ≤ n)
    (hk : (n + (64 - cp % 64)) % 64 = k) : (window A (extend x cp (n + 1)))[n]? = x.toList[k]?.map A.half := by
  rw [window_getElem?_last A h (extend_length x cp (n + 1)), extend_getElem? x (by omega) hk]

/-! ### One symbol's samples (R269, R270) -/

/-- The 64-sample period a symbol's waveform extends (R269). -/
def symbolPeriod {α : Type} (A : Arith α) (d : List α) (idx : Nat) : Vector α 64 :=
  A.ifft (spectrum64 A (assemble53 A d idx))

theorem ofdmSymbol_first {α : Type} (A : Arith α) (d : List α) (idx : Nat) :
    (ofdmSymbol A d idx)[0]? = (symbolPeriod A d idx).toList[48]?.map A.half :=
  waveform_first A _ (by omega) rfl

theorem ofdmSymbol_last {α : Type} (A : Arith α) (d : List α) (idx : Nat) :
    (ofdmSymbol A d idx)[80]? = (symbolPeriod A d idx).toList[0]?.map A.half :=
  waveform_last A _ (by omega) rfl

/-- Settles O36: between the ends stands the period from its sample 49 on, and each end is half a sample of it. -/
theorem symbolEdgesAndPrefix : Obligations.SymbolEdgesAndPrefix := by
  intro α A d d' idx idx'
  refine ⟨ofdmSymbol_length A d idx, ofdmSymbol_first A d idx, ?body, ?cyclicPart, ofdmSymbol_last A d idx, ?seam⟩
  case body => exact fun n h1 h2 => waveform_inside A _ (by omega) (by omega) (by omega)
  case cyclicPart => exact fun n h1 h2 => waveform_inside A _ h1 (by omega) (by omega)
  case seam =>
    have hu := List.getElem?_eq_getElem (show 0 < (symbolPeriod A d idx).toList.length by simp)
    have hv := List.getElem?_eq_getElem (show 48 < (symbolPeriod A d' idx').toList.length by simp)
    refine ⟨_, _, _, _, ?_, ?_, hu, hv, rfl⟩
    · rw [ofdmSymbol_last, hu, Option.map_some]
    · rw [ofdmSymbol_first, hv, Option.map_some]

/-! ### The bins of a spectrum (R264) -/

/-- DC and the guard band. -/
abbrev NullBin (b : Nat) : Prop := b = 0 ∨ (27 ≤ b ∧ b ≤ 37)

/-- The slot of the 53-tone array that stands on a bin other than a null bin. -/
def slotOfBin (b : Nat) : Nat := if b ≤ 26 then b + 26 else b - 38

theorem slotOfBin_lt (b : Fin 64) : slotOfBin b < 53 := by unfold slotOfBin; split <;> omega

theorem spectrum64_get_null {α : Type} (A : Arith α) (a : List α) {b : Fin 64} (h : NullBin b) :
    (spectrum64 A a).get b = A.zero := by
  rw [spectrum64_get]
  rcases h with h | ⟨h1, h2⟩
  · rw [if_pos h]
  · rw [if_neg (by omega), if_neg (by omega), if_pos h2]

theorem spectrum64_get_tone {α : Type} (A : Arith α) (a : List α) {b : Fin 64} (h : ¬ NullBin b) :
    (spectrum64 A a).get b = a.getD (slotOfBin b) A.zero := by
  rw [spectrum64_get, if_neg (by omega), slotOfBin]
  split
  · rfl
  · rw [if_neg (by omega)]

/-- Slot t is subcarrier t - 26, on bin (t - 26) mod 64 (R260, R264). -/
theorem spectrum64_get_slot {α : Type} (A : Arith α) (a : List α) {b : Fin 64} {t : Nat} (ht : t < 53) (hdc : t ≠ 26)
    (hb : b.val = (t + 38) % 64) : (spectrum64 A a).get b = a.getD t A.zero := by
  have hslot : slotOfBin b = t := by unfold slotOfBin; split <;> omega
  rw [spectrum64_get_tone A a (by omega), hslot]

/-! ### The 53-tone array (R261, R263) -/

theorem getElem?_foldl_set_zip_of_notMem {α : Type} {slots : List Nat} {t : Nat} (ht : t ∉ slots) (d a : List α) :
    ((slots.zip d).foldl (fun a x => a.set x.1 x.2) a)[t]? = a[t]? := by
  induction slots generalizing d a with
  | nil => rfl
  | cons s slots ih =>
    obtain ⟨hs, ht⟩ := List.ne_and_not_mem_of_not_mem_cons ht
    cases d with
    | nil => rfl
    | cons v d => rw [List.zip_cons_cons, List.foldl_cons, ih ht, List.getElem?_set_ne (Ne.symm hs)]

/-- Values stored at distinct slots stay there. -/
theorem getElem?_foldl_set_zip {α : Type} {slots : List Nat} (hnodup : slots.Nodup) {d a : List α} {m t : Nat} {v : α}
    (hm : slots[m]? = some t) (hv : d[m]? = some v) (ht : t < a.length) :
    ((slots.zip d).foldl (fun a x => a.set x.1 x.2) a)[t]? = some v := by
  induction slots generalizing d a m with
  | nil => simp at hm
  | cons s slots ih =>
    obtain ⟨hs, hnodup⟩ := List.nodup_cons.mp hnodup
    cases d with
    | nil => simp at hv
    | cons w d =>
      rw [List.zip_cons_cons, List.foldl_cons]
      cases m with
      | zero =>
        obtain rfl : s = t := Option.some.inj hm
        obtain rfl : w = v := Option.some.inj hv
        rw [getElem?_foldl_set_zip_of_notMem hs, List.getElem?_set_self ht]
      | succ m => exact ih hnodup hm hv (by rwa [List.length_set])

@[simp] theorem placeData_length {α : Type} (A : Arith α) (d : List α) : (placeData A d).length = 53 := by
  rw [placeData, foldl_set_length Prod.fst Prod.snd, List.length_replicate]

/-- Data value m stands in slot DSLOT[m] (R261). -/
theorem placeData_getElem? {α : Type} (A : Arith α) {d : List α} {m t : Nat} {v : α} (hm : dataSlots[m]? = some t)
    (hv : d[m]? = some v) (ht : t < 53) : (placeData A d)[t]? = some v :=
  getElem?_foldl_set_zip (by decide) hm hv (by rwa [List.length_replicate])

/-- The slots of the array: DC, the four pilots, and the placed data (R263). -/
theorem assemble53_getElem? {α : Type} (A : Arith α) (d : List α) (idx t : Nat) :
    (assemble53 A d idx)[t]? =
      if t = 26 then some A.zero
      else if t = 47 then some (A.point .bpsk (-polarity idx) 0)
      else if t = 33 ∨ t = 19 ∨ t = 5 then some (A.point .bpsk (polarity idx) 0)
      else (placeData A d)[t]? := by
  simp only [assemble53, List.getElem?_set, List.length_set, placeData_length, Nat.reduceLT, if_true, ite_or, @eq_comm _ _ t]

/-- DSLOT lists the slots that are neither pilots nor DC, in ascending order (R261). -/
theorem dataSlots_eq : dataSlots = (List.range 53).filter fun t => t ∉ [5, 19, 26, 33, 47] := by decide

theorem mem_dataSlots {t : Nat} : t ∈ dataSlots ↔ t < 53 ∧ t ∉ [5, 19, 26, 33, 47] := by
  rw [dataSlots_eq, List.mem_filter, List.mem_range, decide_eq_true_iff]

/-- A data value's bin in the spectrum of a symbol. -/
theorem symbolSpectrum_data {α : Type} (A : Arith α) {d : List α} (idx : Nat) {m t : Nat} {v : α} {b : Fin 64}
    (hm : dataSlots[m]? = some t) (hv : d[m]? = some v) (hb : b.val = (t + 38) % 64) :
    (spectrum64 A (assemble53 A d idx)).get b = v := by
  obtain ⟨ht, hdata⟩ := mem_dataSlots.mp (List.mem_of_getElem? hm)
  simp only [List.mem_cons, List.not_mem_nil, or_false, not_or] at hdata
  obtain ⟨h5, h19, h26, h33, h47⟩ := hdata
  rw [spectrum64_get_slot A _ ht h26 hb, List.getD_eq_getElem?_getD, assemble53_getElem?, if_neg h26, if_neg h47,
    if_neg (by omega), placeData_getElem? A hm hv ht, Option.getD_some]

/-- A pilot's bin: slots 5, 19 and 33 carry the polarity, slot 47 its negative. -/
theorem symbolSpectrum_pilot {α : Type} (A : Arith α) (d : List α) (idx : Nat) {t : Nat} {b : Fin 64}
    (ht : t ∈ [5, 19, 33, 47]) (hb : b.val = (t + 38) % 64) :
    (spectrum64 A (assemble53 A d idx)).get b = A.point .bpsk (if t = 47 then -polarity idx else polarity idx) 0 := by
  have ht' : t = 5 ∨ t = 19 ∨ t = 33 ∨ t = 47 := by simpa using ht
  rw [spectrum64_get_slot A _ (by omega) (by omega) hb, List.getD_eq_getElem?_getD, assemble53_getElem?,
    if_neg (by omega)]
  split
  · rfl
  · rw [if_pos (by omega), Option.getD_some]

/-! ### The polarity sequence (R262) -/

theorem polarity_add_127 (idx : Nat) : polarity (idx + 127) = polarity idx := by
  rw [polarity, polarity, Nat.add_mod_right]

/-- POL is the scrambler sequence of the all-ones seed, a 1 as -1. -/
theorem polTable_eq : polTable = (scramble 0x7F#7 (zeros 127)).map fun z => if z then -1 else 1 := by decide

theorem polarity_eq {i : Nat} (h : i < 127) :
    polarity i = if (scramble 0x7F#7 (zeros 127)).getD i false then -1 else 1 := by
  rw [polarity, Nat.mod_eq_of_lt h, polTable_eq]
  simp [List.getD_eq_getElem?_getD, scramble_zeros_getElem? _ h]

/-- Settles O35: each bin is a slot of the 53-tone array, and POL is read off the scrambled zeros. -/
theorem symbolSpectrumLayout : Obligations.SymbolSpectrumLayout := by
  refine ⟨fun d idx hd => ⟨fun b hb => spectrum64_get_null hw _ hb, ?_, ?_, ?_, ?_, fun m hm => ?data⟩,
    polarity_add_127, fun i hi => polarity_eq hi⟩
  case data =>
    have hslots : m < dataSlots.length := hm
    have hvals : m < d.length := by rwa [hd]
    rw [← dataSlots_eq]
    refine ⟨dataSlots[m], ⟨(dataSlots[m] + 38) % 64, Nat.mod_lt _ (by omega)⟩, List.getElem?_eq_getElem hslots, rfl, ?_⟩
    rw [symbolSpectrum_data hw idx (List.getElem?_eq_getElem hslots) (List.getElem?_eq_getElem hvals) rfl]
    exact List.getElem?_eq_getElem hvals
  · exact symbolSpectrum_pilot hw d idx (t := 5) (by decide) rfl
  · exact symbolSpectrum_pilot hw d idx (t := 19) (by decide) rfl
  · exact symbolSpectrum_pilot hw d idx (t := 33) (by decide) rfl
  · exact symbolSpectrum_pilot hw d idx (t := 47) (by decide) rfl

/-! ### The training waveforms (46_preamble_signal.md R291 to R294) -/

/-- A tone of the spectrum of a pattern of signs. -/
theorem patternSpectrum_tone {α : Type} (A : Arith α) (f : Int → α) {pattern : List Int} (hlen : pattern.length = 53)
    {b : Fin 64} (h : ¬ NullBin b) : (spectrum64 A (pattern.map f)).get b = f (pattern.getD (slotOfBin b) 0) := by
  have hslot : slotOfBin b < pattern.length := hlen ▸ slotOfBin_lt b
  rw [spectrum64_get_tone A _ h, List.getD_eq_getElem _ _ (by rwa [List.length_map]), List.getElem_map,
    List.getD_eq_getElem _ _ hslot]

/-- The signs of the short tones by bin (R291, log 22). -/
theorem shortPattern_slotOfBin : ∀ b : Fin 64, ¬ NullBin b → shortPattern.getD (slotOfBin b) 0 =
    if b.val ∈ [40, 48, 60, 12, 16, 20, 24] then 1 else if b.val ∈ [44, 52, 56, 4, 8] then -1 else 0 := by decide

/-- The signs of the long tones by bin (R293). -/
theorem longPattern_slotOfBin : ∀ b : Fin 64, ¬ NullBin b → longPattern.getD (slotOfBin b) 0 =
    if b.val ∈ [40, 41, 44, 46, 53, 54, 57, 59, 2, 3, 6, 8, 10, 11, 12, 13, 14, 17, 18, 20, 22] then -1 else 1 := by decide

/-- Settles O37: both waveforms are windowed extensions, and the tones of the spectra are read off the two patterns. -/
theorem trainingWaveformsRepeatTheirPeriod : Obligations.TrainingWaveformsRepeatTheirPeriod := by
  refine ⟨fun α A => ⟨shortTraining_length A, longTraining_length A, ?shortInside,
    waveform_first A _ (by omega) rfl, waveform_last A _ (by omega) rfl, ?longInside,
    waveform_first A _ (by omega) rfl, waveform_last A _ (by omega) rfl, ?spectra⟩, by decide, by decide, by decide⟩
  case shortInside => exact fun n h1 h2 => waveform_inside A _ h1 (by omega) (by omega)
  case longInside => exact fun n h1 h2 => waveform_inside A _ h1 (by omega) (by omega)
  case spectra =>
    refine ⟨_, _, rfl, rfl, fun b =>
      ⟨fun h => ⟨spectrum64_get_null A _ h, spectrum64_get_null A _ h⟩, fun h => ⟨?shortTone, ?longTone⟩⟩⟩
    case shortTone =>
      rw [patternSpectrum_tone A _ rfl h, shortPattern_slotOfBin b h]
      split_ifs <;> rfl
    case longTone => rw [patternSpectrum_tone A _ rfl h, longPattern_slotOfBin b h]

end Sys2Proof.Scope
end

section
/-! PROOFS. The SIGNAL bits: the field's bits by position, its LENGTH read back as a number, and its parity
(46_preamble_signal.md R301). -/

namespace Sys2Proof.Scope

open Sys2Proof.Machine Sys2Proof.Safety Sys2Proof.Laws

/-! ### The low bits of a value, LSB first -/

@[simp] theorem bitsLsbFirst_length (n v : Nat) : (bitsLsbFirst n v).length = n := by simp [bitsLsbFirst]

theorem bitsLsbFirst_getElem? {n t : Nat} (v : Nat) (ht : t < n) : (bitsLsbFirst n v)[t]? = some (v.testBit t) := by
  simp [bitsLsbFirst, ht]

/-- Adding up the low bits of a value with their weights gives its residue. -/
theorem foldl_testBit_eq_mod (v n : Nat) :
    (List.range n).foldl (fun acc t => acc + (v.testBit t).toNat * 2 ^ t) 0 = v % 2 ^ n := by
  induction n with
  | zero => simp [Nat.mod_one]
  | succ n ih =>
    rw [List.range_succ, List.foldl_append, ih, List.foldl_cons, List.foldl_nil, Nat.toNat_testBit, Nat.mod_pow_succ,
      Nat.mul_comm]

/-! ### Parity -/

/-- The exclusive or of a list of bits folded from `a`, added to the count of the list's ones, has the parity of `a`. -/
theorem count_add_foldl_xor (l : List Bool) (a : Bool) :
    (l.count true + (l.foldl (fun x y => x ^^ y) a).toNat) % 2 = a.toNat := by
  induction l generalizing a with
  | nil => cases a <;> rfl
  | cons b l ih =>
    have hxor : (a ^^ b).toNat = (a.toNat + b.toNat) % 2 := by cases a <;> cases b <;> rfl
    have hcount : (b :: l).count true = l.count true + b.toNat := by cases b <;> simp
    have hrest := ih (a ^^ b)
    have ha := a.toNat_lt
    rw [List.foldl_cons, hcount]
    omega

/-- A list of bits with its parity bit appended holds an even number of ones. -/
theorem count_append_parity_even (l : List Bool) : (l ++ [l.foldl (fun x y => x ^^ y) false]).count true % 2 = 0 := by
  have hsum := count_add_foldl_xor l false
  rw [List.count_append]
  cases h : l.foldl (fun x y => x ^^ y) false <;> simpa [h] using hsum

/-! ### The field by position (R301) -/

section
variable (p : RateProfile) (len : Nat)

@[simp] theorem signalHead_length : (signalHead p len).length = 17 := by simp [signalHead]

@[simp] theorem signalBits_length : (signalBits p len).length = 24 := by simp [signalBits]

theorem signalBits_getElem?_head {t : Nat} (ht : t < 17) : (signalBits p len)[t]? = (signalHead p len)[t]? := by
  rw [signalBits, List.append_assoc, List.getElem?_append_left (by rwa [signalHead_length])]

theorem signalBits_getElem?_rate {t : Nat} (ht : t < 4) : (signalBits p len)[t]? = some (p.rateCode.getLsbD t) := by
  rw [signalBits_getElem?_head p len (by omega), signalHead, List.append_assoc,
    List.getElem?_append_left (by rwa [bitsLsbFirst_length]), bitsLsbFirst_getElem? _ ht, BitVec.testBit_toNat]

theorem signalBits_getElem?_reserved : (signalBits p len)[4]? = some false := by
  rw [signalBits_getElem?_head p len (by omega), signalHead, List.append_assoc, List.getElem?_append_right (by simp)]
  simp

theorem signalBits_getElem?_length {t : Nat} (ht : t < 12) : (signalBits p len)[5 + t]? = some (len.testBit t) := by
  rw [signalBits_getElem?_head p len (by omega), signalHead, List.getElem?_append_right (by simp), List.length_append,
    bitsLsbFirst_length, List.length_singleton, Nat.add_sub_cancel_left, bitsLsbFirst_getElem? _ ht]

theorem signalBits_getElem?_tail {t : Nat} (h1 : 18 ≤ t) (h2 : t < 24) : (signalBits p len)[t]? = some false := by
  rw [signalBits, List.getElem?_append_right (by simpa using h1), List.getElem?_replicate_of_lt (by simp; omega)]

theorem signalBits_take : (signalBits p len).take 18 = signalHead p len ++ [(signalHead p len).foldl (fun a b => a ^^ b) false] :=
  List.take_left' (by simp)

/-- The LENGTH field read back as a number. -/
theorem signalBits_lengthField :
    (List.range 12).foldl (fun acc t => acc + ((signalBits p len).getD (5 + t) false).toNat * 2 ^ t) 0 = len % 2 ^ 12 := by
  rw [← foldl_testBit_eq_mod]
  refine List.foldl_ext _ _ _ fun acc t ht => ?_
  rw [List.getD_eq_getElem?_getD, signalBits_getElem?_length p len (List.mem_range.mp ht), Option.getD_some]

end

/-- Settles O34: each field is read at its positions; LENGTH fits its 12 bits, and bit 17 makes the ones of bits 0 to 17 even. -/
theorem signalBitsCarryRateLengthAndEvenParity : Obligations.SignalBitsCarryRateLengthAndEvenParity := by
  intro p len hlen
  refine ⟨signalBits_length p len, fun t ht => signalBits_getElem?_rate p len ht, signalBits_getElem?_reserved p len, ?length,
    ?parity, fun t h1 h2 => signalBits_getElem?_tail p len h1 h2⟩
  case length => rw [signalBits_lengthField, Nat.mod_eq_of_lt (by omega)]
  case parity => rw [signalBits_take, count_append_parity_even]

end Sys2Proof.Scope
end

section
/-! PROOFS. How commands end: illegal words, whole completions and whole failures, NOP, and the error codes raised exactly under
their conditions in the order of 60_exceptions.md R366 (R361 to R366, R372, 47_frame.md R328). -/

namespace Sys2Proof.Scope

open Sys2Proof.Machine Sys2Proof.Safety Sys2Proof.Laws

/-! ### Illegal command words (60_exceptions.md R364) -/

/-- The three cases of R364: reserved bits, an OP of no command, an OP of the detector in a block without it. -/
def IllegalWord (hasDetector : Bool) (w : Word) : Prop :=
  w.extractLsb' 8 24 ≠ 0 ∨ (∀ i, w.extractLsb' 0 8 ≠ opcode i) ∨
    (hasDetector = false ∧ (w.extractLsb' 0 8 = 0x20#8 ∨ w.extractLsb' 0 8 = 0x21#8))

/-- A command whose OP is one of the detector's is none of a block without the detector. -/
theorem wellFormed_false_of_detectorOp {i : Instr} (h : opcode i = 0x20#8 ∨ opcode i = 0x21#8) :
    i.wellFormed false = false := by
  cases i with
  | detectShort | detectLong => rfl
  | _ => exact absurd h (by decide)

/-- No illegal word decodes: a word that does is the encoding of a command the block has. -/
theorem decode_of_illegalWord {d : Bool} {w : Word} (h : IllegalWord d w) : ∃ e, decode d w = .error e := by
  cases hd : decode d w with
  | error e => exact ⟨e, rfl⟩
  | ok i =>
    obtain ⟨hrsvd, hop⟩ := eq_encode_iff.mp (eq_encode_of_decode hd)
    have hopcode := eq_opcode_of_decodeOp hop
    rcases h with h | h | ⟨rfl, h⟩
    · exact absurd hrsvd h
    · exact absurd hopcode (h i)
    · rw [hopcode] at h
      exact absurd (decode_wellFormed hd) (by rw [wellFormed_false_of_detectorOp h]; decide)

theorem completeCommand_of_decode_error {s : State} {e : DecodeError} (h : decode s.params.hasDetector s.cmd = .error e) :
    s.completeCommand = .next (s.failWith .illegalCommand) := by
  rw [State.completeCommand, h]

/-- Settles O4: the engine's turn on a word that does not decode is the error completion. -/
theorem illegalWordsRaiseIllegalCommand : Obligations.IllegalWordsRaiseIllegalCommand := by
  intro s hturn hillegal
  obtain ⟨e, he⟩ := decode_of_illegalWord (d := s.params.hasDetector) (w := s.cmd) hillegal
  exact ⟨_, (step_engine hturn).trans (completeCommand_of_decode_error he), failed_failWith s .illegalCommand⟩

/-! ### Whole completions and whole failures (60_exceptions.md R365, R372) -/

/-- The next states of a command: its completion with the outputs of its rule, or its failure with the rule's error. -/
theorem exec_next_iff {i : Instr} {s t : State} :
    exec i s = .next t ↔
      (∃ e, effectsOf i s = .ok e ∧ t = s.succeedWith e) ∨ (∃ c, effectsOf i s = .error (.error c) ∧ t = s.failWith c) := by
  rw [exec_eq_finish, finish_next_iff]

/-- FOUND is set by the detect commands alone (R372). -/
theorem detector_of_found {i : Instr} {s : State} {e : Effects} (h : effectsOf i s = .ok e) (hfound : e.found = true) :
    i = .detectShort ∨ i = .detectLong := by
  have hnone : i.needsDetector = false → e.found = false := fun hi => by
    rw [Effects.found, (effectsOf_outputs h).detection hi]
  cases i with
  | detectShort => exact .inl rfl
  | detectLong => exact .inr rfl
  | _ => rw [hnone rfl] at hfound; cases hfound

/-- Settles O7: a completion without error keeps all but STATUS and the outputs, a failure all but STATUS and the phase. -/
theorem everyCommandCompletesOrFailsWhole : Obligations.EveryCommandCompletesOrFailsWhole := by
  intro i s t h
  rcases exec_next_iff.mp h with ⟨e, he, rfl⟩ | ⟨c, hc, rfl⟩
  · exact .inl ⟨e.found, completed_succeedWith s e, detector_of_found he⟩
  · exact .inr ⟨c, effectsOf_namesItsError i s c hc, failed_failWith s c⟩

/-! ### NOP (47_frame.md R328) -/

/-- STATUS after a completion without error that found nothing, CMD_DROPPED being 0: DONE alone. -/
theorem statusWord_succeeded {st : Status} (h : st.cmdDropped = false) : (st.succeeded false).word false = 0x00000002#32 := by
  apply BitVec.eq_of_toNat_eq
  rw [statusWord_toNat, succeeded_cmdDropped, h]
  rfl

/-- Settles O12: the rule of NOP has no outputs. -/
theorem nopOnlyCompletes : Obligations.NopOnlyCompletes := by
  refine ⟨fun d => decode_encode_of_wellFormed (i := .nop) rfl, fun s => ?_⟩
  exact ⟨_, exec_of_effects (e := Effects.nothing) rfl, completed_succeedWith s _, ⟨rfl, rfl⟩, rfl, statusWord_succeeded⟩

/-! ### The checks of a command in their order (60_exceptions.md R366) -/

theorem rateRow_eq_none {r : Nat} : rateRow r = none ↔ 7 < r := by
  match r with
  | 0 | 1 | 2 | 3 | 4 | 5 | 6 | 7 => simp [rateRow]
  | n + 8 => simp [rateRow]

/-- The invalid selectors (40_rate_sizing.md R142). -/
theorem profile_eq_none {bw : BitVec 2} {rate : BitVec 4} : profile bw rate = none ↔ rate.toNat > 7 ∨ bw.toNat > 1 := by
  unfold profile
  split
  · rw [rateRow_eq_none]; omega
  · simp; omega

theorem exists_profile {bw : BitVec 2} {rate : BitVec 4} (hrate : rate.toNat ≤ 7) (hbw : bw.toNat ≤ 1) :
    ∃ p, profile bw rate = some p := by
  rw [← Option.ne_none_iff_exists', ne_eq, profile_eq_none]
  omega

/-- The error a command raises, each check made only when the earlier ones pass. -/
inductive Raises (i : Instr) (s : State) : ErrorCode → Prop
  | invalidDataRate (needs : NeedsProfile i) (invalid : profile s.snap.bw s.snap.rate = none) : Raises i s .invalidDataRate
  | psduTooLarge (p : RateProfile) (checks : ChecksPsduLen i) (valid : profile s.snap.bw s.snap.rate = some p)
      (long : s.params.maxPsdu < s.snap.psduLen.toNat) : Raises i s .psduTooLarge
  | bufferSizeMismatch (p : RateProfile) (valid : NeedsProfile i → profile s.snap.bw s.snap.rate = some p)
      (short : ChecksPsduLen i → s.snap.psduLen.toNat ≤ s.params.maxPsdu) (mismatch : SizeMismatch s p i) :
      Raises i s .bufferSizeMismatch

section
variable {α β : Type} {s : State} {c : ErrorCode}

/-- What follows and raises no error leaves the errors of the checks. -/
theorem bind_raises_iff {x : Except Stop α} {f : α → Except Stop β} (hf : ∀ a, RaisesNoError (f a)) :
    (x >>= f) = .error (.error c) ↔ x = .error (.error c) := by
  rw [bind_eq_error]
  exact or_iff_left fun ⟨a, _, h⟩ => hf a c h

theorem argProfile_bind_raises {f : RateProfile → Except Stop β} :
    (s.argProfile >>= f) = .error (.error c) ↔
      (profile s.snap.bw s.snap.rate = none ∧ c = .invalidDataRate) ∨
      ∃ p, profile s.snap.bw s.snap.rate = some p ∧ f p = .error (.error c) := by
  simp only [bind_eq_error, argProfile_eq_error, argProfile_eq_ok, Stop.error.injEq]

theorem argPsduLen_bind_raises {f : Nat → Except Stop β} :
    (s.argPsduLen >>= f) = .error (.error c) ↔
      (s.params.maxPsdu < s.snap.psduLen.toNat ∧ c = .psduTooLarge) ∨
      (s.snap.psduLen.toNat ≤ s.params.maxPsdu ∧ f s.snap.psduLen.toNat = .error (.error c)) := by
  simp only [bind_eq_error, argPsduLen_eq_error, argPsduLen_eq_ok, Stop.error.injEq, and_assoc, exists_eq_left']

theorem require_bind_raises {b : Bool} {c' : ErrorCode} {f : Unit → Except Stop β} :
    (require b c' >>= f) = .error (.error c) ↔ (b = false ∧ c = c') ∨ (b = true ∧ f () = .error (.error c)) := by
  cases b <;> simp [eq_comm]

theorem pure_raises {a : α} : (pure a : Except Stop α) = .error (.error c) ↔ False := by simp [pure, Except.pure]

end

/-- The checks of a command with a PSDU: the selector, PSDU_LEN, the sizes. -/
theorem raises_psdu_iff {i : Instr} {s : State} {c : ErrorCode} (hp : NeedsProfile i) (hl : ChecksPsduLen i) :
    Raises i s c ↔
      (profile s.snap.bw s.snap.rate = none ∧ c = .invalidDataRate) ∨
      ∃ p, profile s.snap.bw s.snap.rate = some p ∧
        ((s.params.maxPsdu < s.snap.psduLen.toNat ∧ c = .psduTooLarge) ∨
          (s.snap.psduLen.toNat ≤ s.params.maxPsdu ∧ SizeMismatch s p i ∧ c = .bufferSizeMismatch)) := by
  constructor
  · rintro (⟨-, hnone⟩ | ⟨p, -, hsome, hlong⟩ | ⟨p, hsome, hshort, hsize⟩)
    · exact .inl ⟨hnone, rfl⟩
    · exact .inr ⟨p, hsome, .inl ⟨hlong, rfl⟩⟩
    · exact .inr ⟨p, hsome hp, .inr ⟨hshort hl, hsize, rfl⟩⟩
  · rintro (⟨hnone, rfl⟩ | ⟨p, hsome, ⟨hlong, rfl⟩ | ⟨hshort, hsize, rfl⟩⟩)
    · exact .invalidDataRate hp hnone
    · exact .psduTooLarge p hl hsome hlong
    · exact .bufferSizeMismatch p (fun _ => hsome) (fun _ => hshort) hsize

/-- The checks of a stage command with a profile: the selector, the sizes. -/
theorem raises_stage_iff {i : Instr} {s : State} {c : ErrorCode} (hp : NeedsProfile i) (hl : ¬ ChecksPsduLen i) :
    Raises i s c ↔
      (profile s.snap.bw s.snap.rate = none ∧ c = .invalidDataRate) ∨
      ∃ p, profile s.snap.bw s.snap.rate = some p ∧ SizeMismatch s p i ∧ c = .bufferSizeMismatch := by
  constructor
  · rintro (⟨-, hnone⟩ | ⟨p, hchecks, -, -⟩ | ⟨p, hsome, -, hsize⟩)
    · exact .inl ⟨hnone, rfl⟩
    · exact absurd hchecks hl
    · exact .inr ⟨p, hsome hp, hsize, rfl⟩
  · rintro (⟨hnone, rfl⟩ | ⟨p, hsome, hsize, rfl⟩)
    · exact .invalidDataRate hp hnone
    · exact .bufferSizeMismatch p (fun _ => hsome) (fun h => absurd h hl) hsize

/-- A command without a profile has its sizes alone to check, whatever the profile. -/
theorem raises_plain_iff {i : Instr} {s : State} {c : ErrorCode} {m : Prop} (hp : ¬ NeedsProfile i) (hl : ¬ ChecksPsduLen i)
    (hm : ∀ p, SizeMismatch s p i ↔ m) : Raises i s c ↔ m ∧ c = .bufferSizeMismatch := by
  constructor
  · rintro (⟨hneeds, -⟩ | ⟨p, hchecks, -, -⟩ | ⟨p, -, -, hsize⟩)
    · exact absurd hneeds hp
    · exact absurd hchecks hl
    · exact ⟨(hm p).mp hsize, rfl⟩
  · rintro ⟨hsize, rfl⟩
    exact .bufferSizeMismatch signalProfile (fun h => absurd h hp) (fun h => absurd h hl) ((hm _).mpr hsize)

/-- Not a whole number of periods, rate by rate (42_encoder_puncturer.md R199). -/
theorem mod_period_ne_zero {r : CodingRate} {n : Nat} :
    n % r.period ≠ 0 ↔ (r = .twoThirds ∧ n % 4 ≠ 0) ∨ (r = .threeQuarters ∧ n % 6 ≠ 0) := by
  cases r <;> simp [CodingRate.period, Nat.mod_one]

theorem scanBuffer_raisesNoError (s : State) (n : Nat) : RaisesNoError (s.scanBuffer n) := by
  unfold State.scanBuffer
  split
  · exact raisesNoError_ok _
  · intro c h
    obtain ⟨k, -, -, -, h⟩ := engineSamples_eq_error h
    cases h

/-- A command without checks. -/
theorem raises_iff_of_raisesNoError {i : Instr} {s : State} {c : ErrorCode} (h : RaisesNoError (effectsOf i s))
    (hp : ¬ NeedsProfile i) (hl : ¬ ChecksPsduLen i) (hm : ∀ p, ¬ SizeMismatch s p i) :
    effectsOf i s = .error (.error c) ↔ Raises i s c := by
  rw [raises_plain_iff hp hl fun p => iff_false_intro (hm p), false_and, iff_false]
  exact h c

/-- A rule that reads after its checks, or not at all, and raises nothing else stops with the errors of its checks. -/
theorem effectsOf_raises_iff {i : Instr} {s : State} {c : ErrorCode} : effectsOf i s = .error (.error c) ↔ Raises i s c := by
  have hbits := engineBits_raisesNoError s 0
  have hbytes := engineBytes_raisesNoError s .inMem 0
  cases i with
  | nop | genPreamble => exact raises_iff_of_raisesNoError (raisesNoError_ok _) id id fun _ => id
  | detectShort | detectLong =>
    exact raises_iff_of_raisesNoError ((scanBuffer_raisesNoError s _).bind fun _ => raisesNoError_ok _) id id fun _ => id
  | genSignal | frameSizing =>
    refine ((bind_raises_iff fun _ => raisesNoError_ok _).trans ?_).trans (Iff.symm (raises_psdu_iff trivial trivial))
    simp only [State.argsSizing, argProfile_bind_raises, argPsduLen_bind_raises, pure_raises, SizeMismatch, and_false, false_and]
  | encodeFrame | buildDataField =>
    refine ((bind_raises_iff fun _ => (hbytes _).bind fun _ => raisesNoError_ok _).trans ?_).trans
      (Iff.symm (raises_psdu_iff trivial trivial))
    simp only [State.argsEncodeFrame, State.argsBuildDataField, argProfile_bind_raises, argPsduLen_bind_raises,
      require_bind_raises, pure_raises, and_false, or_false, decide_eq_false_iff_not, Nat.not_le]
    rfl
  | scramble | convEncode =>
    refine ((bind_raises_iff fun _ => (hbits _).bind fun _ => raisesNoError_ok _).trans ?_).trans
      (Iff.symm (raises_plain_iff id id fun _ => Iff.rfl))
    simp only [State.argsScramble, State.argsConvEncode, require_bind_raises, pure_raises, and_false, or_false,
      Bool.and_eq_false_iff, decide_eq_false_iff_not, Nat.not_le]
    rfl
  | puncture =>
    refine ((bind_raises_iff fun _ => (hbits _).bind fun _ => raisesNoError_ok _).trans ?_).trans
      (Iff.symm (raises_stage_iff trivial id))
    simp only [State.argsPuncture, argProfile_bind_raises, require_bind_raises, pure_raises, and_false, or_false,
      decide_eq_false_iff_not, decide_eq_true_eq, Nat.not_le, SizeMismatch, ← mod_period_ne_zero]
    refine or_congr_right (exists_congr fun p => and_congr_right fun _ => ?_)
    have hfits : s.stageBits ≤ 8 * s.params.inMemBytes ↔ ¬ s.stageBits > 8 * s.params.inMemBytes := Nat.not_lt.symm
    rw [hfits]
    show _ ↔ (s.stageBits > 8 * s.params.inMemBytes ∨ s.stageBits % p.codingRate.period ≠ 0) ∧ _
    tauto
  | interleave | deinterleave =>
    refine ((bind_raises_iff fun _ => (hbits _).bind fun _ => raisesNoError_ok _).trans ?_).trans
      (Iff.symm (raises_stage_iff trivial id))
    simp only [State.argsInterleave, argProfile_bind_raises, require_bind_raises, pure_raises, and_false, or_false,
      Bool.and_eq_false_iff, decide_eq_false_iff_not, Nat.not_le]
    rfl
  | mapSymbol | modulateSymbol =>
    refine ((bind_raises_iff fun _ => (hbits _).bind fun _ => raisesNoError_ok _).trans ?_).trans
      (Iff.symm (raises_stage_iff trivial id))
    simp only [State.argsSymbol, argProfile_bind_raises, require_bind_raises, pure_raises, and_false, or_false,
      decide_eq_false_iff_not]
    rfl

theorem fails_of_raises {i : Instr} {s : State} {c : ErrorCode} (h : Raises i s c) : ∃ t, exec i s = .next t ∧ Failed s t c :=
  fails_of_error (effectsOf_raises_iff.mpr h)

/-- A code other than NONE in ERRCODE is the one the command raised. -/
theorem raises_of_errCode {i : Instr} {s t : State} {c : ErrorCode} (h : exec i s = .next t) (hc : t.status.errCode = c)
    (hne : c ≠ .none) : Raises i s c := by
  subst hc
  rcases exec_next_iff.mp h with ⟨e, -, rfl⟩ | ⟨c, he, rfl⟩
  · exact absurd rfl hne
  · exact effectsOf_raises_iff.mp he

/-- Settles O9: the selector is the first check. -/
theorem invalidSelectorRaisesInvalidDataRate : Obligations.InvalidSelectorRaisesInvalidDataRate := by
  refine ⟨fun i s hneeds hsel => fails_of_raises (.invalidDataRate hneeds (profile_eq_none.mpr hsel)), fun i s t h hc => ?_⟩
  cases raises_of_errCode h hc (by decide) with
  | invalidDataRate hneeds hnone => exact ⟨hneeds, profile_eq_none.mp hnone⟩

/-- Settles O10: PSDU_LEN is checked after the selector. -/
theorem longPsduRaisesPsduTooLarge : Obligations.LongPsduRaisesPsduTooLarge := by
  refine ⟨fun i s hchecks hrate hbw hlong => ?_, fun i s t h hc => ?_⟩
  · obtain ⟨p, hp⟩ := exists_profile hrate hbw
    exact fails_of_raises (.psduTooLarge p hchecks hp hlong)
  · cases raises_of_errCode h hc (by decide) with
    | psduTooLarge p hchecks _ hlong => exact ⟨hchecks, hlong⟩

/-- Settles O11: the sizes are checked last. -/
theorem wrongSizesRaiseBufferSizeMismatch : Obligations.WrongSizesRaiseBufferSizeMismatch := by
  refine ⟨fun i s p hvalid hshort hsize => fails_of_raises (.bufferSizeMismatch p hvalid hshort hsize), fun i s t h hc => ?_⟩
  cases raises_of_errCode h hc (by decide) with
  | bufferSizeMismatch p hvalid _ hsize => exact ⟨p, hvalid, hsize⟩

end Sys2Proof.Scope
end

section
/-! PROOFS. A command in progress and the reset input: what a host operation leaves of a BUSY block, that CMD_DROPPED is cleared by
the host or a reset alone, that the command completes, and what a reset restores (60_exceptions.md R371, R372,
70_reset_and_hazards.md R390 to R393, R402, R408). -/

namespace Sys2Proof.Scope

open Sys2Proof.Machine Sys2Proof.Safety Sys2Proof.Laws

/-! ### The engine's step (60_exceptions.md R365, R372) -/

/-- Both completions leave the block IDLE, with CMD_DROPPED as it was. -/
theorem completeCommand_next {s t : State} (h : s.completeCommand = .next t) :
    t.phase = .idle ∧ t.status.cmdDropped = s.status.cmdDropped := by
  unfold State.completeCommand at h
  split at h
  · cases h
    exact ⟨rfl, rfl⟩
  · rw [exec_eq_finish] at h
    rcases finish_next_iff.mp h with ⟨e, -, rfl⟩ | ⟨c, -, rfl⟩ <;> exact ⟨rfl, rfl⟩

theorem completeCommand_not_refused (s : State) (x : Refusal) : s.completeCommand ≠ .refused x := by
  unfold State.completeCommand
  split
  · exact nofun
  · rw [exec_eq_finish]
    exact finish_not_refused s _ x

/-! ### A host operation on a BUSY block (70_reset_and_hazards.md R401, R402) -/

/-- Nothing of a command in progress has changed: not its word, its snapshot, the results, nor STATUS but for CMD_DROPPED. -/
structure SameCommand (s t : State) : Prop where
  phase   : t.phase = s.phase
  cmd     : t.cmd = s.cmd
  snap    : t.snap = s.snap
  results : t.results = s.results
  delay   : t.delay = s.delay
  status  : t.status = { s.status with cmdDropped := t.status.cmdDropped }

theorem sameCommand_refl (s : State) : SameCommand s s := ⟨rfl, rfl, rfl, rfl, rfl, rfl⟩

theorem sameCommand_csrWrite {s : State} (h : s.phase = .busy) (c : Csr) (w : Word) : SameCommand s (s.csrWrite c w) := by
  cases c with
  | cmd =>
    simp only [State.csrWrite, h]
    exact ⟨h.symm, rfl, rfl, rfl, rfl, rfl⟩
  | status =>
    simp only [State.csrWrite, status_hostWrite_eq]
    exact ⟨rfl, rfl, rfl, rfl, rfl, rfl⟩
  | _ => exact ⟨rfl, rfl, rfl, rfl, rfl, rfl⟩

theorem sameCommand_csrWriteAt {s : State} (h : s.phase = .busy) (off : Nat) (w : Word) :
    SameCommand s (s.csrWriteAt off w) := by
  unfold State.csrWriteAt
  split
  · exact sameCommand_csrWrite h _ w
  · exact sameCommand_refl s

theorem storeBytes_status (s : State) (bytes : List (MemSpace × Nat × Byte)) : (s.storeBytes bytes).status = s.status := by
  simpa using congrArg State.status (storeBytes_rest bytes s)

theorem sameCommand_storeBytes (s : State) (bytes : List (MemSpace × Nat × Byte)) : SameCommand s (s.storeBytes bytes) := by
  have hrest := storeBytes_rest bytes s
  have hstatus := storeBytes_status s bytes
  exact ⟨storeBytes_phase s bytes, (congrArg State.cmd hrest :), (congrArg State.snap hrest :),
    (congrArg State.results hrest :), (congrArg State.delay hrest :), by rw [hstatus]⟩

/-- While BUSY a host operation is a reset, or leaves the same command in progress. -/
theorem hostStep_of_busy {s t : State} {op : HostOp} {rest : List HostOp} (hbusy : s.phase = .busy)
    (h : s.hostStep op rest = .next t) : t.phase = .idle ∨ SameCommand (Issued s rest) t := by
  have hissued : (Issued s rest).phase = .busy := hbusy
  cases op with
  | write addr width w =>
    refine .inr ?_
    rcases hostWrite_cases h with rfl | ⟨off, -, -, -, -, rfl⟩ | ⟨bytes, -, rfl⟩
    · exact sameCommand_refl _
    · exact sameCommand_csrWriteAt hissued off w
    · exact sameCommand_storeBytes _ bytes
  | read addr width =>
    cases h
    exact .inr ⟨rfl, rfl, rfl, rfl, rfl, rfl⟩
  | poll =>
    cases h
    exact .inr ⟨rfl, rfl, rfl, rfl, rfl, rfl⟩
  | reset =>
    cases h
    exact .inl rfl

theorem hostWrite_not_refused (s : State) (addr : Nat) (width : Width) (w : Word) (x : Refusal) :
    s.hostWrite addr width w ≠ .refused x := by
  unfold State.hostWrite State.writeMem
  cases offsetOf s.params addr with
  | none => exact nofun
  | some off =>
    dsimp only
    split
    · cases width <;> exact nofun
    · split <;> exact nofun

theorem hostStep_not_refused (s : State) (op : HostOp) (rest : List HostOp) (x : Refusal) : s.hostStep op rest ≠ .refused x := by
  cases op with
  | write addr width w => exact hostWrite_not_refused _ addr width w x
  | read addr width => exact nofun
  | poll => exact nofun
  | reset => exact nofun

theorem step_not_refused (s : State) (x : Refusal) : step s ≠ .refused x := by
  unfold step State.advance
  split
  · exact completeCommand_not_refused s x
  · exact hostStep_not_refused s _ _ x
  · exact nofun

/-- Everything a step of a BUSY block that goes on can be: the block is IDLE again, or the same command is in progress and one of
the host operations before its completion has gone by. -/
theorem step_of_busy {s t : State} (hbusy : s.phase = .busy) (h : step s = .next t) :
    t.phase = .idle ∨ ∃ rest, SameCommand (Issued s rest) t ∧ s.delay ≠ 0 := by
  cases step_cases h with
  | engine _ heq => exact .inl (completeCommand_next heq).1
  | host op rest hturn heq =>
    rcases hturn.2 with hidle | hdelay
    · rw [hbusy] at hidle; cases hidle
    · exact (hostStep_of_busy hbusy heq).imp_right fun hsame => ⟨rest, hsame, hdelay⟩
  | nobody hidle _ _ => rw [hbusy] at hidle; cases hidle

/-- STATUS while BUSY, when it is consistent: BUSY, and CMD_DROPPED as set. -/
theorem statusWord_of_busy {st : Status} (h : StatusOk st .busy) :
    st.word true = if st.cmdDropped then 0x00000011#32 else 0x00000001#32 := by
  have hdone := h.busy rfl
  have herr : st.err = false := by
    rw [← Bool.not_eq_true]
    exact fun he => by rw [h.errDone he] at hdone; cases hdone
  have hfound : st.found = false := by
    rw [← Bool.not_eq_true]
    exact fun hf => by rw [(h.foundOk hf).1] at hdone; cases hdone
  have hcode : st.errCode = .none := by
    by_contra hne
    rw [h.errCode.mpr hne] at herr
    cases herr
  obtain ⟨done, err, found, cmdDropped, errCode⟩ := st
  subst hdone herr hfound hcode
  cases cmdDropped <;> rfl

/-- Settles O58: a step from a BUSY state to a BUSY state is a host operation on the same command. -/
theorem resultsStandStillWhileBusy : Obligations.ResultsStandStillWhileBusy := by
  refine ⟨fun s t hbusy h hstill => ?_, fun s hinv hbusy => ?_⟩
  · rcases step_of_busy hbusy h with hidle | ⟨rest, hsame, -⟩
    · rw [hstill] at hidle; cases hidle
    · exact ⟨hsame.cmd, hsame.snap, hsame.results, hsame.status⟩
  · have hstatus := hinv.status
    rw [csrRead_status, hbusy]
    rw [hbusy] at hstatus
    exact statusWord_of_busy hstatus

/-! ### Completion (70_reset_and_hazards.md R408) -/

/-- Within `n` steps the block is IDLE or the run has ended in a fault. -/
def CompletesWithin (n : Nat) (s : State) : Prop :=
  ∃ k, k ≤ n ∧
    ((∃ t : State, Sys2Proof.core.run k s = .next t ∧ t.phase = .idle) ∨ ∃ f : Fault, Sys2Proof.core.run k s = .fault f)

theorem completesWithin_of_idle {s : State} (h : s.phase = .idle) (n : Nat) : CompletesWithin n s :=
  ⟨0, Nat.zero_le n, .inl ⟨s, rfl, h⟩⟩

/-- One step more than every next state needs: a step that does not go on is a fault. -/
theorem completesWithin_succ {s : State} {n : Nat} (h : ∀ t, step s = .next t → CompletesWithin n t) :
    CompletesWithin (n + 1) s := by
  cases hstep : step s with
  | fault f => exact ⟨1, Nat.le_add_left 1 n, .inr ⟨f, run_succ_fault Sys2Proof.core 0 hstep⟩⟩
  | refused x => exact absurd hstep (step_not_refused s x)
  | next t =>
    obtain ⟨k, hk, hrun⟩ := h t hstep
    refine ⟨k + 1, Nat.succ_le_succ hk, ?_⟩
    rwa [run_succ_next Sys2Proof.core k hstep]

theorem completesWithin_of_busy {s : State} (h : s.phase = .busy) : CompletesWithin (s.delay + 1) s := by
  generalize hd : s.delay = d
  induction d generalizing s with
  | zero =>
    refine completesWithin_succ fun t hstep => ?_
    rcases step_of_busy h hstep with hidle | ⟨rest, -, hdelay⟩
    · exact completesWithin_of_idle hidle 0
    · exact absurd hd hdelay
  | succ d ih =>
    refine completesWithin_succ fun t hstep => ?_
    rcases step_of_busy h hstep with hidle | ⟨rest, hsame, -⟩
    · exact completesWithin_of_idle hidle _
    · refine ih (hsame.phase.trans h) ?_
      rw [hsame.delay, Issued, hd, Nat.add_sub_cancel]

/-- Settles O57: each step that does not end the command counts its delay down. -/
theorem busyBlockCompletes : Obligations.BusyBlockCompletes := fun _ hbusy => completesWithin_of_busy hbusy

/-! ### CMD_DROPPED (60_exceptions.md R371) -/

/-- A CSR write clears CMD_DROPPED only as a write to STATUS with bit 4 set (10_state.md R34). -/
theorem csrWrite_clears_cmdDropped {s : State} {c : Csr} {w : Word} (hset : s.status.cmdDropped = true)
    (hclear : (s.csrWrite c w).status.cmdDropped = false) : c = .status ∧ w.getLsbD 4 = true := by
  cases c with
  | status =>
    rw [State.csrWrite, status_hostWrite_eq] at hclear
    simpa [hset] using hclear
  | cmd =>
    unfold State.csrWrite at hclear
    cases hp : s.phase <;> simp [hp, hset] at hclear
  | _ => exact absurd (hset.symm.trans hclear) (by decide)

theorem csrWriteAt_clears_cmdDropped {s : State} {off : Nat} {w : Word} (hset : s.status.cmdDropped = true)
    (hclear : (s.csrWriteAt off w).status.cmdDropped = false) : off = 0x04 ∧ w.getLsbD 4 = true := by
  unfold State.csrWriteAt at hclear
  cases hc : csrAt off with
  | none => rw [hc] at hclear; exact absurd (hset.symm.trans hclear) (by decide)
  | some c =>
    rw [hc] at hclear
    obtain ⟨rfl, hbit⟩ := csrWrite_clears_cmdDropped hset hclear
    exact ⟨csrAt_eq_some hc, hbit⟩

/-- The host operation clears CMD_DROPPED: a reset, or a 32-bit write at one of the byte addresses of STATUS with bit 4 set. -/
def ClearsCmdDropped (base : Nat) (op : HostOp) : Prop :=
  op = .reset ∨ ∃ addr data, op = .write addr .w32 data ∧ data.getLsbD 4 = true ∧ base + 0x04 ≤ addr ∧ addr < base + 0x08

theorem hostWrite_clears_cmdDropped {s t : State} {addr : Nat} {width : Width} {w : Word} (h : s.hostWrite addr width w = .next t)
    (hset : s.status.cmdDropped = true) (hclear : t.status.cmdDropped = false) :
    ClearsCmdDropped s.params.base (.write addr width w) := by
  rcases hostWrite_cases h with rfl | ⟨off, rfl, hbase, hoff, -, rfl⟩ | ⟨bytes, -, rfl⟩
  · exact absurd (hset.symm.trans hclear) (by decide)
  · obtain ⟨rfl, hbit⟩ := csrWriteAt_clears_cmdDropped hset hclear
    unfold alignDown at hoff
    exact .inr ⟨addr, w, rfl, hbit, by omega, by omega⟩
  · rw [storeBytes_status] at hclear
    exact absurd (hset.symm.trans hclear) (by decide)

theorem hostStep_clears_cmdDropped {s t : State} {op : HostOp} {rest : List HostOp} (h : s.hostStep op rest = .next t)
    (hset : s.status.cmdDropped = true) (hclear : t.status.cmdDropped = false) : ClearsCmdDropped s.params.base op := by
  cases op with
  | write addr width w => exact hostWrite_clears_cmdDropped (s := Issued s rest) h hset hclear
  | read addr width => cases h; exact absurd (hset.symm.trans hclear) (by decide)
  | poll => cases h; exact absurd (hset.symm.trans hclear) (by decide)
  | reset => exact .inl rfl

/-- Settles O6: a CMD write while BUSY only drops, and neither the engine nor another host operation clears the bit. -/
theorem busyCommandIsDroppedAndRecorded : Obligations.BusyCommandIsDroppedAndRecorded := by
  refine ⟨fun s j w rest hj hturn hbusy => ?_, fun s t h hset hclear => ?_⟩
  · rw [step_csrWrite_at (c := .cmd) hj hturn]
    simp only [State.csrWrite, show (Issued s rest).phase = .busy from hbusy]
    rfl
  · cases step_cases h with
    | engine _ heq => rw [(completeCommand_next heq).2, hset] at hclear; cases hclear
    | host op rest hturn heq => exact ⟨op, rest, hturn.1, hostStep_clears_cmdDropped heq hset hclear⟩
    | nobody _ _ heq => rw [heq, hset] at hclear; cases hclear

/-! ### The reset input (70_reset_and_hazards.md R390 to R393) -/

/-- A byte outside the output range of a command in progress keeps its value when the command is abandoned (R392). -/
theorem read_abandonOutput {s : State} {sp : MemSpace} {k : Nat} (h : s.inRunningOutput sp k = false) :
    (s.abandonOutput.mem sp).read k = (s.mem sp).read k := by
  unfold State.inRunningOutput at h
  unfold State.abandonOutput
  cases hrun : s.running with
  | none => rfl
  | some i =>
    simp only [hrun] at h ⊢
    cases hout : s.outputRange i with
    | none => rfl
    | some e =>
      rw [hout] at h
      show ((s.setMem e.space _).mem sp).read k = _
      by_cases hsp : sp = e.space
      · subst hsp
        have hk : e.bytes ≤ k := by simpa [inExtent, Extent.holds] using h
        rw [setMem_mem_self, read_writeBlock_outside (.inr (by simpa [freeBytes] using hk))]
      · rw [setMem_mem_ne s _ hsp]

/-- A reset keeps every byte outside the output range of a command in progress. -/
theorem read_applyReset {s : State} {sp : MemSpace} {k : Nat} (h : s.inRunningOutput sp k = false) :
    (s.applyReset.mem sp).read k = (s.mem sp).read k := by
  have hmem : s.applyReset.mem sp = s.abandonOutput.mem sp := by cases sp <;> rfl
  rw [hmem, read_abandonOutput h]

/-- The output range of a command in progress is that of the word latched. -/
theorem inRunningOutput_eq_false {s : State} {sp : MemSpace} {k : Nat}
    (h : ∀ i, decode s.params.hasDetector s.cmd = .ok i → inExtent (s.outputRange i) sp k = false) :
    s.inRunningOutput sp k = false := by
  unfold State.inRunningOutput State.running
  cases s.phase with
  | idle => rfl
  | busy =>
    cases hd : decode s.params.hasDetector s.cmd with
    | error e => rfl
    | ok i => exact h i hd

/-- After a reset every CSR reads as it does after power-on. -/
theorem csrRead_applyReset (s : State) (off : Nat) : s.applyReset.csrRead off = (State.powerOn s.params).csrRead off := by
  have hparams : s.applyReset.params = s.params := abandonOutput_params s
  unfold State.csrRead
  cases csrAt off with
  | none => rfl
  | some c => cases c <;> simp only [State.csrValue, hparams] <;> rfl

/-- Settles O53: the reset input takes the operation off the queue and restores the rest. -/
theorem resetInputRestoresEveryCsr : Obligations.ResetInputRestoresEveryCsr := by
  intro s rest hturn
  have hrest := abandonOutput_rest (Issued s rest)
  have hmem (sp : MemSpace) (k : Nat) (h : (Issued s rest).inRunningOutput sp k = false) :
      ((Issued s rest).applyReset.mem sp).read k = (s.mem sp).read k := by
    rw [read_applyReset h]
    cases sp <;> rfl
  refine ⟨(Issued s rest).applyReset, step_host hturn, rfl, rfl, (congrArg State.params hrest :), (congrArg State.pending hrest :),
    (congrArg State.responses hrest :), csrRead_applyReset (Issued s rest), ?idle, ?legal, ?illegal⟩
  case idle => exact fun sp k hidle => hmem sp k (inRunningOutput_of_idle (s := Issued s rest) hidle sp k)
  case legal =>
    refine fun sp k i hi hout => hmem sp k (inRunningOutput_eq_false fun j hj => ?_)
    obtain rfl : j = i := Except.ok.inj (hj.symm.trans hi)
    exact hout
  case illegal => exact fun hnone sp k => hmem sp k (inRunningOutput_eq_false fun i hi => absurd hi (hnone i))

end Sys2Proof.Scope
end

section
/-! PROOFS. The frame detector: a scan answers the first qualifying position in range, what a detect command reports of it, and the
ideal input of the short metric (48_frame_detector.md R342 to R351). -/

namespace Sys2Proof.Scope

open Sys2Proof.Machine Sys2Proof.Safety Sys2Proof.Laws

/-! ### Scans (R345, R348, R349) -/

/-- The candidates are the positions whose window fits, below the scan limit unless it is 0. -/
theorem lt_candidates_iff {windowLen len maxScan n : Nat} :
    n < candidates windowLen len maxScan ↔ n + windowLen ≤ len ∧ (maxScan = 0 ∨ n < maxScan) := by
  unfold candidates
  dsimp only
  split <;> omega

theorem candidates_eq_zero {windowLen len : Nat} (h : len < windowLen) (maxScan : Nat) : candidates windowLen len maxScan = 0 := by
  have hnone : ¬ 0 < candidates windowLen len maxScan := by rw [lt_candidates_iff]; omega
  omega

theorem scanFrom_eq_some {q : Nat → Bool} {k n : Nat} (hn : n < k) (hq : q n = true) (hfirst : ∀ j, j < n → ¬ q j = true) :
    scanFrom q k 0 = some n := by
  rcases scanFrom_spec q k 0 with ⟨m, hscan, -, -, hm, hbefore⟩ | ⟨-, hnone⟩
  · have hle : n ≤ m := Nat.not_lt.mp fun h => hfirst m h hm
    have hge : m ≤ n := Nat.not_lt.mp fun h => by rw [hbefore n (Nat.zero_le n) h] at hq; cases hq
    rw [hscan, Nat.le_antisymm hle hge]
  · rw [hnone n (Nat.zero_le n) (by omega)] at hq
    cases hq

theorem scanFrom_eq_none {q : Nat → Bool} {k : Nat} (h : ∀ n, n < k → ¬ q n = true) : scanFrom q k 0 = none := by
  rcases scanFrom_spec q k 0 with ⟨m, -, -, hlt, hm, -⟩ | ⟨hscan, -⟩
  · exact absurd hm (h m (by omega))
  · exact hscan

/-- A buffer too short for one window has no candidate, whatever it holds. -/
theorem scanFrom_candidates_of_short {windowLen len : Nat} (h : len < windowLen) (q : Nat → Bool) (maxScan : Nat) :
    scanFrom q (candidates windowLen len maxScan) 0 = none := by
  rw [candidates_eq_zero h]
  rfl

/-! ### The scanned buffer (R342, R349) -/

/-- The engine reads the held samples, or nothing when no window fits (log 14): no scan that finds nothing in a buffer shorter
than one window tells the two apart. -/
theorem scanBuffer_of_holds {s : State} {r : List C64} {windowLen : Nat} (hpos : 0 < windowLen) (hlen : r.length = s.scanLen)
    (hheld : windowLen ≤ r.length → HoldsSamples s.smpMem r) :
    ∃ r', s.scanBuffer windowLen = .ok r' ∧
      ∀ scan : List C64 → Option Nat, (∀ v, v.length < windowLen → scan v = none) → scan r' = scan r := by
  by_cases hshort : r.length < windowLen
  · refine ⟨[], scanBuffer_eq_ok.mpr (by rw [if_pos (hlen ▸ hshort)]), fun scan hscan => ?_⟩
    rw [hscan [] hpos, hscan r hshort]
  · refine ⟨r, scanBuffer_eq_ok.mpr ?_, fun _ _ => rfl⟩
    rw [if_neg (hlen ▸ hshort), ← hlen]
    exact ⟨rfl, hheld (Nat.not_lt.mp hshort)⟩

/-- DETECT_SHORT computes the short scan of the held samples. -/
theorem effectsOf_detectShort {s : State} {r : List C64} (hlen : r.length = s.scanLen)
    (hheld : 48 ≤ r.length → HoldsSamples s.smpMem r) :
    effectsOf .detectShort s = .ok (Effects.ofScan (shortScan r s.snap.detMaxScan.toNat (f32ToF64 s.snap.detThrShort))) := by
  obtain ⟨r', hread, hsame⟩ := scanBuffer_of_holds (by omega) hlen hheld
  refine runDetectShort_eq_ok.mpr ⟨r', hread, congrArg Effects.ofScan (Eq.symm ?_)⟩
  exact hsame (fun v => shortScan v _ _) fun v hv => scanFrom_candidates_of_short hv _ _

/-- DETECT_LONG computes the long scan of the held samples. -/
theorem effectsOf_detectLong {s : State} {r : List C64} (hlen : r.length = s.scanLen)
    (hheld : 64 ≤ r.length → HoldsSamples s.smpMem r) :
    effectsOf .detectLong s = .ok (Effects.ofScan (longScan r s.snap.detMaxScan.toNat (f32ToF64 s.snap.detThrLong))) := by
  obtain ⟨r', hread, hsame⟩ := scanBuffer_of_holds (by omega) hlen hheld
  refine runDetectLong_eq_ok.mpr ⟨r', hread, congrArg Effects.ofScan (Eq.symm ?_)⟩
  exact hsame (fun v => longScan v _ _) fun v hv => scanFrom_candidates_of_short hv _ _

/-! ### What a detect command reports (R350, R351) -/

/-- The command completes, writes no memory and no result CSR but DET_INDEX, and reports the first position in range that
qualifies, or NotFound. -/
def ReportsFirst (i : Instr) (s : State) (len windowLen maxScan : Nat) (q : Nat → Bool) : Prop :=
  ∃ t found, exec i s = .next t ∧ Completed s t found ∧ NoMemoryWritten s t ∧
    t.results = { s.results with detIndex := t.results.detIndex } ∧
    (∀ n, (n + windowLen ≤ len ∧ (maxScan = 0 ∨ n < maxScan)) → q n = true → (∀ k, k < n → ¬ q k = true) →
      found = true ∧ t.results.detIndex.toNat = n) ∧
    ((∀ n, (n + windowLen ≤ len ∧ (maxScan = 0 ∨ n < maxScan)) → ¬ q n = true) →
      found = false ∧ t.results.detIndex = 0xFFFFFFFF#32)

/-- A command whose outputs are those of a scan; DET_INDEX holds every position of a buffer that DET_LEN can count. -/
theorem reportsFirst_of_scan {i : Instr} {s : State} {len windowLen maxScan : Nat} {q : Nat → Bool} (hlen : len < 2 ^ 32)
    (h : effectsOf i s = .ok (Effects.ofScan (scanFrom q (candidates windowLen len maxScan) 0))) :
    ReportsFirst i s len windowLen maxScan q := by
  refine ⟨_, _, exec_of_effects h, completed_succeedWith s _, ⟨rfl, rfl⟩, rfl, fun n hrange hq hfirst => ?_, fun hnone => ?_⟩
  · rw [scanFrom_eq_some (lt_candidates_iff.mpr hrange) hq hfirst]
    refine ⟨rfl, ?_⟩
    show (BitVec.ofNat 32 n).toNat = n
    rw [BitVec.toNat_ofNat, Nat.mod_eq_of_lt (by omega)]
  · rw [scanFrom_eq_none fun n hn => hnone n (lt_candidates_iff.mp hn)]
    exact ⟨rfl, rfl⟩

/-- DET_LEN and the memory bound the scanned buffer (R342). -/
theorem scanned_length_lt {s : State} {n : Nat} (h : n = s.scanLen) : n < 2 ^ 32 := by
  have hlt := s.snap.detLen.isLt
  have hle : s.scanLen ≤ s.snap.detLen.toNat := Nat.min_le_left _ _
  omega

/-- Settles O23: the command's outputs are those of the short scan. -/
theorem detectShortReportsTheFirstQualifyingPosition : Obligations.DetectShortReportsTheFirstQualifyingPosition :=
  fun _ _ hlen hheld => reportsFirst_of_scan (scanned_length_lt hlen) (effectsOf_detectShort hlen hheld)

/-- Settles O24: the command's outputs are those of the long scan. -/
theorem detectLongReportsTheFirstQualifyingPosition : Obligations.DetectLongReportsTheFirstQualifyingPosition :=
  fun _ _ hlen hheld => reportsFirst_of_scan (scanned_length_lt hlen) (effectsOf_detectLong hlen hheld)

/-! ### The ideal input of the short metric (R343) -/

/-- On a buffer that begins with the first window of SHORT the metric at position 0 exceeds the reset threshold (R343 item 3). -/
theorem shortMetric_of_ideal {r : List C64} (h : r.take 48 = (shortTraining hw).take 48) :
    ∃ m, shortMetric r 0 = some m ∧ resetThreshold < m := by
  unfold shortMetric
  dsimp only
  rw [if_pos ⟨rfl, h⟩]
  split
  · rename_i m _
    refine ⟨_, rfl, ?_⟩
    split
    · assumption
    · exact lt_add_one resetThreshold
  · exact ⟨_, rfl, lt_add_one resetThreshold⟩

theorem qualifies_of_ideal {r : List C64} (h : r.take 48 = (shortTraining hw).take 48) :
    qualifies (shortMetric r 0) (f32ToF64 0x3F99999A#32) = true := by
  obtain ⟨m, hm, hexceeds⟩ := shortMetric_of_ideal h
  obtain ⟨hfinite, -⟩ := f32ToF64_exact (x := 0x3F99999A#32) (by decide)
  rw [hm, qualifies_iff_of_finite hfinite]
  exact hexceeds

/-- Settles O25: position 0 is in range under every scan limit, qualifies, and has none before it. -/
theorem detectShortFindsAFreshPreambleAtZero : Obligations.DetectShortFindsAFreshPreambleAtZero := by
  intro s r hlen hlong hshort hheld hthr
  obtain ⟨t, found, hexec, hcompleted, hmem, -, hfirst, -⟩ :=
    detectShortReportsTheFirstQualifyingPosition s r hlen fun _ => hheld
  have hideal : r.take 48 = (shortTraining hw).take 48 := by rw [← hshort, List.take_take]; rfl
  have hrange : 0 + 48 ≤ r.length ∧ (s.snap.detMaxScan.toNat = 0 ∨ 0 < s.snap.detMaxScan.toNat) := by omega
  obtain ⟨rfl, hindex⟩ := hfirst 0 hrange (hthr ▸ qualifies_of_ideal hideal) (by omega)
  exact ⟨t, hexec, hcompleted, hmem, BitVec.eq_of_toNat_eq hindex⟩

end Sys2Proof.Scope
end

section
/-! PROOFS. Frame assembly sample by sample: what an overlap-sum adds to each sample, the samples of a chain of data symbols, and the
one or two waveforms that cover each sample of a frame (47_frame.md R320 to R323). -/

namespace Sys2Proof.Scope

open Sys2Proof.Machine Sys2Proof.Safety Sys2Proof.Laws

section
variable {α : Type} (A : Arith α)

/-! ### One overlap-sum (R322) -/

/-- The sum with the sample a waveform has there, if it has one. -/
def plus (a : α) (x : Option α) : α := x.elim a (A.add a)

@[simp] theorem plus_none (a : α) : plus A a none = a := rfl

/-- The sample at `n` of a waveform placed at `off`. -/
def placedAt (off : Nat) (w : List α) (n : Nat) : Option α := if off ≤ n then w[n - off]? else none

theorem placedAt_of_lt {off n : Nat} (w : List α) (h : n < off) : placedAt off w n = none := if_neg (by omega)

theorem placedAt_of_le {off n : Nat} {w : List α} (h : off + w.length ≤ n) : placedAt off w n = none := by
  rw [placedAt, if_pos (by omega), List.getElem?_eq_none (by omega)]

theorem placedAt_self (off : Nat) (w : List α) : placedAt off w off = w[0]? := by
  rw [placedAt, if_pos (Nat.le_refl off), Nat.sub_self]

theorem placedAt_add (off k : Nat) (w : List α) : placedAt off w (off + k) = w[k]? := by
  rw [placedAt, if_pos (Nat.le_add_right off k), Nat.add_sub_cancel_left]

/-- An overlap-sum adds to each sample the one of the waveform there. -/
theorem addAt_getElem? {out w : List α} {off : Nat} (hfits : off + w.length ≤ out.length) (n : Nat) :
    (addAt A out off w)[n]? = out[n]?.map fun a => plus A a (placedAt off w n) := by
  have htake : (out.take off).length = off := by rw [List.length_take]; omega
  have hzip : (List.zipWith A.add (out.drop off) w).length = w.length := by
    rw [List.length_zipWith, List.length_drop]; omega
  rw [addAt]
  by_cases hbefore : n < off
  · rw [List.append_assoc, List.getElem?_append_left (by omega), List.getElem?_take_of_lt hbefore, placedAt_of_lt w hbefore]
    simp
  · obtain ⟨k, rfl⟩ := Nat.exists_eq_add_of_le (Nat.not_lt.mp hbefore)
    by_cases hinside : k < w.length
    · rw [List.append_assoc, List.getElem?_append_right (by omega), htake, Nat.add_sub_cancel_left,
        List.getElem?_append_left (by omega), placedAt_add, List.getElem?_zipWith, List.getElem?_drop,
        List.getElem?_eq_getElem hinside]
      cases out[off + k]? <;> rfl
    · rw [List.getElem?_append_right (by rw [List.length_append]; omega), List.length_append, htake, hzip,
        List.getElem?_drop, placedAt_of_le (by omega), show off + w.length + (off + k - (off + w.length)) = off + k by omega]
      simp

/-- A sample that one waveform covers. -/
def oneSample (x : Option α) : Option α := x.map fun a => A.add A.zero a

/-- A sample that two waveforms cover, in the order they are added in. -/
def twoSamples (x y : Option α) : Option α := x.bind fun a => y.map fun b => A.add (A.add A.zero a) b

theorem some_plus {w : List α} {i : Nat} (h : i < w.length) : some (plus A A.zero w[i]?) = oneSample A w[i]? := by
  rw [List.getElem?_eq_getElem h]
  rfl

theorem some_plus_plus {v w : List α} {i k : Nat} (hi : i < v.length) (hk : k < w.length) :
    some (plus A (plus A A.zero v[i]?) w[k]?) = twoSamples A v[i]? w[k]? := by
  rw [List.getElem?_eq_getElem hi, List.getElem?_eq_getElem hk]
  rfl

/-! ### The data symbols (R320) -/

/-- Data symbols add nothing before the first of them. -/
theorem addSymbols_getElem?_before {ys : List (List α)} (hy : ∀ y ∈ ys, y.length = 81) {out : List α} {m n : Nat}
    (hfits : frameLen (m + ys.length) ≤ out.length) (hn : n < (5 + m) * 80) : (addSymbols A out m ys)[n]? = out[n]? := by
  induction ys generalizing out m with
  | nil => rfl
  | cons y ys ih =>
    have hlen : y.length = 81 := hy y (by simp)
    simp only [frameLen, List.length_cons] at hfits
    have hadd : (5 + m) * 80 + y.length ≤ out.length := by omega
    rw [addSymbols, ih (fun y' h' => hy y' (by simp [h'])) (by rw [addAt_length A hadd, frameLen]; omega) (by omega),
      addAt_getElem? A hadd, placedAt_of_lt y hn]
    simp

/-- A chain of symbols that begins with `z`: sample `r` of the step of `ys[j]` gets what reaches into it of the symbol before, then
the sample of `ys[j]` itself. -/
theorem addSymbols_getElem? {ys : List (List α)} (hy : ∀ y ∈ ys, y.length = 81) {z out : List α} (hz : z.length = 81) {m : Nat}
    (hfits : frameLen (m + ys.length) ≤ out.length) (j : Nat) {r : Nat} (hr : r < 80) :
    (addSymbols A (addAt A out ((4 + m) * 80) z) m ys)[(5 + (m + j)) * 80 + r]? =
      out[(5 + (m + j)) * 80 + r]?.map fun a =>
        plus A (plus A a ((z :: ys)[j]?.bind fun w => w[80 + r]?)) (ys[j]?.bind fun w => w[r]?) := by
  induction ys generalizing out m z j with
  | nil =>
    have hadd : (4 + m) * 80 + z.length ≤ out.length := by simp only [frameLen, List.length_nil] at hfits; omega
    rw [addSymbols, addAt_getElem? A hadd]
    cases j with
    | zero =>
      rw [show (5 + (m + 0)) * 80 + r = (4 + m) * 80 + (80 + r) by omega, placedAt_add]
      rfl
    | succ j =>
      rw [placedAt_of_le (by omega)]
      rfl
  | cons y ys ih =>
    have hlen : y.length = 81 := hy y (by simp)
    have hys : ∀ y' ∈ ys, y'.length = 81 := fun y' h' => hy y' (by simp [h'])
    simp only [frameLen, List.length_cons] at hfits
    have hadd : (4 + m) * 80 + z.length ≤ out.length := by omega
    have hout := addAt_length A hadd
    have hadd' : (5 + m) * 80 + y.length ≤ (addAt A out ((4 + m) * 80) z).length := by omega
    rw [addSymbols]
    cases j with
    | zero =>
      rw [addSymbols_getElem?_before A hys (by rw [addAt_length A hadd', frameLen]; omega) (by omega), addAt_getElem? A hadd',
        addAt_getElem? A hadd, show (5 + (m + 0)) * 80 + r = (5 + m) * 80 + r from rfl, placedAt_add,
        show (5 + m) * 80 + r = (4 + m) * 80 + (80 + r) by omega, placedAt_add, Option.map_map]
      rfl
    | succ j =>
      have hstep := ih hys hlen (m := m + 1) (out := addAt A out ((4 + m) * 80) z) (by rw [frameLen]; omega) j
      rw [show 4 + (m + 1) = 5 + m by omega, show m + 1 + j = m + (j + 1) by omega] at hstep
      rw [hstep, addAt_getElem? A hadd, placedAt_of_le (by omega), Option.map_map]
      rfl

/-! ### The frame (R322, R323) -/

/-- The output with the two training sequences added in. -/
def withTraining (n : Nat) : List α := addAt A (addAt A (List.replicate n A.zero) 0 (shortTraining A)) 160 (longTraining A)

theorem assembleFrame_eq_addSymbols (sig : List α) (ys : List (List α)) :
    assembleFrame A sig ys = addSymbols A (addAt A (withTraining A (frameLen ys.length)) 320 sig) 0 ys := rfl

theorem frameLen_ge (n : Nat) : 401 ≤ frameLen n := by unfold frameLen; omega

@[simp] theorem withTraining_length (k : Nat) : (withTraining A (frameLen k)).length = frameLen k := by
  have h := frameLen_ge k
  have hshort := addAt_length A (out := List.replicate (frameLen k) A.zero) (w := shortTraining A) (off := 0)
    (by rw [List.length_replicate, shortTraining_length]; omega)
  rw [withTraining, addAt_length A (by rw [hshort, List.length_replicate, longTraining_length]; omega), hshort,
    List.length_replicate]

theorem withTraining_getElem? {k n : Nat} (hn : n < frameLen k) :
    (withTraining A (frameLen k))[n]? =
      some (plus A (plus A A.zero (placedAt 0 (shortTraining A) n)) (placedAt 160 (longTraining A) n)) := by
  have h := frameLen_ge k
  have hshort : 0 + (shortTraining A).length ≤ (List.replicate (frameLen k) A.zero).length := by
    rw [List.length_replicate, shortTraining_length]; omega
  rw [withTraining, addAt_getElem? A (by rw [addAt_length A hshort, List.length_replicate, longTraining_length]; omega),
    addAt_getElem? A hshort, List.getElem?_replicate_of_lt hn]
  rfl

variable {sig : List α} {ys : List (List α)} (hs : sig.length = 81) (hy : ∀ y ∈ ys, y.length = 81)
include hs hy

/-- The samples before the first data symbol. -/
theorem assembleFrame_getElem?_before {n : Nat} (hn : n < 400) :
    (assembleFrame A sig ys)[n]? = some (plus A
      (plus A (plus A A.zero (shortTraining A)[n]?) (placedAt 160 (longTraining A) n)) (placedAt 320 sig n)) := by
  have h := frameLen_ge ys.length
  have hadd : 320 + sig.length ≤ (withTraining A (frameLen ys.length)).length := by rw [withTraining_length]; omega
  rw [assembleFrame_eq_addSymbols,
    addSymbols_getElem?_before A hy (by rw [addAt_length A hadd, withTraining_length, Nat.zero_add]) hn, addAt_getElem? A hadd, withTraining_getElem? A (by omega)]
  rfl

theorem assembleFrame_getElem?_short {n : Nat} (hn : n < 160) :
    (assembleFrame A sig ys)[n]? = oneSample A (shortTraining A)[n]? := by
  rw [assembleFrame_getElem?_before A hs hy (by omega), placedAt_of_lt _ (by omega), placedAt_of_lt sig (by omega),
    plus_none, plus_none, some_plus A (by rw [shortTraining_length]; omega)]

theorem assembleFrame_getElem?_shortLong :
    (assembleFrame A sig ys)[160]? = twoSamples A (shortTraining A)[160]? (longTraining A)[0]? := by
  rw [assembleFrame_getElem?_before A hs hy (by omega), placedAt_self, placedAt_of_lt sig (by omega), plus_none,
    some_plus_plus A (by rw [shortTraining_length]; omega) (by rw [longTraining_length]; omega)]

/-- After its last sample SHORT adds nothing. -/
theorem assembleFrame_getElem?_after_short {n : Nat} (h : 160 < n) (hn : n < 400) :
    (assembleFrame A sig ys)[n]? = some (plus A (plus A A.zero (placedAt 160 (longTraining A) n)) (placedAt 320 sig n)) := by
  rw [assembleFrame_getElem?_before A hs hy hn, List.getElem?_eq_none (by rw [shortTraining_length]; omega), plus_none]

theorem assembleFrame_getElem?_long {n : Nat} (h1 : 1 ≤ n) (hn : n < 160) :
    (assembleFrame A sig ys)[160 + n]? = oneSample A (longTraining A)[n]? := by
  rw [assembleFrame_getElem?_after_short A hs hy (by omega) (by omega), placedAt_add, placedAt_of_lt sig (by omega), plus_none,
    some_plus A (by rw [longTraining_length]; omega)]

theorem assembleFrame_getElem?_longSignal :
    (assembleFrame A sig ys)[320]? = twoSamples A (longTraining A)[160]? sig[0]? := by
  rw [assembleFrame_getElem?_after_short A hs hy (by omega) (by omega), placedAt_self,
    show placedAt 160 (longTraining A) 320 = _ from placedAt_add 160 160 _,
    some_plus_plus A (by rw [longTraining_length]; omega) (by omega)]

theorem assembleFrame_getElem?_signal {n : Nat} (h1 : 1 ≤ n) (hn : n < 80) :
    (assembleFrame A sig ys)[320 + n]? = oneSample A sig[n]? := by
  rw [assembleFrame_getElem?_after_short A hs hy (by omega) (by omega), placedAt_of_le (by rw [longTraining_length]; omega),
    placedAt_add, plus_none, some_plus A (by omega)]

/-- SIGNAL and the data symbols alike have 81 samples. -/
theorem length_of_mem_symbols {j : Nat} {w : List α} (hw : (sig :: ys)[j]? = some w) : w.length = 81 := by
  rcases List.mem_cons.mp (List.mem_of_getElem? hw) with rfl | hw
  · exact hs
  · exact hy w hw

/-- The samples from the first data symbol on, SIGNAL being the symbol before the first. -/
theorem assembleFrame_getElem?_from_symbol (j : Nat) {r : Nat} (hr : r < 80) (hn : (5 + j) * 80 + r < frameLen ys.length) :
    (assembleFrame A sig ys)[(5 + j) * 80 + r]? = some (plus A
      (plus A A.zero ((sig :: ys)[j]?.bind fun w => w[80 + r]?)) (ys[j]?.bind fun w => w[r]?)) := by
  have hsym := addSymbols_getElem? A hy hs (m := 0) (out := withTraining A (frameLen ys.length))
    (by rw [withTraining_length, Nat.zero_add]) j hr
  rw [Nat.zero_add, withTraining_getElem? A hn, placedAt_of_le (by rw [shortTraining_length]; omega),
    placedAt_of_le (by rw [longTraining_length]; omega)] at hsym
  exact hsym

/-- Inside a data symbol the one before it has ended. -/
theorem assembleFrame_getElem?_symbol {m n : Nat} {y : List α} (h : ys[m]? = some y) (h1 : 1 ≤ n) (hn : n < 80) :
    (assembleFrame A sig ys)[(5 + m) * 80 + n]? = oneSample A y[n]? := by
  obtain ⟨hm, -⟩ := List.getElem?_eq_some_iff.mp h
  have hylen := hy y (List.mem_of_getElem? h)
  have hended : ((sig :: ys)[m]?.bind fun w => w[80 + n]?) = none := by
    refine Option.bind_eq_none_iff.mpr fun w hw => List.getElem?_eq_none ?_
    rw [length_of_mem_symbols hs hy hw]
    omega
  rw [assembleFrame_getElem?_from_symbol A hs hy m hn (by unfold frameLen; omega), hended, h, Option.bind_some, plus_none,
    some_plus A (by omega)]

/-- At a seam the last sample of a symbol, SIGNAL included, and the first of the next. -/
theorem assembleFrame_getElem?_seam {j : Nat} {w y : List α} (hw : (sig :: ys)[j]? = some w) (h : ys[j]? = some y) :
    (assembleFrame A sig ys)[(5 + j) * 80]? = twoSamples A w[80]? y[0]? := by
  obtain ⟨hj, -⟩ := List.getElem?_eq_some_iff.mp h
  have hylen := hy y (List.mem_of_getElem? h)
  have hwlen := length_of_mem_symbols hs hy hw
  have hsum := assembleFrame_getElem?_from_symbol A hs hy j (r := 0) (by omega) (by unfold frameLen; omega)
  rwa [hw, h, Option.bind_some, Option.bind_some, some_plus_plus A (by omega) (by omega)] at hsum

/-- At the end the last sample of the last symbol, SIGNAL included, alone. -/
theorem assembleFrame_getElem?_end {w : List α} (hw : (sig :: ys)[ys.length]? = some w) :
    (assembleFrame A sig ys)[(5 + ys.length) * 80]? = oneSample A w[80]? := by
  have hwlen := length_of_mem_symbols hs hy hw
  have hsum := assembleFrame_getElem?_from_symbol A hs hy ys.length (r := 0) (by omega) (by unfold frameLen; omega)
  rwa [hw, List.getElem?_eq_none (Nat.le_refl _), Option.bind_some, Option.bind_none, plus_none,
    some_plus A (by omega)] at hsum

end

/-- Settles O38: each sample is in one waveform, or at a seam in two; SIGNAL stands before the data symbols as a symbol. -/
theorem frameIsTheOverlapSum : Obligations.FrameIsTheOverlapSum := by
  intro α A sig ys hs hy
  refine ⟨assembleFrame_length A hs hy, fun n hn => assembleFrame_getElem?_short A hs hy (by omega),
    assembleFrame_getElem?_shortLong A hs hy, fun n h1 hn => assembleFrame_getElem?_long A hs hy h1 (by omega),
    assembleFrame_getElem?_longSignal A hs hy, fun n h1 hn => assembleFrame_getElem?_signal A hs hy h1 (by omega),
    ?signalEnd, fun y h => assembleFrame_getElem?_seam A hs hy (j := 0) rfl h,
    fun m y n h h1 hn => assembleFrame_getElem?_symbol A hs hy h h1 (by omega),
    fun m y y' h h' => assembleFrame_getElem?_seam A hs hy (j := m + 1) h h', ?lastSample⟩
  case signalEnd =>
    rintro rfl
    exact assembleFrame_getElem?_end A hs hy rfl
  case lastSample =>
    intro m y h hm
    exact assembleFrame_getElem?_end A hs hy (by rw [← hm]; exact h)

end Sys2Proof.Scope
end
